-- ==== Sys2Proof/Word.lean ====
section
/-! DEFINITION. The words of the block (00_scope.md R11) and the values of its two coded registers: a byte, the 16-bit
address, the 12-bit event word, the Command register's values (10_state.md R32) and the bus phase's (R40). -/

namespace Sys2Proof

/-- One byte: a received byte, a transmitted byte, a memory cell. -/
abbrev Byte := BitVec 8

/-- A value of the register `ADDR` (10_state.md R34). -/
abbrev Addr := BitVec 16

/-- One event word of the input port (30_encoding.md R90). -/
abbrev EventWord := BitVec 12

/-- The values of the 3-bit register `CMD` (10_state.md R32). `unreachable` is the value 7, which no rule writes (R33). -/
inductive Cmd where
  | wait
  | version
  | memory
  | chipinfo
  | flash
  | eeprom
  | bootApplication
  | unreachable
  deriving DecidableEq, Repr

/-- The encoding of `CMD` (10_state.md R32, the table's first column). -/
def Cmd.toBits : Cmd → BitVec 3
  | .wait => 0
  | .version => 1
  | .memory => 2
  | .chipinfo => 3
  | .flash => 4
  | .eeprom => 5
  | .bootApplication => 6
  | .unreachable => 7

/-- The values of the 2-bit register `PHASE` (10_state.md R40). `unwritten` is the value 3, which no rule writes. -/
inductive Phase where
  | idle
  | rx
  | tx
  | unwritten
  deriving DecidableEq, Repr

/-- The encoding of `PHASE` (10_state.md R40, the table's first column). -/
def Phase.toBits : Phase → BitVec 2
  | .idle => 0
  | .rx => 1
  | .tx => 2
  | .unwritten => 3

/-- The acknowledge decision for a received byte (10_state.md R41): `ack` is 1, `nack` is 0. -/
inductive Ack where
  | ack
  | nack
  deriving DecidableEq, Repr

/-- The level of the output `ack` (10_state.md R41). -/
def Ack.toBit : Ack → BitVec 1
  | .ack => 1
  | .nack => 0

end Sys2Proof
end

