-- ==== Sys2Proof/Syntax.lean ====
section
/-! DEFINITION. The instructions: one constructor per row of spec/opcode_table.json. The block has no instruction set; its
instructions are the events it consumes, the frame bytes and read bytes that refine two of them, and the platform's
hand-off (00_scope.md R1). An operand is a field that a row's meaning reads; the data byte that 30_encoding.md R93 ignores
is no operand. -/

namespace Sys2Proof

/-- One constructor per row of the opcode table, in the table's order. -/
inductive Instr where
  /-- `EV_ADDR_W`, addressed as writer (41_protocol_fsm.md R171). -/
  | evAddrW
  /-- `EV_ADDR_R`, addressed as reader (R172). -/
  | evAddrR
  /-- `EV_RX`, a byte received (R173). -/
  | evRx (data : Byte)
  /-- `EV_TX_REQ`, a byte requested (R174). -/
  | evTxReq
  /-- `EV_STOP`, the end of a transaction (R175). -/
  | evStop
  /-- `EV_BUS_ERROR`, a malformed bus condition (R177). -/
  | evBusError
  /-- `EV_TICK`, the periodic tick (43_boot_arbiter.md R231). -/
  | evTick
  /-- `EV_RESERVED_7`, the reserved event code 0x7 (30_encoding.md R92). -/
  | evReserved7
  /-- `EV_RESERVED_8_F`, the reserved event codes 0x8..0xF (R92). -/
  | evReserved8F
  /-- `HANDOFF`, the platform agent's step; it has no event word (43_boot_arbiter.md R240). -/
  | handOff
  /-- `OP_WAIT`, opcode byte 0x00 at position 0 (40_command_decoder.md R122). -/
  | opWait
  /-- `OP_VERSION`, opcode byte 0x01 at position 0 (R123). -/
  | opVersion
  /-- `OP_MEMORY`, opcode byte 0x02 at position 0 (R124). -/
  | opMemory
  /-- `OP_UNKNOWN`, any other opcode byte at position 0 (R125). -/
  | opUnknown (data : Byte)
  /-- `SWITCH_APP`, the boot type at position 1 under `VERSION` (R126). -/
  | switchApp (data : Byte)
  /-- `KIND_CHIPINFO`, memory kind 0x00 at position 1 under `MEMORY` (R127). -/
  | kindChipinfo
  /-- `KIND_FLASH`, memory kind 0x01 at position 1 under `MEMORY` (R128). -/
  | kindFlash
  /-- `KIND_EEPROM`, memory kind 0x02 at position 1 under `MEMORY` (R129). -/
  | kindEeprom
  /-- `KIND_BAD`, any other memory kind at position 1 under `MEMORY` (R130). -/
  | kindBad (data : Byte)
  /-- `POS1_OTHER`, a byte at position 1 under another Command (R131). -/
  | pos1Other (data : Byte)
  /-- `ADDR_BYTE`, a byte at position 2 or 3 (R132). -/
  | addrByte (data : Byte)
  /-- `WRITE_FLASH_BYTE`, a payload byte under `FLASH` (R133). -/
  | writeFlashByte (data : Byte)
  /-- `WRITE_EE_BYTE`, a payload byte under `EEPROM` (R134). -/
  | writeEeByte (data : Byte)
  /-- `WRITE_CHIPINFO_BYTE`, a payload byte under `CHIPINFO` (R135). -/
  | writeChipinfoByte (data : Byte)
  /-- `PAYLOAD_OTHER`, a payload byte under another Command (R136). -/
  | payloadOther (data : Byte)
  /-- `READ_VERSION`, a byte requested under `VERSION` (R141). -/
  | readVersion
  /-- `READ_CHIPINFO`, a byte requested under `CHIPINFO` (R142). -/
  | readChipinfo
  /-- `READ_FLASH`, a byte requested under `FLASH` (R143). -/
  | readFlash
  /-- `READ_EEPROM`, a byte requested under `EEPROM` (R144). -/
  | readEeprom
  /-- `READ_FILLER`, a byte requested under `WAIT`, `MEMORY` or `BOOT_APPLICATION` (R145). -/
  | readFiller
  deriving DecidableEq, Repr

end Sys2Proof
end

