-- ==== Sys2Proof/WellFormed.lean ====
section
/-! DEFINITION. Well-formed instructions: the two rows whose condition excludes some data bytes (40_command_decoder.md
R125, R130: the rows of the bytes 0x00, 0x01 and 0x02 take precedence). Every other row takes every byte. -/

namespace Sys2Proof

/-- A byte that is neither of the three recognized opcodes and memory kinds (30_encoding.md R96, R98). -/
abbrev unrecognizedByte (data : Byte) : Prop := 3 ≤ data.toNat

/-- The data condition of each row of the opcode table. -/
def Instr.wf : Instr → Bool
  | .opUnknown data => decide (unrecognizedByte data)
  | .kindBad data => decide (unrecognizedByte data)
  | .evAddrW => true
  | .evAddrR => true
  | .evRx _ => true
  | .evTxReq => true
  | .evStop => true
  | .evBusError => true
  | .evTick => true
  | .evReserved7 => true
  | .evReserved8F => true
  | .handOff => true
  | .opWait => true
  | .opVersion => true
  | .opMemory => true
  | .switchApp _ => true
  | .kindChipinfo => true
  | .kindFlash => true
  | .kindEeprom => true
  | .pos1Other _ => true
  | .addrByte _ => true
  | .writeFlashByte _ => true
  | .writeEeByte _ => true
  | .writeChipinfoByte _ => true
  | .payloadOther _ => true
  | .readVersion => true
  | .readChipinfo => true
  | .readFlash => true
  | .readEeprom => true
  | .readFiller => true

end Sys2Proof
end

