-- ==== Sys2Proof/Decode.lean ====
section
/-! DEFINITION. Decoding (30_encoding.md). A word alone is read by the event decoder (R90-R93). A received byte and a byte
request are refined by the frame decoder and the read decoder, which also need the Command and the position (R94-R101);
`decodeRow` joins the two levels. After them the encoder. -/

namespace Sys2Proof

/-- The field `code` of an event word, bits [11:8] (R90). -/
def eventCode (w : EventWord) : BitVec 4 := w.extractLsb' 8 4

/-- The field `data` of an event word, bits [7:0] (R90). -/
def eventData (w : EventWord) : Byte := w.extractLsb' 0 8

/-- The event word of a code and a data byte (R90). -/
def eventWord (code : BitVec 4) (data : Byte) : EventWord := code ++ data

/-- Why a decoder reads no instruction. -/
inductive DecodeError where
  /-- A number of more than 12 bits is no event word (R90). -/
  | widerThanEventWord
  /-- Under `CMD` = 7 no frame or read row is selected (40_command_decoder.md R120, R140: a model fault). -/
  | cmdUnreachable
  deriving DecidableEq, Repr

/-- The event decoder (R91, R92). The data byte is read for `EV_RX` only (R93). -/
def decodeEvent (w : EventWord) : Instr :=
  match (eventCode w).toNat with
  | 0x0 => .evAddrW
  | 0x1 => .evAddrR
  | 0x2 => .evRx (eventData w)
  | 0x3 => .evTxReq
  | 0x4 => .evStop
  | 0x5 => .evBusError
  | 0x6 => .evTick
  | 0x7 => .evReserved7
  | _ => .evReserved8F

/-- Position 0: the opcode map (R96). -/
def decodeOpcode (data : Byte) : Instr :=
  if data = 0x00 then .opWait
  else if data = 0x01 then .opVersion
  else if data = 0x02 then .opMemory
  else .opUnknown data

/-- Position 1 under `MEMORY`: the memory-kind map (R98). -/
def decodeKind (data : Byte) : Instr :=
  if data = 0x00 then .kindChipinfo
  else if data = 0x01 then .kindFlash
  else if data = 0x02 then .kindEeprom
  else .kindBad data

/-- Position 1: boot type, memory kind, or a byte with no meaning (R94, R97, R98). -/
def decodeArg (cmd : Cmd) (data : Byte) : Instr :=
  match cmd with
  | .version => .switchApp data
  | .memory => decodeKind data
  | _ => .pos1Other data

/-- Positions from 4 on: payload (R100). -/
def decodePayload (cmd : Cmd) (data : Byte) : Instr :=
  match cmd with
  | .flash => .writeFlashByte data
  | .eeprom => .writeEeByte data
  | .chipinfo => .writeChipinfoByte data
  | _ => .payloadOther data

/-- The frame decoder (R94; 40_command_decoder.md R120): the row that a received byte is at a position under a Command. -/
def decodeFrame (cmd : Cmd) (pos : Nat) (data : Byte) : Except DecodeError Instr :=
  if cmd = .unreachable then .error .cmdUnreachable
  else match pos with
    | 0 => .ok (decodeOpcode data)
    | 1 => .ok (decodeArg cmd data)
    | 2 => .ok (.addrByte data)
    | 3 => .ok (.addrByte data)
    | _ => .ok (decodePayload cmd data)

/-- The read decoder (R101; 40_command_decoder.md R140): the row that a byte request is under a Command. -/
def decodeRead (cmd : Cmd) : Except DecodeError Instr :=
  match cmd with
  | .version => .ok .readVersion
  | .chipinfo => .ok .readChipinfo
  | .flash => .ok .readFlash
  | .eeprom => .ok .readEeprom
  | .wait => .ok .readFiller
  | .memory => .ok .readFiller
  | .bootApplication => .ok .readFiller
  | .unreachable => .error .cmdUnreachable

/-- Both levels: the finest row of the opcode table that a word is under a Command at a position. -/
def decodeRow (cmd : Cmd) (pos : Nat) (w : EventWord) : Except DecodeError Instr :=
  if eventCode w = 0x2 then decodeFrame cmd pos (eventData w)
  else if eventCode w = 0x3 then decodeRead cmd
  else .ok (decodeEvent w)

/-- A number as an event word: total, and a number wider than the input port is rejected by name. -/
def decodeNumber (n : Nat) : Except DecodeError Instr :=
  if n < 4096 then .ok (decodeEvent (BitVec.ofNat 12 n)) else .error .widerThanEventWord

/-- The instruction the event decoder reads from the low `nbits` bits of `w` (an event word is 12 bits on an input port,
not bytes in a memory, so no byte order arises). A frame or read row shares its words with `EV_RX` or `EV_TX_REQ` and is
told apart by state (log 5), so this decoder, which sees no state, answers the event. -/
def decodeTableWord (nbits w : Nat) : Option Instr :=
  match decodeNumber (w % 2 ^ nbits) with
  | .ok i => some i
  | .error _ => none

/-- The word that delivers an instruction, from the table's match and fields; an ignored data byte is 0x00 (R93), the code
of `EV_RESERVED_8_F` its lowest. `HANDOFF` has no event word (43_boot_arbiter.md R240). -/
def encode : Instr → Option EventWord
  | .evAddrW => some (eventWord 0x0 0x00)
  | .evAddrR => some (eventWord 0x1 0x00)
  | .evRx data => some (eventWord 0x2 data)
  | .evTxReq => some (eventWord 0x3 0x00)
  | .evStop => some (eventWord 0x4 0x00)
  | .evBusError => some (eventWord 0x5 0x00)
  | .evTick => some (eventWord 0x6 0x00)
  | .evReserved7 => some (eventWord 0x7 0x00)
  | .evReserved8F => some (eventWord 0x8 0x00)
  | .handOff => none
  | .opWait => some (eventWord 0x2 0x00)
  | .opVersion => some (eventWord 0x2 0x01)
  | .opMemory => some (eventWord 0x2 0x02)
  | .opUnknown data => some (eventWord 0x2 data)
  | .switchApp data => some (eventWord 0x2 data)
  | .kindChipinfo => some (eventWord 0x2 0x00)
  | .kindFlash => some (eventWord 0x2 0x01)
  | .kindEeprom => some (eventWord 0x2 0x02)
  | .kindBad data => some (eventWord 0x2 data)
  | .pos1Other data => some (eventWord 0x2 data)
  | .addrByte data => some (eventWord 0x2 data)
  | .writeFlashByte data => some (eventWord 0x2 data)
  | .writeEeByte data => some (eventWord 0x2 data)
  | .writeChipinfoByte data => some (eventWord 0x2 data)
  | .payloadOther data => some (eventWord 0x2 data)
  | .readVersion => some (eventWord 0x3 0x00)
  | .readChipinfo => some (eventWord 0x3 0x00)
  | .readFlash => some (eventWord 0x3 0x00)
  | .readEeprom => some (eventWord 0x3 0x00)
  | .readFiller => some (eventWord 0x3 0x00)

/-- The `POS` and `CMD` part of a row's condition in the opcode table: where the frame and read decoders select it. `EV_RX`
and `EV_TX_REQ` are the words' own rows, refined everywhere, so no decoder of rows answers them. -/
def Instr.selectedAt (cmd : Cmd) (pos : Nat) : Instr → Bool
  | .evAddrW => true
  | .evAddrR => true
  | .evRx _ => false
  | .evTxReq => false
  | .evStop => true
  | .evBusError => true
  | .evTick => true
  | .evReserved7 => true
  | .evReserved8F => true
  | .handOff => true
  | .opWait => cmd != .unreachable && pos == 0
  | .opVersion => cmd != .unreachable && pos == 0
  | .opMemory => cmd != .unreachable && pos == 0
  | .opUnknown _ => cmd != .unreachable && pos == 0
  | .switchApp _ => cmd == .version && pos == 1
  | .kindChipinfo => cmd == .memory && pos == 1
  | .kindFlash => cmd == .memory && pos == 1
  | .kindEeprom => cmd == .memory && pos == 1
  | .kindBad _ => cmd == .memory && pos == 1
  | .pos1Other _ => cmd != .unreachable && cmd != .version && cmd != .memory && pos == 1
  | .addrByte _ => cmd != .unreachable && (pos == 2 || pos == 3)
  | .writeFlashByte _ => cmd == .flash && 4 ≤ pos
  | .writeEeByte _ => cmd == .eeprom && 4 ≤ pos
  | .writeChipinfoByte _ => cmd == .chipinfo && 4 ≤ pos
  | .payloadOther _ => cmd != .unreachable && cmd != .flash && cmd != .eeprom && cmd != .chipinfo && 4 ≤ pos
  | .readVersion => cmd == .version
  | .readChipinfo => cmd == .chipinfo
  | .readFlash => cmd == .flash
  | .readEeprom => cmd == .eeprom
  | .readFiller => cmd == .wait || cmd == .memory || cmd == .bootApplication

end Sys2Proof
end

