-- ==== Sys2Proof/Config.lean ====
section
/-! DEFINITION. The implementation parameters of 00_scope.md R7 (with R8, R9, R10): what a build of the block fixes. A
machine carries its parameters in the field `cfg` of its state, which no step changes, so that a statement about every
state is a statement about every configuration (R7: a claim quantifies over the parameter). -/

namespace Sys2Proof

/-- `POS_OVERFLOW`: what the Position Counter does at its maximum (10_state.md R36). -/
inductive PosOverflow where
  | saturate
  | wrap
  deriving DecidableEq, Repr

/-- `FLASH_WRITE_ADDR`: what Address holds after a page write (42_memory_backend.md R205). -/
inductive FlashWriteAddr where
  | hold
  | pageOnCommit
  | pageOnWrite
  deriving DecidableEq, Repr

/-- `FILL_MAP`: where payload byte i lands for an unaligned start Address (42_memory_backend.md R204). -/
inductive FillMap where
  | linear
  | rotated
  deriving DecidableEq, Repr

/-- `CHIPINFO_WRITE_PAYLOAD`: the decision for payload bytes written to chip info (40_command_decoder.md R135). -/
inductive ChipinfoPayload where
  | ackDiscard
  | nack
  deriving DecidableEq, Repr

/-- `FLASH_OOR` and `EE_OOR`: an access beyond the end of a memory (42_memory_backend.md R208, R210). -/
inductive OutOfRange where
  | fault
  | wrap
  deriving DecidableEq, Repr

/-- The parameters of 00_scope.md R7. `ID_LEN` is the length of `ident`. -/
structure Config where
  pageSize : Nat
  flashSize : Nat
  bootStart : Nat
  eepromSupport : Bool
  eeSize : Nat
  sig0 : Byte
  sig1 : Byte
  sig2 : Byte
  ident : List Byte
  t0 : Nat
  ctrWidth : Nat
  posWidth : Nat
  posOverflow : PosOverflow
  flashWriteAddr : FlashWriteAddr
  fillMap : FillMap
  chipinfoWritePayload : ChipinfoPayload
  flashOor : OutOfRange
  eeOor : OutOfRange
  deriving DecidableEq, Repr

/-- `PAGE_SIZE` is a power of two in 2..128 (00_scope.md R8). -/
abbrev Config.pageOk (c : Config) : Prop := c.pageSize ∈ [2, 4, 8, 16, 32, 64, 128]

/-- `FLASH_SIZE` is in 1..65536 and a multiple of `PAGE_SIZE`; `BOOT_START` is a multiple of `PAGE_SIZE`, at most
`FLASH_SIZE` and below 65536 (00_scope.md R7, R9). -/
abbrev Config.flashOk (c : Config) : Prop :=
  1 ≤ c.flashSize ∧ c.flashSize ≤ 65536 ∧ c.flashSize % c.pageSize = 0 ∧
    c.bootStart % c.pageSize = 0 ∧ c.bootStart ≤ c.flashSize ∧ c.bootStart < 65536

/-- `EE_SIZE` is in 1..65535 when the configuration has data memory, else 0 (00_scope.md R7). -/
abbrev Config.eeOk (c : Config) : Prop :=
  if c.eepromSupport then 1 ≤ c.eeSize ∧ c.eeSize ≤ 65535 else c.eeSize = 0

/-- `ID_LEN` is in 1..256 and divides 256 (00_scope.md R10). -/
abbrev Config.identOk (c : Config) : Prop :=
  1 ≤ c.ident.length ∧ c.ident.length ≤ 256 ∧ 256 % c.ident.length = 0

/-- `CTR_WIDTH` is in 1..32 and holds `T0`; `POS_WIDTH` holds `PAGE_SIZE`+3 (00_scope.md R7). -/
abbrev Config.countersOk (c : Config) : Prop :=
  1 ≤ c.ctrWidth ∧ c.ctrWidth ≤ 32 ∧ c.t0 < 2 ^ c.ctrWidth ∧ c.pageSize + 3 < 2 ^ c.posWidth

/-- The legal parameter values of 00_scope.md R7; 93_implementation_defined.md refuses every other configuration. -/
abbrev Config.wf (c : Config) : Prop :=
  c.pageOk ∧ c.flashOk ∧ c.eeOk ∧ c.identOk ∧ c.countersOk

/-- The example configuration of 95_test_vectors.md section 1, with the values that 00_scope.md R7 gives for this hardware
(`POS_WIDTH`, `POS_OVERFLOW`, `FLASH_WRITE_ADDR`, `FILL_MAP`, `CHIPINFO_WRITE_PAYLOAD`, `FLASH_OOR`, `EE_OOR`).
DESIGN CHOICE (log 1), unsafe: the open parameters have no hardware value; `State.reset` needs one configuration. -/
def Config.exampleConfig : Config where
  pageSize := 64
  flashSize := 0x8000
  bootStart := 0x7C00
  eepromSupport := true
  eeSize := 0x0400
  sig0 := 0xA1
  sig1 := 0xB2
  sig2 := 0xC3
  ident := [0x54, 0x57, 0x49, 0x42, 0x4F, 0x4F, 0x54, 0x20, 0x45, 0x58, 0x41, 0x4D, 0x50, 0x4C, 0x45, 0x00]
  t0 := 100
  ctrWidth := 16
  posWidth := 8
  posOverflow := .saturate
  flashWriteAddr := .pageOnCommit
  fillMap := .linear
  chipinfoWritePayload := .ackDiscard
  flashOor := .fault
  eeOor := .fault

end Sys2Proof
end

