-- ==== Sys2Proof/Machine/State.lean ====
section
/-! DEFINITION. The state of the block (10_state.md), as plain data: the registers of R31, the Page Buffer (R38), the two
memory arrays (20_memory.md R60), the model bookkeeping of R43, the outputs of the latest step (R41), the input events
still to come (30_encoding.md R90) and the configuration (00_scope.md R7). Its reset values are those of R47. -/

namespace Sys2Proof.Machine

/-- The model-fault reasons (60_exceptions.md R255). -/
inductive ModelFault where
  /-- Code 1: an event code 0x7..0xF (30_encoding.md R92). -/
  | reservedEvent
  /-- Code 2: `EV_RX` outside `RX`, `EV_TX_REQ` outside `TX` (41_protocol_fsm.md R178). -/
  | outOfPhaseEvent
  /-- Code 3: `CMD` = 7 read (10_state.md R33). -/
  | cmdUnreachable
  /-- Code 4: a flash payload byte beyond the page (40_command_decoder.md R133). -/
  | posBeyondPage
  /-- Code 5: a flash read at or beyond `FLASH_SIZE` (42_memory_backend.md R208). -/
  | flashOutOfRange
  /-- Code 6: a data-memory access at or beyond `EE_SIZE` (42_memory_backend.md R210). -/
  | eeOutOfRange
  deriving DecidableEq, Repr

/-- The codes of 60_exceptions.md R255. -/
def ModelFault.code : ModelFault → Nat
  | .reservedEvent => 1
  | .outOfPhaseEvent => 2
  | .cmdUnreachable => 3
  | .posBeyondPage => 4
  | .flashOutOfRange => 5
  | .eeOutOfRange => 6

/-- The event outputs (10_state.md R41): `ack` and `txd` are driven by the step that produces them only, `bus_reset` is a
one-step pulse. `boot_now` is a function of `CMD` (R42) and no field. -/
structure Outputs where
  ack : Option Ack
  txd : Option Byte
  busReset : Bool
  deriving DecidableEq, Repr

/-- No output driven (10_state.md R47). -/
def Outputs.quiet : Outputs := { ack := none, txd := none, busReset := false }

/-- One item of the input: an event word of the bus or tick agent (30_encoding.md R90), or the platform agent's step, which
has no event word (43_boot_arbiter.md R240). -/
inductive Input where
  | event (w : EventWord)
  | handOff
  deriving DecidableEq, Repr

/-- A memory array as its listed bytes (the canonical form is `Memory.wf` in Machine/Ops.lean). -/
abbrev Memory := List Host.Cell

/-- The state of the block. -/
structure State where
  /-- The parameters of this build (00_scope.md R7); no step changes them. -/
  cfg : Config
  /-- `CMD`, the live Command (R32). -/
  cmd : Cmd
  /-- `ADDR`, the memory Address (R34). -/
  addr : Addr
  /-- `POS`, the write-side position; below 2^`POS_WIDTH` (R35). -/
  pos : Nat
  /-- `RPOS`, the read-side position (R37). -/
  rpos : BitVec 8
  /-- `BUF`, the Page Buffer; `PAGE_SIZE` bytes (R38). -/
  buf : List Byte
  /-- `CTR`, the Boot Timeout Counter; below 2^`CTR_WIDTH` (R39). -/
  ctr : Nat
  /-- `PHASE`, the bus phase (R40). -/
  phase : Phase
  /-- Program memory (20_memory.md R60). -/
  flash : Memory
  /-- Data memory (20_memory.md R60). -/
  ee : Memory
  /-- `FAULTS`, the set of model-fault reasons recorded (R43), as a list without repeats. -/
  faults : List ModelFault
  /-- `HANDED_OFF` (R43). -/
  handedOff : Bool
  /-- The outputs of the latest step (R41). -/
  out : Outputs
  /-- The input still to come, the next item first (the model's own field, log 2). -/
  inputs : List Input
  deriving DecidableEq, Repr

/-- Why an agent has no step: the run stops here. -/
inductive Fault where
  /-- `FAULTS` is non-empty (60_exceptions.md R256): raised by every instruction and by the wait. Safe: the spec gives no
  step there. -/
  | stoppedByModelFault
  /-- `HANDED_OFF` is true (43_boot_arbiter.md R242): raised by every instruction and by the wait. Safe: the spec gives no
  step there. -/
  | stoppedByHandOff
  /-- A hand-off while `boot_now` = 0, where it is not enabled (43_boot_arbiter.md R240): raised by `HANDOFF`. Safe: the
  spec gives no step there. -/
  | handOffNotEnabled
  deriving DecidableEq, Repr

/-- Why the model gives no meaning. -/
inductive Refusal where
  /-- An instruction without a meaning yet, rejected by name in exec's arm. Safe. -/
  | notModelled (mnemonic : String)
  /-- The parameters are not legal values (00_scope.md R7; 93_implementation_defined.md: refuse): raised by every
  instruction and by the wait. Safe. -/
  | illegalConfiguration
  /-- A frame or read row run where the decoders do not select it (another `POS`, `CMD` or byte, where the same word is
  another row): raised by a frame or read row run by itself, never by a step. Safe. -/
  | rowNotSelected
  deriving DecidableEq, Repr

/-- A full device reset (10_state.md R46, R47; 70_reset_and_hazards.md R280). `ADDR` and `BUF` take any value, the draws
`addr` and `buf`; program and data memory keep their contents. -/
def State.resetWith (cfg : Config) (addr : Addr) (buf : List Byte) (flash ee : Memory) : State where
  cfg := cfg
  cmd := .wait
  addr := addr
  pos := 0
  rpos := 0
  buf := buf
  ctr := cfg.t0
  phase := .idle
  flash := flash
  ee := ee
  faults := []
  handedOff := false
  out := Outputs.quiet
  inputs := []

/-- The machine right after reset: the example configuration (DESIGN CHOICE, log 1, unsafe), the draws `ADDR` = 0 and `BUF`
all 0x00 (DESIGN CHOICE, log 3, unsafe), memories with nothing listed (DESIGN CHOICE, log 4, unsafe) and no input yet. -/
def State.reset : State :=
  State.resetWith Config.exampleConfig 0 (List.replicate Config.exampleConfig.pageSize 0) [] []

end Sys2Proof.Machine
end

