-- ==== Sys2Proof/Machine/Ops.lean ====
section
/-! DEFINITION. The shared operations of a step: the bytes of a memory, the next input, an agent's step, recording a model
fault (the block's only exceptional event, 60_exceptions.md R255; there is no return from one, R261), a transaction's end,
the answers of the write path and the read path. -/

namespace Sys2Proof.Machine

/-- What a byte that no cell lists reads as: 0xFF. DESIGN CHOICE (log 4), unsafe: the contents at launch are the run's own
(10_state.md R47), and any of them can be listed. -/
def unlistedByte : Byte := 0xFF

/-- One byte of a memory (00_scope.md R13). -/
def Memory.read : Memory → Nat → Byte
  | [], _ => unlistedByte
  | (b, w) :: m, a => if a = b then w else Memory.read m a

/-- One byte of a memory replaced, the canonical form kept: writing the unlisted value removes the cell. -/
def Memory.write : Memory → Nat → Byte → Memory
  | [], a, v => if v = unlistedByte then [] else [(a, v)]
  | (b, w) :: m, a, v =>
    if a < b then (if v = unlistedByte then (b, w) :: m else (a, v) :: (b, w) :: m)
    else if a = b then (if v = unlistedByte then m else (a, v) :: m)
    else (b, w) :: Memory.write m a v

/-- The canonical form: addresses strictly rising, and no cell equal to what an unlisted address reads as. -/
abbrev Memory.wf (m : Memory) : Prop :=
  m.Pairwise (fun c d => c.1 < d.1) ∧ ∀ c ∈ m, c.2 ≠ unlistedByte

/-- Every listed address lies below `size`: the array holds `size` bytes (20_memory.md R60). -/
abbrev Memory.within (size : Nat) (m : Memory) : Prop := ∀ c ∈ m, c.1 < size

/-- The instruction an input item is (30_encoding.md R90; 43_boot_arbiter.md R240). -/
def decodeInput : Input → Instr
  | .event w => decodeEvent w
  | .handOff => .handOff

/-- The next instruction and the state with its input taken; nothing when no input has come. -/
def fetch (s : State) : Option (Instr × State) :=
  match s.inputs with
  | [] => none
  | i :: rest => some (decodeInput i, { s with inputs := rest })

/-- An agent's step (41_protocol_fsm.md R170; 43_boot_arbiter.md R242; 60_exceptions.md R256): none when `FAULTS` is
non-empty or `HANDED_OFF` is true; no output is driven but those the step produces (10_state.md R41). -/
def agentStep (s : State) (body : State → Host.Outcome State Fault Refusal) : Host.Outcome State Fault Refusal :=
  if ¬ s.cfg.wf then .refused .illegalConfiguration
  else if s.faults ≠ [] then .fault .stoppedByModelFault
  else if s.handedOff = true then .fault .stoppedByHandOff
  else body { s with out := Outputs.quiet }

/-- Between events the block waits and its state stands (60_exceptions.md R270; 70_reset_and_hazards.md R281). -/
def waitForEvent (s : State) : Host.Outcome State Fault Refusal :=
  agentStep s fun _ => .next s

/-- `raise ModelFault(r)` (60_exceptions.md R255): the reason joins the set `FAULTS`, nothing else changes. -/
def State.raise (s : State) (r : ModelFault) : State :=
  { s with faults := if r ∈ s.faults then s.faults else s.faults ++ [r] }

/-- `TransactionEnd()` (41_protocol_fsm.md R175). -/
def State.endTransaction (s : State) : State := { s with phase := .idle }

/-- `if PHASE != IDLE: TransactionEnd()` (41_protocol_fsm.md R176). -/
def State.endOpenTransaction (s : State) : State :=
  if s.phase ≠ .idle then s.endTransaction else s

/-- What a path of the command decoder gives back: a value with the state after its side effects, or a model fault, which
ends the step (40_command_decoder.md R120, R140). -/
inductive PathResult (α : Type) where
  | answer (a : α) (s : State)
  | raise (r : ModelFault)

/-- `EV_RX` up to the write path (41_protocol_fsm.md R173, 40_command_decoder.md R120): the phase, then `CMD` = 7. -/
def onReceive (s : State) (body : State → Host.Outcome State Fault Refusal) : Host.Outcome State Fault Refusal :=
  agentStep s fun s =>
    if s.phase ≠ .rx then .next (s.raise .outOfPhaseEvent)
    else if s.cmd = .unreachable then .next (s.raise .cmdUnreachable)
    else body s

/-- `EV_TX_REQ` up to the read path (41_protocol_fsm.md R174, 40_command_decoder.md R140): the phase, then `CMD` = 7. -/
def onRequest (s : State) (body : State → Host.Outcome State Fault Refusal) : Host.Outcome State Fault Refusal :=
  agentStep s fun s =>
    if s.phase ≠ .tx then .next (s.raise .outOfPhaseEvent)
    else if s.cmd = .unreachable then .next (s.raise .cmdUnreachable)
    else body s

end Sys2Proof.Machine
end

