-- ==== Sys2Proof/Machine/Operands.lean ====
section
/-! DEFINITION. The operand forms: the Address assembled from two bytes (30_encoding.md R99) and advanced (10_state.md R34),
the page base and slot of a page write (42_memory_backend.md R201, R204), the checked addresses of a byte access (R208,
R210), and the two constant descriptors (30_encoding.md R102, R104). -/

namespace Sys2Proof.Machine

/-- Bits [15:8] of a 16-bit value. -/
def highByte (v : Addr) : Byte := v.extractLsb' 8 8

/-- Bits [7:0] of a 16-bit value. -/
def lowByte (v : Addr) : Byte := v.extractLsb' 0 8

/-- `((ADDR << 8) | byte) mod 2^16` (30_encoding.md R99, 40_command_decoder.md R132). -/
def shiftIn (a : Addr) (data : Byte) : Addr := (a <<< 8) ||| data.setWidth 16

/-- `(ADDR + 1) mod 2^16` (10_state.md R34). -/
def nextAddr (a : Addr) : Addr := a + 1

/-- `(ADDR + PAGE_SIZE) mod 2^16` (10_state.md R34). -/
def nextPage (c : Config) (a : Addr) : Addr := a + BitVec.ofNat 16 c.pageSize

/-- `PageBase(start)` (42_memory_backend.md R201): the mask `~(PAGE_SIZE-1)` at 16 bits. -/
def pageBase (c : Config) (start : Addr) : Addr := start &&& ~~~(BitVec.ofNat 16 (c.pageSize - 1))

/-- `Slot(start, i)` (42_memory_backend.md R204). -/
def slot (c : Config) (start : Addr) (i : Nat) : Nat :=
  match c.fillMap with
  | .linear => i
  | .rotated => (start.toNat + i) % c.pageSize

/-- `FlashAddr(a)` (42_memory_backend.md R208). -/
def flashAddr (c : Config) (a : Addr) : Except ModelFault Nat :=
  if a.toNat < c.flashSize then .ok a.toNat
  else match c.flashOor with
    | .fault => .error .flashOutOfRange
    | .wrap => .ok (a.toNat % c.flashSize)

/-- `EeAddr(a)` (42_memory_backend.md R210). -/
def eeAddr (c : Config) (a : Addr) : Except ModelFault Nat :=
  if a.toNat < c.eeSize then .ok a.toNat
  else match c.eeOor with
    | .fault => .error .eeOutOfRange
    | .wrap => .ok (a.toNat % c.eeSize)

/-- Byte k of the identity, cyclically (30_encoding.md R102). In a legal configuration the index is inside the string. -/
def identityByte (c : Config) (k : Nat) : Byte := c.ident.getD (k % c.ident.length) 0

/-- The chip-info record `CI[0..7]` (30_encoding.md R104), multi-byte fields high byte first (20_memory.md R64). -/
def chipInfo (c : Config) : List Byte :=
  let boot := BitVec.ofNat 16 c.bootStart
  let size := if c.eepromSupport then BitVec.ofNat 16 c.eeSize else 0
  [c.sig0, c.sig1, c.sig2, BitVec.ofNat 8 c.pageSize, highByte boot, lowByte boot, highByte size, lowByte size]

/-- Byte k of the chip-info record, cyclically (40_command_decoder.md R142). -/
def chipInfoByte (c : Config) (k : Nat) : Byte := (chipInfo c).getD (k % 8) 0

/-- The filler byte, all bits set (30_encoding.md R103). -/
def fillerByte : Byte := 0xFF

end Sys2Proof.Machine
end

