-- ==== Sys2Proof/Machine/Flags.lean ====
section
/-! DEFINITION. The block has no flag register (10_state.md R41). What stands in a flag's place is a verdict: the
acknowledge decision with the position update it causes (40_command_decoder.md R137), the read position's advance
(10_state.md R37) and the level `boot_now` (R42). -/

namespace Sys2Proof.Machine

/-- The advance of `POS` after an accepted byte: saturating or wrapping at `POS_WIDTH` bits (10_state.md R36). -/
def advancePos (c : Config) (pos : Nat) : Nat :=
  match c.posOverflow with
  | .saturate => min (pos + 1) (2 ^ c.posWidth - 1)
  | .wrap => (pos + 1) % 2 ^ c.posWidth

/-- `POS` after a verdict (40_command_decoder.md R137). -/
def posAfter (c : Config) (pos : Nat) : Ack → Nat
  | .ack => advancePos c pos
  | .nack => 0

/-- The end of an `EV_RX` step (41_protocol_fsm.md R173): the position update, then the output `ack`. -/
def finishReceive : PathResult Ack → State → Host.Outcome State Fault Refusal
  | .answer a t, _ => .next { t with pos := posAfter t.cfg t.pos a, out := { Outputs.quiet with ack := some a } }
  | .raise r, s => .next (s.raise r)

/-- The end of an `EV_TX_REQ` step (41_protocol_fsm.md R174): the output `txd`, then `wrap_inc_8(RPOS)`. -/
def finishRequest : PathResult Byte → State → Host.Outcome State Fault Refusal
  | .answer v t, _ => .next { t with rpos := t.rpos + 1, out := { Outputs.quiet with txd := some v } }
  | .raise r, s => .next (s.raise r)

/-- `boot_now` (10_state.md R42): exactly when `CMD` = `BOOT_APPLICATION`. -/
def State.bootNow (s : State) : Bool := s.cmd == .bootApplication

end Sys2Proof.Machine
end

