-- ==== Sys2Proof/Machine/BootArbiter.lean ====
section
/-! DEFINITION. The boot arbiter and the platform's hand-off (43_boot_arbiter.md). -/

namespace Sys2Proof.Machine

/-- `EV_TICK` (R231): above 1 the countdown goes on, at 1 the boot is forced, at 0 nothing happens. -/
def execEvTick (s : State) : Host.Outcome State Fault Refusal :=
  agentStep s fun s =>
    if 1 < s.ctr then .next { s with ctr := s.ctr - 1 }
    else if s.ctr = 1 then .next { s with cmd := .bootApplication }
    else .next s

/-- `HANDOFF` (R240): enabled while `boot_now` = 1, else no step. -/
def execHandOff (s : State) : Host.Outcome State Fault Refusal :=
  agentStep s fun s =>
    if s.bootNow then .next { s with handedOff := true } else .fault .handOffNotEnabled

end Sys2Proof.Machine
end

