-- ==== Sys2Proof/Machine/MemoryBackend.lean ====
section
/-! DEFINITION. The memory backend (42_memory_backend.md): the page commit with its alignment and boundary check, `ADDR` after
it, and the byte operations. A byte operation does not advance `ADDR` (R211; 00_scope.md R13). -/

namespace Sys2Proof.Machine

/-- The placements of the first `n` bytes of the Page Buffer (R203): byte i to `base + Slot(start, i)`, in order. A
well-formed buffer holds `PAGE_SIZE` bytes, so no byte is missing from it. -/
def placeBytes (c : Config) (start : Addr) (buf : List Byte) : Nat → Memory → Memory
  | 0, m => m
  | n + 1, m =>
    Memory.write (placeBytes c start buf n m) ((pageBase c start).toNat + slot c start n) (buf.getD n 0)

/-- `PageBase(start) < BOOT_START` (R202): the page lies below the bootloader boundary. -/
def commitAllowed (c : Config) (start : Addr) : Bool := decide ((pageBase c start).toNat < c.bootStart)

/-- Program memory after `CommitPage(start, BUF)` (R203): silently discarded at or above the boundary (R202). -/
def flashAfterCommit (c : Config) (start : Addr) (buf : List Byte) (m : Memory) : Memory :=
  if commitAllowed c start then placeBytes c start buf c.pageSize m else m

/-- `ADDR` after a page write that started at `start` (R205). -/
def addrAfterPage (c : Config) (start : Addr) : Addr :=
  match c.flashWriteAddr with
  | .hold => start
  | .pageOnCommit => nextPage c start
  | .pageOnWrite => if commitAllowed c start then nextPage c start else start

/-- `CommitPage(ADDR, BUF)` (R203). -/
def State.commitPage (s : State) : State := { s with flash := flashAfterCommit s.cfg s.addr s.buf s.flash }

/-- `UpdateAddrAfterPage()` (R205). -/
def State.updateAddrAfterPage (s : State) : State := { s with addr := addrAfterPage s.cfg s.addr }

/-- `BUF[i] <- data` (40_command_decoder.md R133). -/
def State.bufferByte (s : State) (i : Nat) (data : Byte) : State := { s with buf := s.buf.set i data }

/-- `MemWrite(EE, a, 1, data)` (R212). -/
def State.writeEe (s : State) (a : Nat) (data : Byte) : State := { s with ee := Memory.write s.ee a data }

/-- `ADDR <- (ADDR + 1) mod 2^16`, the decoder's own (00_scope.md R13; 10_state.md R34). -/
def State.advanceAddr (s : State) : State := { s with addr := nextAddr s.addr }

end Sys2Proof.Machine
end

