-- ==== Sys2Proof/Machine/ReadPath.lean ====
section
/-! DEFINITION. The read path of the command decoder (40_command_decoder.md section 2): for each read row its effect, the
byte to transmit with the state after it; the dispatch of R140 over them; and for each read row its meaning, the whole
`EV_TX_REQ` step where the read decoder selects that row. The read path has no reject (R146). -/

namespace Sys2Proof.Machine

/-- `READ_VERSION` (R141). -/
def readVersionEffect (s : State) : PathResult Byte := .answer (identityByte s.cfg s.rpos.toNat) s

/-- `READ_CHIPINFO` (R142). -/
def readChipinfoEffect (s : State) : PathResult Byte := .answer (chipInfoByte s.cfg s.rpos.toNat) s

/-- `READ_FLASH` (R143); the bootloader region is readable (42_memory_backend.md R209). -/
def readFlashEffect (s : State) : PathResult Byte :=
  match flashAddr s.cfg s.addr with
  | .error r => .raise r
  | .ok a => .answer (Memory.read s.flash a) s.advanceAddr

/-- `READ_EEPROM` (R144). -/
def readEepromEffect (s : State) : PathResult Byte :=
  match eeAddr s.cfg s.addr with
  | .error r => .raise r
  | .ok a => .answer (Memory.read s.ee a) s.advanceAddr

/-- `READ_FILLER` (R145). -/
def readFillerEffect (s : State) : PathResult Byte := .answer fillerByte s

/-- `ReadPath()` (R140), after the check for `CMD` = 7 that `onRequest` makes. -/
def readPath (s : State) : PathResult Byte :=
  match s.cmd with
  | .version => readVersionEffect s
  | .chipinfo => readChipinfoEffect s
  | .flash => readFlashEffect s
  | .eeprom => readEepromEffect s
  | _ => readFillerEffect s

/-! ### The read rows as instructions -/

/-- A read row run as an instruction: the `EV_TX_REQ` step in which the read path takes this row's effect, where the row's
condition holds; elsewhere the word is another row, and the step is not this one's. -/
def readRow (selected : State → Bool) (effect : State → PathResult Byte) (s : State) :
    Host.Outcome State Fault Refusal :=
  onRequest s fun s => if selected s then finishRequest (effect s) s else .refused .rowNotSelected

/-- `READ_VERSION` (R141). -/
def execReadVersion (s : State) : Host.Outcome State Fault Refusal :=
  readRow (fun s => s.cmd == .version) readVersionEffect s

/-- `READ_CHIPINFO` (R142). -/
def execReadChipinfo (s : State) : Host.Outcome State Fault Refusal :=
  readRow (fun s => s.cmd == .chipinfo) readChipinfoEffect s

/-- `READ_FLASH` (R143). -/
def execReadFlash (s : State) : Host.Outcome State Fault Refusal :=
  readRow (fun s => s.cmd == .flash) readFlashEffect s

/-- `READ_EEPROM` (R144). -/
def execReadEeprom (s : State) : Host.Outcome State Fault Refusal :=
  readRow (fun s => s.cmd == .eeprom) readEepromEffect s

/-- `READ_FILLER` (R145). -/
def execReadFiller (s : State) : Host.Outcome State Fault Refusal :=
  readRow (fun s => s.cmd == .wait || s.cmd == .memory || s.cmd == .bootApplication) readFillerEffect s

end Sys2Proof.Machine
end

