-- ==== Sys2Proof/Machine/WritePath.lean ====
section
/-! DEFINITION. The write path of the command decoder (40_command_decoder.md section 1): for each frame row its effect, the
acknowledge decision with the state after it; the dispatch of R120 over them; and for each frame row its meaning, the whole
`EV_RX` step where the frame decoder selects that row. -/

namespace Sys2Proof.Machine

/-! ### Position 0: the opcode byte -/

/-- A recognized opcode (R121): the countdown is cancelled, the Command set, the byte accepted. -/
def recognizedOpcode (cmd : Cmd) (s : State) : PathResult Ack := .answer .ack { s with ctr := 0, cmd := cmd }

/-- `OP_WAIT` (R122). -/
def opWaitEffect (s : State) : PathResult Ack := recognizedOpcode .wait s

/-- `OP_VERSION` (R123). -/
def opVersionEffect (s : State) : PathResult Ack := recognizedOpcode .version s

/-- `OP_MEMORY` (R124). -/
def opMemoryEffect (s : State) : PathResult Ack := recognizedOpcode .memory s

/-- `OP_UNKNOWN` (R125): an implicit immediate boot request; `CTR` is not written. -/
def opUnknownEffect (_data : Byte) (s : State) : PathResult Ack := .answer .nack { s with cmd := .bootApplication }

/-- `Pos0(data)` (R121). -/
def posZero (data : Byte) (s : State) : PathResult Ack :=
  if data = 0x00 then opWaitEffect s
  else if data = 0x01 then opVersionEffect s
  else if data = 0x02 then opMemoryEffect s
  else opUnknownEffect data s

/-! ### Position 1: boot type and memory kind -/

/-- `SWITCH_APP` (R126): 0x80 requests the boot; every boot type is rejected. -/
def switchAppEffect (data : Byte) (s : State) : PathResult Ack :=
  if data = 0x80 then .answer .nack { s with cmd := .bootApplication } else .answer .nack s

/-- `KIND_CHIPINFO` (R127). -/
def kindChipinfoEffect (s : State) : PathResult Ack := .answer .ack { s with cmd := .chipinfo }

/-- `KIND_FLASH` (R128). -/
def kindFlashEffect (s : State) : PathResult Ack := .answer .ack { s with cmd := .flash }

/-- `KIND_EEPROM` (R129): rejected on a configuration without data memory (42_memory_backend.md R213). -/
def kindEepromEffect (s : State) : PathResult Ack :=
  if s.cfg.eepromSupport then .answer .ack { s with cmd := .eeprom } else .answer .nack s

/-- `KIND_BAD` (R130). -/
def kindBadEffect (_data : Byte) (s : State) : PathResult Ack := .answer .nack s

/-- `POS1_OTHER` (R131). -/
def pos1OtherEffect (_data : Byte) (s : State) : PathResult Ack := .answer .nack s

/-- `Pos1(data)` (R126-R131). -/
def posOne (data : Byte) (s : State) : PathResult Ack :=
  match s.cmd with
  | .version => switchAppEffect data s
  | .memory =>
    if data = 0x00 then kindChipinfoEffect s
    else if data = 0x01 then kindFlashEffect s
    else if data = 0x02 then kindEepromEffect s
    else kindBadEffect data s
  | _ => pos1OtherEffect data s

/-! ### Positions 2 and 3: the address -/

/-- `ADDR_BYTE`, `PosAddr(data)` (R132). -/
def addrByteEffect (data : Byte) (s : State) : PathResult Ack :=
  if s.cmd = .chipinfo ∨ s.cmd = .flash ∨ s.cmd = .eeprom then
    .answer .ack { s with addr := shiftIn s.addr data }
  else .answer .nack s

/-! ### Positions 4 and up: the payload -/

/-- `WRITE_FLASH_BYTE` (R133). -/
def writeFlashByteEffect (data : Byte) (s : State) : PathResult Ack :=
  if s.cfg.pageSize ≤ s.pos - 4 then .raise .posBeyondPage
  else if s.pos - 4 = s.cfg.pageSize - 1 then
    .answer .nack ((s.bufferByte (s.pos - 4) data).commitPage.updateAddrAfterPage)
  else .answer .ack (s.bufferByte (s.pos - 4) data)

/-- `WRITE_EE_BYTE` (R134): the address check comes before the write. -/
def writeEeByteEffect (data : Byte) (s : State) : PathResult Ack :=
  match eeAddr s.cfg s.addr with
  | .error r => .raise r
  | .ok a => .answer .ack ((s.writeEe a data).advanceAddr)

/-- `WRITE_CHIPINFO_BYTE` (R135): never stored. -/
def writeChipinfoByteEffect (_data : Byte) (s : State) : PathResult Ack :=
  match s.cfg.chipinfoWritePayload with
  | .ackDiscard => .answer .ack s
  | .nack => .answer .nack s

/-- `PAYLOAD_OTHER` (R136). -/
def payloadOtherEffect (_data : Byte) (s : State) : PathResult Ack := .answer .nack s

/-- `PosPayload(data)` (R133-R136). -/
def posPayload (data : Byte) (s : State) : PathResult Ack :=
  match s.cmd with
  | .flash => writeFlashByteEffect data s
  | .eeprom => writeEeByteEffect data s
  | .chipinfo => writeChipinfoByteEffect data s
  | _ => payloadOtherEffect data s

/-- `WritePath(data)` (R120), after the check for `CMD` = 7 that `onReceive` makes. -/
def writePath (data : Byte) (s : State) : PathResult Ack :=
  match s.pos with
  | 0 => posZero data s
  | 1 => posOne data s
  | 2 => addrByteEffect data s
  | 3 => addrByteEffect data s
  | _ => posPayload data s

/-! ### The frame rows as instructions -/

/-- A frame row run as an instruction: the `EV_RX` step in which the write path takes this row's effect, where the row's
condition holds; elsewhere the word is another row, and the step is not this one's. -/
def frameRow (selected : State → Bool) (effect : State → PathResult Ack) (s : State) :
    Host.Outcome State Fault Refusal :=
  onReceive s fun s => if selected s then finishReceive (effect s) s else .refused .rowNotSelected

/-- `OP_WAIT` (R122). -/
def execOpWait (s : State) : Host.Outcome State Fault Refusal :=
  frameRow (fun s => s.pos == 0) opWaitEffect s

/-- `OP_VERSION` (R123). -/
def execOpVersion (s : State) : Host.Outcome State Fault Refusal :=
  frameRow (fun s => s.pos == 0) opVersionEffect s

/-- `OP_MEMORY` (R124). -/
def execOpMemory (s : State) : Host.Outcome State Fault Refusal :=
  frameRow (fun s => s.pos == 0) opMemoryEffect s

/-- `OP_UNKNOWN` (R125). -/
def execOpUnknown (data : Byte) (s : State) : Host.Outcome State Fault Refusal :=
  frameRow (fun s => s.pos == 0 && decide (unrecognizedByte data)) (opUnknownEffect data) s

/-- `SWITCH_APP` (R126). -/
def execSwitchApp (data : Byte) (s : State) : Host.Outcome State Fault Refusal :=
  frameRow (fun s => s.pos == 1 && s.cmd == .version) (switchAppEffect data) s

/-- `KIND_CHIPINFO` (R127). -/
def execKindChipinfo (s : State) : Host.Outcome State Fault Refusal :=
  frameRow (fun s => s.pos == 1 && s.cmd == .memory) kindChipinfoEffect s

/-- `KIND_FLASH` (R128). -/
def execKindFlash (s : State) : Host.Outcome State Fault Refusal :=
  frameRow (fun s => s.pos == 1 && s.cmd == .memory) kindFlashEffect s

/-- `KIND_EEPROM` (R129). -/
def execKindEeprom (s : State) : Host.Outcome State Fault Refusal :=
  frameRow (fun s => s.pos == 1 && s.cmd == .memory) kindEepromEffect s

/-- `KIND_BAD` (R130). -/
def execKindBad (data : Byte) (s : State) : Host.Outcome State Fault Refusal :=
  frameRow (fun s => s.pos == 1 && s.cmd == .memory && decide (unrecognizedByte data)) (kindBadEffect data) s

/-- `POS1_OTHER` (R131). -/
def execPos1Other (data : Byte) (s : State) : Host.Outcome State Fault Refusal :=
  frameRow (fun s => s.pos == 1 && s.cmd != .version && s.cmd != .memory) (pos1OtherEffect data) s

/-- `ADDR_BYTE` (R132). -/
def execAddrByte (data : Byte) (s : State) : Host.Outcome State Fault Refusal :=
  frameRow (fun s => s.pos == 2 || s.pos == 3) (addrByteEffect data) s

/-- `WRITE_FLASH_BYTE` (R133). -/
def execWriteFlashByte (data : Byte) (s : State) : Host.Outcome State Fault Refusal :=
  frameRow (fun s => decide (4 ≤ s.pos) && s.cmd == .flash) (writeFlashByteEffect data) s

/-- `WRITE_EE_BYTE` (R134). -/
def execWriteEeByte (data : Byte) (s : State) : Host.Outcome State Fault Refusal :=
  frameRow (fun s => decide (4 ≤ s.pos) && s.cmd == .eeprom) (writeEeByteEffect data) s

/-- `WRITE_CHIPINFO_BYTE` (R135). -/
def execWriteChipinfoByte (data : Byte) (s : State) : Host.Outcome State Fault Refusal :=
  frameRow (fun s => decide (4 ≤ s.pos) && s.cmd == .chipinfo) (writeChipinfoByteEffect data) s

/-- `PAYLOAD_OTHER` (R136). -/
def execPayloadOther (data : Byte) (s : State) : Host.Outcome State Fault Refusal :=
  frameRow (fun s => decide (4 ≤ s.pos) && s.cmd != .flash && s.cmd != .eeprom && s.cmd != .chipinfo)
    (payloadOtherEffect data) s

end Sys2Proof.Machine
end

