-- ==== Sys2Proof/Machine/Protocol.lean ====
section
/-! DEFINITION. The protocol state machine (41_protocol_fsm.md): one meaning per bus event, and the reserved event codes. -/

namespace Sys2Proof.Machine

/-- `EV_ADDR_W` (R171): an open transaction ends first (R176). -/
def execEvAddrW (s : State) : Host.Outcome State Fault Refusal :=
  agentStep s fun s => .next { s.endOpenTransaction with phase := .rx, pos := 0 }

/-- `EV_ADDR_R` (R172): an open transaction ends first (R176). -/
def execEvAddrR (s : State) : Host.Outcome State Fault Refusal :=
  agentStep s fun s => .next { s.endOpenTransaction with phase := .tx, rpos := 0 }

/-- `EV_RX` (R173). -/
def execEvRx (data : Byte) (s : State) : Host.Outcome State Fault Refusal :=
  onReceive s fun s => finishReceive (writePath data s) s

/-- `EV_TX_REQ` (R174). -/
def execEvTxReq (s : State) : Host.Outcome State Fault Refusal :=
  onRequest s fun s => finishRequest (readPath s) s

/-- `EV_STOP` (R175). -/
def execEvStop (s : State) : Host.Outcome State Fault Refusal :=
  agentStep s fun s => .next s.endTransaction

/-- `EV_BUS_ERROR` (R177): the bus-reset pulse, and the transaction is over. -/
def execEvBusError (s : State) : Host.Outcome State Fault Refusal :=
  agentStep s fun s => .next { s with out := { Outputs.quiet with busReset := true }, phase := .idle }

/-- A reserved event code (30_encoding.md R92). -/
def reservedEvent (s : State) : Host.Outcome State Fault Refusal :=
  agentStep s fun s => .next (s.raise .reservedEvent)

/-- `EV_RESERVED_7` (30_encoding.md R92). -/
def execEvReserved7 (s : State) : Host.Outcome State Fault Refusal := reservedEvent s

/-- `EV_RESERVED_8_F` (30_encoding.md R92). -/
def execEvReserved8F (s : State) : Host.Outcome State Fault Refusal := reservedEvent s

end Sys2Proof.Machine
end

