-- ==== Sys2Proof/Machine/Dispatch.lean ====
section
/-! DEFINITION. The dispatch: one arm per constructor of Instr, each a direct call of its meaning. -/

namespace Sys2Proof.Machine

def exec (i : Instr) (s : State) : Host.Outcome State Fault Refusal :=
  match i with
  -- bus and tick events
  | .evAddrW => Sys2Proof.Machine.execEvAddrW s
  | .evAddrR => Sys2Proof.Machine.execEvAddrR s
  | .evRx data => Sys2Proof.Machine.execEvRx data s
  | .evTxReq => Sys2Proof.Machine.execEvTxReq s
  | .evStop => Sys2Proof.Machine.execEvStop s
  | .evBusError => Sys2Proof.Machine.execEvBusError s
  | .evTick => Sys2Proof.Machine.execEvTick s
  | .evReserved7 => Sys2Proof.Machine.execEvReserved7 s
  | .evReserved8F => Sys2Proof.Machine.execEvReserved8F s
  -- the platform's step
  | .handOff => Sys2Proof.Machine.execHandOff s
  -- frame bytes
  | .opWait => Sys2Proof.Machine.execOpWait s
  | .opVersion => Sys2Proof.Machine.execOpVersion s
  | .opMemory => Sys2Proof.Machine.execOpMemory s
  | .opUnknown data => Sys2Proof.Machine.execOpUnknown data s
  | .switchApp data => Sys2Proof.Machine.execSwitchApp data s
  | .kindChipinfo => Sys2Proof.Machine.execKindChipinfo s
  | .kindFlash => Sys2Proof.Machine.execKindFlash s
  | .kindEeprom => Sys2Proof.Machine.execKindEeprom s
  | .kindBad data => Sys2Proof.Machine.execKindBad data s
  | .pos1Other data => Sys2Proof.Machine.execPos1Other data s
  | .addrByte data => Sys2Proof.Machine.execAddrByte data s
  | .writeFlashByte data => Sys2Proof.Machine.execWriteFlashByte data s
  | .writeEeByte data => Sys2Proof.Machine.execWriteEeByte data s
  | .writeChipinfoByte data => Sys2Proof.Machine.execWriteChipinfoByte data s
  | .payloadOther data => Sys2Proof.Machine.execPayloadOther data s
  -- read bytes
  | .readVersion => Sys2Proof.Machine.execReadVersion s
  | .readChipinfo => Sys2Proof.Machine.execReadChipinfo s
  | .readFlash => Sys2Proof.Machine.execReadFlash s
  | .readEeprom => Sys2Proof.Machine.execReadEeprom s
  | .readFiller => Sys2Proof.Machine.execReadFiller s

end Sys2Proof.Machine
end

