-- ==== Sys2Proof/Machine/Step.lean ====
section
/-! DEFINITION. One step of the machine: the next input's instruction, or the wait for one. -/

namespace Sys2Proof.Machine

/-- The next input item is taken and its instruction run (41_protocol_fsm.md R170); with no input the block waits
(70_reset_and_hazards.md R281). The order of the items is the environment's (60_exceptions.md R259). -/
def step (s : State) : Host.Outcome State Fault Refusal :=
  match fetch s with
  | none => waitForEvent s
  | some (i, t) => exec i t

/-- The state with an event word as its next input: all that the next step needs to run it (log 2). -/
def State.withFetchWord (s : State) (nbits w : Nat) : State :=
  { s with inputs := .event (BitVec.ofNat 12 (w % 2 ^ nbits)) :: s.inputs }

end Sys2Proof.Machine
end

