-- ==== Sys2Proof/Machine/Script.lean ====
section
/-! DEFINITION. Transaction scripts (30_encoding.md R106): the tokens of the wire table and the event words they expand to.
The pseudo-operations of R107 are lists of these tokens. -/

namespace Sys2Proof.Machine

/-- The tokens of a script (R106). `{n bytes}` is `receive n` after `R` and `send bytes` otherwise. -/
inductive Token where
  | w
  | r
  | byte (data : Byte)
  | receive (n : Nat)
  | send (bytes : List Byte)
  | sto
  deriving DecidableEq, Repr

/-- `EV_ADDR_W` as an input. -/
def addrWInput : Input := .event (eventWord 0x0 0x00)

/-- `EV_ADDR_R` as an input. -/
def addrRInput : Input := .event (eventWord 0x1 0x00)

/-- `EV_RX` of a byte as an input. -/
def rxInput (data : Byte) : Input := .event (eventWord 0x2 data)

/-- `EV_TX_REQ` as an input. -/
def txReqInput : Input := .event (eventWord 0x3 0x00)

/-- `EV_STOP` as an input. -/
def stopInput : Input := .event (eventWord 0x4 0x00)

/-- `EV_BUS_ERROR` as an input. -/
def busErrorInput : Input := .event (eventWord 0x5 0x00)

/-- `EV_TICK` as an input. -/
def tickInput : Input := .event (eventWord 0x6 0x00)

/-- The expansion of R106. `sent` says whether a `byte` or `send` token stands since the last `w`, `r` or `sto`: then
`R` is a repeated start and expands to `EV_STOP`, `EV_ADDR_R`. DEDUCED (log 9), safe: after `STO` no transaction is open, so
`R` is `EV_ADDR_R` alone, as at a script's start. DESIGN CHOICE (log 14), safe: `R` directly after `W`, and a second `R` after
host-read bytes without `STO` between, are `EV_ADDR_R` alone; an empty run (`send []`) counts as sent, so `R` after it is
`EV_STOP`, `EV_ADDR_R`; a run to be read leaves `sent` as it is; a byte, `receive` or `send` is its events wherever it
stands. -/
def expandFrom : Bool → List Token → List Input
  | _, [] => []
  | _, .w :: ts => addrWInput :: expandFrom false ts
  | true, .r :: ts => stopInput :: addrRInput :: expandFrom false ts
  | false, .r :: ts => addrRInput :: expandFrom false ts
  | _, .byte data :: ts => rxInput data :: expandFrom true ts
  | sent, .receive n :: ts => List.replicate n txReqInput ++ expandFrom sent ts
  | _, .send bytes :: ts => bytes.map rxInput ++ expandFrom true ts
  | _, .sto :: ts => stopInput :: expandFrom false ts

/-- A script's input words. -/
def expand (script : List Token) : List Input := expandFrom false script

/-- "Cancel boot timeout" (R107). -/
def cancelTimeoutScript : List Token := [.w, .byte 0x00, .sto]

/-- "Read identity" (R107), `n` bytes. -/
def readIdentityScript (n : Nat) : List Token := [.w, .byte 0x01, .r, .receive n, .sto]

/-- "Boot application now" (R107). -/
def bootNowScript : List Token := [.w, .byte 0x01, .byte 0x80, .sto]

/-- "Request re-enter bootloader (app build only)" (R107): no effect in this block. -/
def reenterScript : List Token := [.w, .byte 0x01, .byte 0x00, .sto]

/-- "Read chip info" (R107), `n` bytes. -/
def readChipInfoScript (n : Nat) : List Token := [.w, .byte 0x02, .byte 0x00, .r, .receive n, .sto]

/-- "Read program memory" (R107), `n` bytes. -/
def readFlashScript (hi lo : Byte) (n : Nat) : List Token :=
  [.w, .byte 0x02, .byte 0x01, .byte hi, .byte lo, .r, .receive n, .sto]

/-- "Read data memory" (R107), `n` bytes. -/
def readEeScript (hi lo : Byte) (n : Nat) : List Token :=
  [.w, .byte 0x02, .byte 0x02, .byte hi, .byte lo, .r, .receive n, .sto]

/-- "Write one program-memory page" (R107). -/
def writePageScript (hi lo : Byte) (page : List Byte) : List Token :=
  [.w, .byte 0x02, .byte 0x01, .byte hi, .byte lo, .send page, .sto]

/-- "Write data memory" (R107). -/
def writeEeScript (hi lo : Byte) (bytes : List Byte) : List Token :=
  [.w, .byte 0x02, .byte 0x02, .byte hi, .byte lo, .send bytes, .sto]

end Sys2Proof.Machine
end

