-- ==== Sys2Proof/Safety.lean ====
section
/-! DEFINITION. The terms claims are made in: when agents have steps, the invariant of the block, the end of a run
(41_protocol_fsm.md R184), the outputs of a run, and the fairness assumptions of 43_boot_arbiter.md R241. -/

namespace Sys2Proof.Machine

/-- The agents have steps: the parameters are legal, no model fault is recorded and the platform has not taken over
(60_exceptions.md R256, 43_boot_arbiter.md R242). -/
abbrev State.Ready (s : State) : Prop := s.cfg.wf ∧ s.faults = [] ∧ s.handedOff = false

/-- The block is receiving a frame under a Command that a rule has written: an `EV_RX` reaches the write path. -/
abbrev State.Receiving (s : State) : Prop := s.Ready ∧ s.phase = .rx ∧ s.cmd ≠ .unreachable

/-- The block is transmitting under a Command that a rule has written: an `EV_TX_REQ` reaches the read path. -/
abbrev State.Transmitting (s : State) : Prop := s.Ready ∧ s.phase = .tx ∧ s.cmd ≠ .unreachable

/-- The next state of an outcome, where there is one. -/
def nextState : Host.Outcome State Fault Refusal → Option State
  | .next t => some t
  | .fault _ => none
  | .refused _ => none

/-- What holds in every state of a run (10_state.md section 10, R33, R36, R39, R40; 20_memory.md R60): the parameters are
legal, the coded registers hold written values, the counters fit, the buffer is one page, the memories are canonical and
inside their arrays, the Command fits the position, and the countdown is cancelled once an opcode was recognized. -/
structure State.Inv (s : State) : Prop where
  cfgLegal : s.cfg.wf
  cmdWritten : s.cmd ≠ .unreachable
  phaseWritten : s.phase ≠ .unwritten
  posFits : s.pos < 2 ^ s.cfg.posWidth
  ctrBound : s.ctr ≤ s.cfg.t0
  bufLength : s.buf.length = s.cfg.pageSize
  flashWf : Memory.wf s.flash
  flashWithin : Memory.within s.cfg.flashSize s.flash
  eeWf : Memory.wf s.ee
  eeWithin : Memory.within s.cfg.eeSize s.ee
  eepromSupported : s.cmd = .eeprom → s.cfg.eepromSupport = true
  pageFrame : s.cmd = .flash → s.pos < s.cfg.pageSize + 4
  argCommand : s.pos = 1 → s.cmd = .wait ∨ s.cmd = .version ∨ s.cmd = .memory
  operandCommand : 2 ≤ s.pos → s.cmd = .chipinfo ∨ s.cmd = .flash ∨ s.cmd = .eeprom
  countdownCancelled : (s.pos ≠ 0 ∨ (s.cmd ≠ .wait ∧ s.cmd ≠ .bootApplication)) → s.ctr = 0
  oneFault : s.faults.length ≤ 1

/-- How a run stands (41_protocol_fsm.md R184). -/
inductive RunEnd where
  | handedOff
  | faulted
  | serving
  deriving DecidableEq, Repr

/-- The end of a run that a state shows (41_protocol_fsm.md R184). -/
def State.runEnd (s : State) : RunEnd :=
  if s.faults ≠ [] then .faulted else if s.handedOff then .handedOff else .serving

/-- `n` steps with the outputs of each, in order (the observation of 41_protocol_fsm.md R184); nothing where a step has no
next state. -/
def observe : Nat → State → Option (State × List Outputs)
  | 0, s => some (s, [])
  | n + 1, s =>
    match step s with
    | .next t => (observe n t).map fun r => (r.1, t.out :: r.2)
    | .fault _ => none
    | .refused _ => none

/-- A script run from a state: its expansion becomes the input, and every item of it is taken. -/
def runScript (script : List Token) (s : State) : Option (State × List Outputs) :=
  observe (expand script).length { s with inputs := expand script }

/-- The `ack` outputs of an observation, in order. -/
def acks (outs : List Outputs) : List Ack := outs.filterMap Outputs.ack

/-- The `txd` outputs of an observation, in order. -/
def txds (outs : List Outputs) : List Byte := outs.filterMap Outputs.txd

/-- An endless run: at each moment the environment offers one item; it is a step, or no agent has that step and the state
stands. -/
def IsRun (states : Nat → State) (items : Nat → Input) : Prop :=
  ∀ n, exec (decodeInput (items n)) (states n) = .next (states (n + 1)) ∨
    (nextState (exec (decodeInput (items n)) (states n)) = none ∧ states (n + 1) = states n)

/-- The tick agent is weakly fair (43_boot_arbiter.md R241, first assumption). -/
def TickFair (states : Nat → State) (items : Nat → Input) : Prop :=
  ∀ n, (∀ m, n ≤ m → (states m).handedOff = false ∧ (states m).faults = []) →
    ∃ m, n ≤ m ∧ decodeInput (items m) = .evTick

/-- The platform agent is weakly fair (43_boot_arbiter.md R241, second assumption). -/
def HandOffFair (states : Nat → State) : Prop :=
  ∀ n, (∀ m, n ≤ m → (states m).bootNow = true ∧ (states m).faults = []) → ∃ m, n ≤ m ∧ (states m).handedOff = true

end Sys2Proof.Machine
end

