-- ==== Sys2Proof/Certificates/Slice0/Obligations.lean ====
section
/-! DEFINITION. The statements for the provers: what each row of the opcode table does, what it leaves unchanged, and what
holds of the whole block, each from the numbered rules of spec/. A statement over all states is a statement over all
configurations, since a state carries its parameters (00_scope.md R7). -/

open Sys2Proof Sys2Proof.Machine

/-! ### Steps, words and decoders -/

/-- A step is exec of the next input's instruction on the state with that input taken; with no input the block waits, its
state unchanged (30_encoding.md R90, 41_protocol_fsm.md R170, 70_reset_and_hazards.md R281; the input list is log 2). -/
def Obligations.StepRunsNextInput : Prop :=
  (∀ (s : State) (i : Input) (rest : List Input), s.inputs = i :: rest → step s = exec (decodeInput i) { s with inputs := rest }) ∧
  (∀ w, decodeInput (.event w) = decodeEvent w) ∧ decodeInput .handOff = .handOff ∧
  (∀ s : State, s.Ready → s.inputs = [] → step s = .next s)

/-- A step also is exec of the finest row that the event, frame and read decoders select for the word at the Command and
position of the state (30_encoding.md R94, R101; 40_command_decoder.md R120, R140). -/
def Obligations.StepRunsSelectedRow : Prop :=
  ∀ (s : State) (w : EventWord) (rest : List Input) (i : Instr), s.inputs = .event w :: rest → decodeRow s.cmd s.pos w = .ok i →
    step s = exec i { s with inputs := rest }

/-- A few words written out from the spec's encodings read as the rows they stand for (30_encoding.md R91, R96-R98, R94,
R101). -/
def Obligations.SampleWordsDecode : Prop :=
  decodeEvent 0b000000000000 = .evAddrW ∧ decodeEvent 0b000111111111 = .evAddrR ∧
  decodeEvent 0b001010101011 = .evRx 0xAB ∧ decodeEvent 0b001100000000 = .evTxReq ∧
  decodeEvent 0b010000000000 = .evStop ∧ decodeEvent 0b010100000000 = .evBusError ∧
  decodeEvent 0b011000000000 = .evTick ∧ decodeEvent 0b011100000000 = .evReserved7 ∧
  decodeEvent 0b111101010101 = .evReserved8F ∧
  decodeRow .bootApplication 0 0b001000000001 = .ok .opVersion ∧
  decodeRow .wait 0 0b001000000101 = .ok (.opUnknown 0x05) ∧
  decodeRow .version 1 0b001010000000 = .ok (.switchApp 0x80) ∧
  decodeRow .memory 1 0b001000000010 = .ok .kindEeprom ∧
  decodeRow .wait 1 0b001000010001 = .ok (.pos1Other 0x11) ∧
  decodeRow .flash 3 0b001000110100 = .ok (.addrByte 0x34) ∧
  decodeRow .flash 4 0b001000000000 = .ok (.writeFlashByte 0x00) ∧
  decodeRow .eeprom 200 0b001010101010 = .ok (.writeEeByte 0xAA) ∧
  decodeRow .chipinfo 4 0b001001011010 = .ok (.writeChipinfoByte 0x5A) ∧
  decodeRow .chipinfo 0 0b001100000000 = .ok .readChipinfo ∧
  decodeRow .memory 9 0b001100000000 = .ok .readFiller

/-- 30_encoding.md R93: the data byte matters to `EV_RX` only; a step with any other data byte is the same step, and an
encoded word has 0x00 there. -/
def Obligations.DataByteReadByRxOnly : Prop :=
  (∀ (s : State) (rest : List Input) (w w' : EventWord), eventCode w = eventCode w' → eventCode w ≠ 0x2 →
    step { s with inputs := .event w :: rest } = step { s with inputs := .event w' :: rest }) ∧
  (∀ i w, encode i = some w → eventCode w ≠ 0x2 → eventData w = 0x00)

/-- Decode of encode is the instruction: for every well-formed row, with every data byte, wherever its condition holds; and
the two words' own rows at the event level (30_encoding.md R90-R98; 40_command_decoder.md R120, R140). -/
def Obligations.DecodeOfEncode : Prop :=
  (∀ i cmd pos w, i.wf = true → i.selectedAt cmd pos = true → encode i = some w → decodeRow cmd pos w = .ok i) ∧
  (∀ data w, encode (.evRx data) = some w → decodeEvent w = .evRx data) ∧
  (∀ w, encode .evTxReq = some w → decodeEvent w = .evTxReq) ∧
  (∀ i, encode i = none ↔ i = .handOff)

/-- What the decoders answer is well formed, stands where its condition holds, and, for a received byte, is delivered by no
other word; under every Command that a rule writes they answer (30_encoding.md R94, R105). -/
def Obligations.DecodedRowIsSelected : Prop :=
  (∀ cmd pos w i, decodeRow cmd pos w = .ok i →
    i.wf = true ∧ i.selectedAt cmd pos = true ∧ (eventCode w = 0x2 → encode i = some w)) ∧
  (∀ cmd pos w, cmd ≠ .unreachable → ∃ i, decodeRow cmd pos w = .ok i)

/-! ### Bus events -/

/-- 41_protocol_fsm.md R171, R172: an addressing event opens a transaction in every phase and clears the position that the
transaction uses; nothing else changes. -/
def Obligations.AddressingOpensTransaction : Prop :=
  ∀ s : State, s.Ready →
    exec .evAddrW s = .next { s with phase := .rx, pos := 0, out := Outputs.quiet } ∧
    exec .evAddrR s = .next { s with phase := .tx, rpos := 0, out := Outputs.quiet }

/-- 41_protocol_fsm.md R175: a transaction end writes `PHASE` only. -/
def Obligations.StopEndsTransaction : Prop :=
  ∀ s : State, s.Ready → exec .evStop s = .next { s with phase := .idle, out := Outputs.quiet }

/-- 41_protocol_fsm.md R176: an addressing event without a stop before it gives what the stop and the addressing event
give. -/
def Obligations.RepeatedAddressingIsStopFirst : Prop :=
  ∀ s t, exec .evStop s = .next t → exec .evAddrW s = exec .evAddrW t ∧ exec .evAddrR s = exec .evAddrR t

/-- 41_protocol_fsm.md R177: a bus error pulses `bus_reset` and ends the transaction; no register changes. -/
def Obligations.BusErrorPulsesReset : Prop :=
  ∀ s : State, s.Ready →
    exec .evBusError s = .next { s with phase := .idle, out := { ack := none, txd := none, busReset := true } }

/-- 30_encoding.md R92: a reserved event code records `RESERVED_EVENT` and changes no other state. -/
def Obligations.ReservedEventRecorded : Prop :=
  (∀ s : State, s.Ready →
    exec .evReserved7 s = .next { s with faults := [.reservedEvent], out := Outputs.quiet } ∧
    exec .evReserved8F s = .next { s with faults := [.reservedEvent], out := Outputs.quiet }) ∧
  (∀ w, 7 ≤ (eventCode w).toNat ↔ decodeEvent w = .evReserved7 ∨ decodeEvent w = .evReserved8F)

/-- 41_protocol_fsm.md R178: an event out of its phase records `OUT_OF_PHASE_EVENT` and changes no other state. -/
def Obligations.OutOfPhaseRecorded : Prop :=
  ∀ s : State, s.Ready →
    (∀ data, s.phase ≠ .rx →
      exec (.evRx data) s = .next { s with faults := [.outOfPhaseEvent], out := Outputs.quiet }) ∧
    (s.phase ≠ .tx → exec .evTxReq s = .next { s with faults := [.outOfPhaseEvent], out := Outputs.quiet })

/-- 10_state.md R33 and 60_exceptions.md R257: where `CMD` = 7 is read, by a received or a requested byte in its phase, the
model fault is recorded and nothing else changes; the phase check comes first. -/
def Obligations.UnreachableCommandRecorded : Prop :=
  ∀ s : State, s.Ready → s.cmd = .unreachable →
    (∀ data, exec (.evRx data) s = .next { s with
      faults := [if s.phase = .rx then .cmdUnreachable else .outOfPhaseEvent], out := Outputs.quiet }) ∧
    exec .evTxReq s = .next { s with
      faults := [if s.phase = .tx then .cmdUnreachable else .outOfPhaseEvent], out := Outputs.quiet }

/-- 40_command_decoder.md R120, R137; 41_protocol_fsm.md R173: a received byte is answered with exactly one decision, and
`POS` follows it, wherever the write path raises no fault. -/
def Obligations.ReceivedByteAnswered : Prop :=
  ∀ (s : State) (data : Byte), s.Receiving → (s.cmd = .flash → s.pos < s.cfg.pageSize + 4) →
    (s.cmd = .eeprom → 4 ≤ s.pos → s.addr.toNat < s.cfg.eeSize ∨ s.cfg.eeOor = .wrap) →
    ∃ a t, exec (.evRx data) s = .next t ∧ t.out = { ack := some a, txd := none, busReset := false } ∧
      t.faults = [] ∧ t.phase = .rx ∧
      t.pos = match a with
        | .nack => 0
        | .ack => match s.cfg.posOverflow with
          | .saturate => min (s.pos + 1) (2 ^ s.cfg.posWidth - 1)
          | .wrap => (s.pos + 1) % 2 ^ s.cfg.posWidth

/-- 40_command_decoder.md R140, R146; 41_protocol_fsm.md R174: a requested byte is always answered, `RPOS` advances modulo
256, and `CMD`, `POS` and `CTR` are not written, wherever the address check raises no fault. -/
def Obligations.RequestedByteAnswered : Prop :=
  ∀ s : State, s.Transmitting →
    (s.cmd = .flash → s.addr.toNat < s.cfg.flashSize ∨ s.cfg.flashOor = .wrap) →
    (s.cmd = .eeprom → s.addr.toNat < s.cfg.eeSize ∨ s.cfg.eeOor = .wrap) →
    ∃ v t, exec .evTxReq s = .next t ∧ t.out = { ack := none, txd := some v, busReset := false } ∧
      t.faults = [] ∧ t.rpos.toNat = (s.rpos.toNat + 1) % 256 ∧ t.cmd = s.cmd ∧ t.pos = s.pos ∧ t.ctr = s.ctr ∧
      t.phase = .tx

/-- 40_command_decoder.md R120, R140: `EV_RX` is the frame row that position and Command select, and `EV_TX_REQ` the read
row that the Command selects, in every state. -/
def Obligations.EventIsItsRow : Prop :=
  (∀ s data i, decodeFrame s.cmd s.pos data = .ok i → exec (.evRx data) s = exec i s) ∧
  (∀ s i, decodeRead s.cmd = .ok i → exec .evTxReq s = exec i s)

/-! ### Frame bytes -/

/-- 40_command_decoder.md R121-R124: a recognized opcode cancels the countdown, sets the Command and is accepted. -/
def Obligations.RecognizedOpcode : Prop :=
  ∀ s : State, s.Receiving → s.pos = 0 →
    exec .opWait s = .next { s with
      ctr := 0, cmd := .wait, pos := 1, out := { ack := some .ack, txd := none, busReset := false } } ∧
    exec .opVersion s = .next { s with
      ctr := 0, cmd := .version, pos := 1, out := { ack := some .ack, txd := none, busReset := false } } ∧
    exec .opMemory s = .next { s with
      ctr := 0, cmd := .memory, pos := 1, out := { ack := some .ack, txd := none, busReset := false } }

/-- 40_command_decoder.md R125: an unknown opcode is rejected and requests the boot; `CTR` is not written. -/
def Obligations.UnknownOpcodeRequestsBoot : Prop :=
  ∀ (s : State) (data : Byte), s.Receiving → s.pos = 0 → 3 ≤ data.toNat →
    exec (.opUnknown data) s = .next { s with
      cmd := .bootApplication, pos := 0, out := { ack := some .nack, txd := none, busReset := false } }

/-- 40_command_decoder.md R126: the boot type 0x80 requests the boot, every other leaves the Command, and each is rejected. -/
def Obligations.BootType : Prop :=
  ∀ (s : State) (data : Byte), s.Receiving → s.pos = 1 → s.cmd = .version →
    exec (.switchApp data) s = .next { s with
      cmd := if data = 0x80 then .bootApplication else .version,
      pos := 0, out := { ack := some .nack, txd := none, busReset := false } }

/-- 40_command_decoder.md R127-R129: the memory kinds refine the Command; the data-memory kind is rejected on a
configuration without data memory. -/
def Obligations.MemoryKind : Prop :=
  ∀ s : State, s.Receiving → s.pos = 1 → s.cmd = .memory →
    exec .kindChipinfo s = .next { s with
      cmd := .chipinfo, pos := 2, out := { ack := some .ack, txd := none, busReset := false } } ∧
    exec .kindFlash s = .next { s with
      cmd := .flash, pos := 2, out := { ack := some .ack, txd := none, busReset := false } } ∧
    (s.cfg.eepromSupport = true → exec .kindEeprom s = .next { s with
      cmd := .eeprom, pos := 2, out := { ack := some .ack, txd := none, busReset := false } }) ∧
    (s.cfg.eepromSupport = false → exec .kindEeprom s = .next { s with
      cmd := .memory, pos := 0, out := { ack := some .nack, txd := none, busReset := false } })

/-- 40_command_decoder.md R130, R131, R136: a byte with no meaning at its position is rejected and nothing but `POS` is
written. -/
def Obligations.MeaninglessByteRejected : Prop :=
  ∀ (s : State) (data : Byte), s.Receiving →
    (s.pos = 1 → s.cmd = .memory → 3 ≤ data.toNat → exec (.kindBad data) s = .next { s with
      pos := 0, out := { ack := some .nack, txd := none, busReset := false } }) ∧
    (s.pos = 1 → s.cmd ≠ .memory → s.cmd ≠ .version → exec (.pos1Other data) s = .next { s with
      pos := 0, out := { ack := some .nack, txd := none, busReset := false } }) ∧
    (4 ≤ s.pos → s.cmd ≠ .flash → s.cmd ≠ .eeprom → s.cmd ≠ .chipinfo → exec (.payloadOther data) s = .next { s with
      pos := 0, out := { ack := some .nack, txd := none, busReset := false } })

/-- 40_command_decoder.md R132: an address byte is shifted in at the low end under the three Commands that take an address,
and rejected under the others. -/
def Obligations.AddressByte : Prop :=
  ∀ (s : State) (data : Byte), s.Receiving → (s.pos = 2 ∨ s.pos = 3) →
    ((s.cmd = .chipinfo ∨ s.cmd = .flash ∨ s.cmd = .eeprom) → exec (.addrByte data) s = .next { s with
      addr := BitVec.ofNat 16 (s.addr.toNat * 256 + data.toNat), pos := s.pos + 1,
      out := { ack := some .ack, txd := none, busReset := false } }) ∧
    (¬ (s.cmd = .chipinfo ∨ s.cmd = .flash ∨ s.cmd = .eeprom) → exec (.addrByte data) s = .next { s with
      pos := 0, out := { ack := some .nack, txd := none, busReset := false } })

/-- 30_encoding.md R99: after both address bytes the Address is `addr_hi * 256 + addr_lo`, whatever it held before. -/
def Obligations.AddressAssembled : Prop :=
  ∀ (s : State) (hi lo : Byte), s.Receiving → s.pos = 2 → (s.cmd = .chipinfo ∨ s.cmd = .flash ∨ s.cmd = .eeprom) →
    ∃ t u, exec (.evRx hi) s = .next t ∧ exec (.evRx lo) t = .next u ∧
      u.addr.toNat = hi.toNat * 256 + lo.toNat ∧ u.pos = 4 ∧ u.cmd = s.cmd

/-- 40_command_decoder.md R133 before the last byte of a page: the byte is buffered and accepted, `ADDR` and both memories
stand; beyond the page (unreachable) the model fault is recorded. -/
def Obligations.FlashByteBuffered : Prop :=
  ∀ (s : State) (data : Byte), s.Receiving → s.cmd = .flash → 4 ≤ s.pos →
    (s.pos < s.cfg.pageSize + 3 → exec (.writeFlashByte data) s = .next { s with
      buf := s.buf.set (s.pos - 4) data, pos := s.pos + 1,
      out := { ack := some .ack, txd := none, busReset := false } }) ∧
    (s.cfg.pageSize + 4 ≤ s.pos → exec (.writeFlashByte data) s =
      .next { s with faults := [.posBeyondPage], out := Outputs.quiet })

/-- 40_command_decoder.md R133 with 42_memory_backend.md R201-R205 at the last byte of a page: the whole page containing
`ADDR` becomes the buffer's bytes, each at its slot, if the page lies below `BOOT_START`; else program memory stands. The
byte is rejected either way, `ADDR` follows `FLASH_WRITE_ADDR`, and no other byte or register changes. -/
def Obligations.LastFlashByteCommits : Prop :=
  ∀ (s : State) (data : Byte), s.Receiving → s.cmd = .flash → s.pos = s.cfg.pageSize + 3 →
    s.buf.length = s.cfg.pageSize → Memory.wf s.flash →
    ∃ t, exec (.writeFlashByte data) s = .next t ∧
      t.buf = s.buf.set (s.cfg.pageSize - 1) data ∧ t.buf[s.cfg.pageSize - 1]? = some data ∧
      (s.addr.toNat < s.cfg.bootStart → ∀ i < s.cfg.pageSize,
        some (Memory.read t.flash (s.addr.toNat - s.addr.toNat % s.cfg.pageSize +
          (match s.cfg.fillMap with
            | .linear => i
            | .rotated => (s.addr.toNat + i) % s.cfg.pageSize))) = t.buf[i]?) ∧
      (∀ a, (s.cfg.bootStart ≤ s.addr.toNat ∨ a < s.addr.toNat - s.addr.toNat % s.cfg.pageSize ∨
          s.addr.toNat - s.addr.toNat % s.cfg.pageSize + s.cfg.pageSize ≤ a) →
        Memory.read t.flash a = Memory.read s.flash a) ∧
      t.addr.toNat = (match s.cfg.flashWriteAddr with
        | .hold => s.addr.toNat
        | .pageOnCommit => (s.addr.toNat + s.cfg.pageSize) % 65536
        | .pageOnWrite =>
          if s.addr.toNat < s.cfg.bootStart then (s.addr.toNat + s.cfg.pageSize) % 65536 else s.addr.toNat) ∧
      t = { s with
        buf := t.buf, flash := t.flash, addr := t.addr, pos := 0,
        out := { ack := some .nack, txd := none, busReset := false } }

/-- 40_command_decoder.md R134 with 42_memory_backend.md R210, R212: a data-memory byte is written at `ADDR` (modulo the
size under `WRAP`), `ADDR` advances modulo 2^16, the byte is accepted, and no other byte or register changes. -/
def Obligations.EeByteWritten : Prop :=
  ∀ (s : State) (data : Byte) (index : Nat), s.Receiving → s.cmd = .eeprom → 4 ≤ s.pos → Memory.wf s.ee →
    (s.addr.toNat < s.cfg.eeSize ∧ index = s.addr.toNat ∨
      s.cfg.eeSize ≤ s.addr.toNat ∧ s.cfg.eeOor = .wrap ∧ index = s.addr.toNat % s.cfg.eeSize) →
    ∃ t, exec (.writeEeByte data) s = .next t ∧ Memory.read t.ee index = data ∧
      (∀ a, a ≠ index → Memory.read t.ee a = Memory.read s.ee a) ∧
      t.addr.toNat = (s.addr.toNat + 1) % 65536 ∧
      t.pos = (match s.cfg.posOverflow with
        | .saturate => min (s.pos + 1) (2 ^ s.cfg.posWidth - 1)
        | .wrap => (s.pos + 1) % 2 ^ s.cfg.posWidth) ∧
      t = { s with
        ee := t.ee, addr := t.addr, pos := t.pos, out := { ack := some .ack, txd := none, busReset := false } }

/-- 42_memory_backend.md R210 under `EE_OOR` = `FAULT`: a data-memory access at or beyond `EE_SIZE` records
`EE_OUT_OF_RANGE` before any write. -/
def Obligations.EeOutOfRangeRecorded : Prop :=
  ∀ s : State, s.cmd = .eeprom → s.cfg.eeSize ≤ s.addr.toNat → s.cfg.eeOor = .fault →
    (∀ data, s.Receiving → 4 ≤ s.pos →
      exec (.writeEeByte data) s = .next { s with faults := [.eeOutOfRange], out := Outputs.quiet }) ∧
    (s.Transmitting → exec .readEeprom s = .next { s with faults := [.eeOutOfRange], out := Outputs.quiet })

/-- 40_command_decoder.md R135: a chip-info payload byte is never stored; it is accepted under `ACK_DISCARD` and rejected
under `NACK`. -/
def Obligations.ChipinfoPayloadDiscarded : Prop :=
  ∀ (s : State) (data : Byte), s.Receiving → s.cmd = .chipinfo → 4 ≤ s.pos →
    (s.cfg.chipinfoWritePayload = .ackDiscard → exec (.writeChipinfoByte data) s = .next { s with
      pos := (match s.cfg.posOverflow with
        | .saturate => min (s.pos + 1) (2 ^ s.cfg.posWidth - 1)
        | .wrap => (s.pos + 1) % 2 ^ s.cfg.posWidth),
      out := { ack := some .ack, txd := none, busReset := false } }) ∧
    (s.cfg.chipinfoWritePayload = .nack → exec (.writeChipinfoByte data) s = .next { s with
      pos := 0, out := { ack := some .nack, txd := none, busReset := false } })

/-! ### Read bytes -/

/-- 40_command_decoder.md R141: the identity byte at `RPOS` modulo `ID_LEN`. -/
def Obligations.IdentityByteRead : Prop :=
  ∀ s : State, s.Transmitting → s.cmd = .version →
    ∃ v, s.cfg.ident[s.rpos.toNat % s.cfg.ident.length]? = some v ∧
      exec .readVersion s = .next { s with
        rpos := s.rpos + 1, out := { ack := none, txd := some v, busReset := false } }

/-- 40_command_decoder.md R142 with the record of 30_encoding.md R104: the chip-info byte at `RPOS` modulo 8. -/
def Obligations.ChipInfoByteRead : Prop :=
  ∀ s : State, s.Transmitting → s.cmd = .chipinfo →
    ∃ v : Byte,
      (match s.rpos.toNat % 8 with
        | 0 => v = s.cfg.sig0
        | 1 => v = s.cfg.sig1
        | 2 => v = s.cfg.sig2
        | 3 => v.toNat = s.cfg.pageSize
        | 4 => v.toNat = s.cfg.bootStart / 256
        | 5 => v.toNat = s.cfg.bootStart % 256
        | 6 => v.toNat = if s.cfg.eepromSupport then s.cfg.eeSize / 256 else 0
        | _ => v.toNat = if s.cfg.eepromSupport then s.cfg.eeSize % 256 else 0) ∧
      exec .readChipinfo s = .next { s with
        rpos := s.rpos + 1, out := { ack := none, txd := some v, busReset := false } }

/-- 40_command_decoder.md R143 with 42_memory_backend.md R208, R209: the program-memory byte at `ADDR`, which advances; at
or beyond `FLASH_SIZE` the address wraps or the model fault is recorded. -/
def Obligations.FlashByteRead : Prop :=
  ∀ s : State, s.Transmitting → s.cmd = .flash →
    (s.addr.toNat < s.cfg.flashSize → exec .readFlash s = .next { s with
      addr := s.addr + 1, rpos := s.rpos + 1,
      out := { ack := none, txd := some (Memory.read s.flash s.addr.toNat), busReset := false } }) ∧
    (s.cfg.flashSize ≤ s.addr.toNat → s.cfg.flashOor = .wrap → exec .readFlash s = .next { s with
      addr := s.addr + 1, rpos := s.rpos + 1,
      out := {
        ack := none, txd := some (Memory.read s.flash (s.addr.toNat % s.cfg.flashSize)), busReset := false } }) ∧
    (s.cfg.flashSize ≤ s.addr.toNat → s.cfg.flashOor = .fault → exec .readFlash s =
      .next { s with faults := [.flashOutOfRange], out := Outputs.quiet })

/-- 40_command_decoder.md R144 with 42_memory_backend.md R210, R211: the data-memory byte at `ADDR`, which advances; at or
beyond `EE_SIZE` the address wraps under `WRAP`. -/
def Obligations.EeByteRead : Prop :=
  ∀ s : State, s.Transmitting → s.cmd = .eeprom →
    (s.addr.toNat < s.cfg.eeSize → exec .readEeprom s = .next { s with
      addr := s.addr + 1, rpos := s.rpos + 1,
      out := { ack := none, txd := some (Memory.read s.ee s.addr.toNat), busReset := false } }) ∧
    (s.cfg.eeSize ≤ s.addr.toNat → s.cfg.eeOor = .wrap → exec .readEeprom s = .next { s with
      addr := s.addr + 1, rpos := s.rpos + 1,
      out := { ack := none, txd := some (Memory.read s.ee (s.addr.toNat % s.cfg.eeSize)), busReset := false } })

/-- 40_command_decoder.md R145: the filler byte 0xFF under `WAIT`, `MEMORY` and `BOOT_APPLICATION`. -/
def Obligations.FillerByteRead : Prop :=
  ∀ s : State, s.Transmitting → (s.cmd = .wait ∨ s.cmd = .memory ∨ s.cmd = .bootApplication) →
    exec .readFiller s = .next { s with
      rpos := s.rpos + 1, out := { ack := none, txd := some 0xFF, busReset := false } }

/-! ### The boot arbiter and the platform -/

/-- 43_boot_arbiter.md R231: above 1 a tick counts down, at 1 it forces the boot and `CTR` stays 1, at 0 it changes
nothing. -/
def Obligations.TickCountsDown : Prop :=
  ∀ s : State, s.Ready →
    (1 < s.ctr → exec .evTick s = .next { s with ctr := s.ctr - 1, out := Outputs.quiet }) ∧
    (s.ctr = 1 → exec .evTick s = .next { s with cmd := .bootApplication, out := Outputs.quiet }) ∧
    (s.ctr = 0 → exec .evTick s = .next { s with out := Outputs.quiet })

/-- 43_boot_arbiter.md R240: the hand-off sets `HANDED_OFF` while `boot_now` = 1 and has no step while it is 0. -/
def Obligations.HandOffNeedsBootNow : Prop :=
  ∀ s : State, s.Ready →
    (s.cmd = .bootApplication → exec .handOff s = .next { s with handedOff := true, out := Outputs.quiet }) ∧
    (s.cmd ≠ .bootApplication → exec .handOff s = .fault .handOffNotEnabled)

/-- 60_exceptions.md R256 and 43_boot_arbiter.md R242: with a model fault recorded, or after the hand-off, no agent has a
step. -/
def Obligations.NoStepAfterTheEnd : Prop :=
  ∀ s : State, s.cfg.wf →
    (s.faults ≠ [] → (∀ i, exec i s = .fault .stoppedByModelFault) ∧ step s = .fault .stoppedByModelFault) ∧
    (s.faults = [] → s.handedOff = true →
      (∀ i, exec i s = .fault .stoppedByHandOff) ∧ step s = .fault .stoppedByHandOff)

/-- A step has no next state exactly after a model fault, after the hand-off, or at a hand-off that is not enabled
(60_exceptions.md R256; 43_boot_arbiter.md R240, R242). -/
def Obligations.StepStopsExactlyThen : Prop :=
  ∀ s : State, s.cfg.wf →
    ((∃ f, step s = .fault f) ↔
      s.faults ≠ [] ∨ s.handedOff = true ∨ ((∃ rest, s.inputs = .handOff :: rest) ∧ s.cmd ≠ .bootApplication))

/-- In a legal configuration no step is refused, whatever the state and the input; in any other every step is
(93_implementation_defined.md rows 1-7; the refusals are the model's, log 6). -/
def Obligations.StepNeverRefuses : Prop :=
  (∀ s : State, s.cfg.wf → ∀ r, step s ≠ .refused r) ∧
  (∀ s : State, ¬ s.cfg.wf → step s = .refused .illegalConfiguration)

/-! ### Reset -/

/-- 10_state.md R47, 70_reset_and_hazards.md R280: what a device reset leaves; `ADDR` and `BUF` are any draws, the memories
keep their contents. -/
def Obligations.ResetValues : Prop :=
  ∀ (cfg : Config) (addr : Addr) (buf : List Byte) (flash ee : Memory),
    let s := State.resetWith cfg addr buf flash ee
    s.cmd = .wait ∧ s.addr = addr ∧ s.pos = 0 ∧ s.rpos = 0 ∧ s.buf = buf ∧ s.ctr = cfg.t0 ∧ s.phase = .idle ∧
      s.out = { ack := none, txd := none, busReset := false } ∧ s.bootNow = false ∧
      s.faults = [] ∧ s.handedOff = false ∧ s.flash = flash ∧ s.ee = ee

/-- The invariant holds after every reset of a legal configuration, and at the model's own `State.reset` (whose
configuration, draws and memory contents are the model's choices, log 1, log 3, log 4). -/
def Obligations.ResetMeetsInvariant : Prop :=
  (∀ (cfg : Config) (addr : Addr) (buf : List Byte) (flash ee : Memory), cfg.wf → buf.length = cfg.pageSize →
    Memory.wf flash → Memory.within cfg.flashSize flash → Memory.wf ee → Memory.within cfg.eeSize ee →
    (State.resetWith cfg addr buf flash ee).Inv) ∧
  State.reset.Inv

/-! ### The whole block -/

/-- Every step keeps the invariant (10_state.md R33, R36, R39, R40, R50, R51; 20_memory.md R60). -/
def Obligations.EveryStepKeepsInvariant : Prop :=
  ∀ s t : State, s.Inv → step s = .next t → t.Inv

/-- From a state that meets the invariant a step records none of the two unreachable model faults (10_state.md R33;
40_command_decoder.md R133). -/
def Obligations.UnreachableFaultsNeverRecorded : Prop :=
  ∀ s t : State, s.Inv → step s = .next t → ModelFault.cmdUnreachable ∉ t.faults ∧ ModelFault.posBeyondPage ∉ t.faults

/-- 42_memory_backend.md R214: no step changes program memory at or above `BOOT_START`. -/
def Obligations.BootloaderRegionNeverWritten : Prop :=
  ∀ (s t : State) (a : Nat), step s = .next t → s.cfg.bootStart ≤ a → Memory.read t.flash a = Memory.read s.flash a

/-- A byte of program memory changes only in the step that receives the last byte of a page under `FLASH`, and only inside
the page containing `ADDR`, below `BOOT_START` (20_memory.md R62; 10_state.md R48; 42_memory_backend.md R200). -/
def Obligations.FlashChangesOnlyByCommit : Prop :=
  ∀ (s t : State) (a : Nat), step s = .next t → Memory.read t.flash a ≠ Memory.read s.flash a →
    (∃ data rest i, s.inputs = i :: rest ∧ decodeInput i = .evRx data) ∧ s.phase = .rx ∧ s.cmd = .flash ∧
      s.pos = s.cfg.pageSize + 3 ∧ s.addr.toNat < s.cfg.bootStart ∧
      a / s.cfg.pageSize = s.addr.toNat / s.cfg.pageSize

/-- A byte of data memory changes only in the step that receives a payload byte under `EEPROM`, and only at the checked
address (the one that the range check of 42_memory_backend.md R210 answers), to that byte (20_memory.md R62;
40_command_decoder.md R134). -/
def Obligations.EeChangesOnlyByPayloadByte : Prop :=
  ∀ (s t : State) (a : Nat), step s = .next t → Memory.read t.ee a ≠ Memory.read s.ee a →
    (∃ data rest i, s.inputs = i :: rest ∧ decodeInput i = .evRx data ∧
      (Memory.wf s.ee → Memory.read t.ee a = data)) ∧
      s.phase = .rx ∧ s.cmd = .eeprom ∧ 4 ≤ s.pos ∧ eeAddr s.cfg s.addr = .ok a

/-- 10_state.md R39: `CTR` is written in two ways only, a tick above 1 and a recognized opcode at position 0, so it never
rises. -/
def Obligations.CountdownNeverRises : Prop :=
  ∀ s t : State, step s = .next t →
    t.ctr ≤ s.ctr ∧
    (t.ctr ≠ s.ctr → ∃ i rest, s.inputs = i :: rest ∧
      (decodeInput i = .evTick ∧ 1 < s.ctr ∧ t.ctr = s.ctr - 1 ∨
        t.ctr = 0 ∧ s.phase = .rx ∧ s.pos = 0 ∧ ∃ data : Byte, data.toNat < 3 ∧ decodeInput i = .evRx data))

/-- 43_boot_arbiter.md R238: the three events that raise `boot_now`, and no other; each of them does. -/
def Obligations.BootRequestProducers : Prop :=
  ∀ s t : State, step s = .next t → s.cmd ≠ .bootApplication → s.cmd ≠ .unreachable →
    (t.cmd = .bootApplication ↔ ∃ i rest, s.inputs = i :: rest ∧
      (decodeInput i = .evTick ∧ s.ctr = 1 ∨
        ∃ data : Byte, decodeInput i = .evRx data ∧ s.phase = .rx ∧
          (s.pos = 0 ∧ 3 ≤ data.toNat ∨ s.pos = 1 ∧ s.cmd = .version ∧ data = 0x80)))

/-- 43_boot_arbiter.md R234: with no other event, the first `CTR` - 1 ticks count down to 1 and every later tick leaves
`CMD` at `BOOT_APPLICATION` and `CTR` at 1 (from any state, so from reset with `CTR` = `T0`). -/
def Obligations.TimeoutForcesBoot : Prop :=
  ∀ (s : State) (n : Nat), s.Ready → 1 ≤ s.ctr →
    ∃ t outs, observe n { s with inputs := List.replicate n tickInput } = some (t, outs) ∧
      (n < s.ctr → t.ctr = s.ctr - n ∧ t.cmd = s.cmd) ∧ (s.ctr ≤ n → t.ctr = 1 ∧ t.bootNow = true)

/-- 43_boot_arbiter.md R241 and the no-traffic row of 41_protocol_fsm.md R183: in an endless run without received bytes and
without model faults, from a state whose countdown is live, a fair tick agent and a fair platform hand off. -/
def Obligations.SilenceHandsOff : Prop :=
  ∀ (states : Nat → State) (items : Nat → Input), IsRun states items → TickFair states items → HandOffFair states →
    (states 0).Ready → 1 ≤ (states 0).ctr → (∀ n, (states n).faults = []) →
    (∀ n data, decodeInput (items n) ≠ .evRx data) → ∃ n, (states n).handedOff = true

/-- 60_exceptions.md R255: a step that records a model fault records one and changes nothing else; it drives no output. -/
def Obligations.FaultingStepChangesNothingElse : Prop :=
  ∀ s t : State, step s = .next t → t.faults ≠ [] →
    ∃ r, t = { s with faults := [r], out := Outputs.quiet, inputs := s.inputs.tail }

/-- 10_state.md R49: outside `RX` no instruction tells one `POS` from another, and outside `TX` none tells one `RPOS` from
another: the next states agree but for that register, which the addressing event clears. -/
def Obligations.PositionsUnobservable : Prop :=
  (∀ (i : Instr) (s : State) (p : Nat), s.phase ≠ .rx →
    nextState (exec i { s with pos := p }) =
      (nextState (exec i s)).map fun t => { t with pos := if i = .evAddrW then 0 else p }) ∧
  (∀ (i : Instr) (s : State) (p : BitVec 8), s.phase ≠ .tx →
    nextState (exec i { s with rpos := p }) =
      (nextState (exec i s)).map fun t => { t with rpos := if i = .evAddrR then 0 else p })

/-! ### Transactions -/

/-- 42_memory_backend.md R215: a page written below `BOOT_START` reads back, under every `FILL_MAP` from an aligned start
and under `LINEAR` from any, under every `FLASH_WRITE_ADDR`; the write's decisions are `ACK`, but `NACK` for its last
byte. -/
def Obligations.PageRoundTrip : Prop :=
  ∀ (s : State) (hi lo baseHi baseLo : Byte) (page : List Byte), s.Ready → s.cmd ≠ .unreachable → Memory.wf s.flash →
    s.buf.length = s.cfg.pageSize → page.length = s.cfg.pageSize →
    hi.toNat * 256 + lo.toNat < s.cfg.bootStart →
    baseHi.toNat * 256 + baseLo.toNat =
      hi.toNat * 256 + lo.toNat - (hi.toNat * 256 + lo.toNat) % s.cfg.pageSize →
    ((hi.toNat * 256 + lo.toNat) % s.cfg.pageSize = 0 ∨ s.cfg.fillMap = .linear) →
    ∃ t writes u reads, runScript (writePageScript hi lo page) s = some (t, writes) ∧
      acks writes = List.replicate (s.cfg.pageSize + 3) .ack ++ [.nack] ∧
      runScript (readFlashScript baseHi baseLo s.cfg.pageSize) t = some (u, reads) ∧ txds reads = page

/-- 42_memory_backend.md R216: a page written at or above `BOOT_START` gets the same decisions and leaves program memory
unchanged. -/
def Obligations.PageDiscarded : Prop :=
  ∀ (s : State) (hi lo : Byte) (page : List Byte), s.Ready → s.cmd ≠ .unreachable → page.length = s.cfg.pageSize →
    s.cfg.bootStart ≤ hi.toNat * 256 + lo.toNat →
    ∃ t writes, runScript (writePageScript hi lo page) s = some (t, writes) ∧
      acks writes = List.replicate (s.cfg.pageSize + 3) .ack ++ [.nack] ∧
      ∀ a, Memory.read t.flash a = Memory.read s.flash a

/-- 40_command_decoder.md R134, R144: bytes written to data memory read back, and the Address after either operation is the
start plus the number of bytes; under `WRAP` the frame must not outrun the Position Counter (10_state.md R36). -/
def Obligations.DataMemoryRoundTrip : Prop :=
  ∀ (s : State) (hi lo : Byte) (bytes : List Byte), s.Ready → s.cmd ≠ .unreachable → Memory.wf s.ee →
    s.cfg.eepromSupport = true →
    hi.toNat * 256 + lo.toNat + bytes.length ≤ s.cfg.eeSize →
    (s.cfg.posOverflow = .saturate ∨ bytes.length + 4 ≤ 2 ^ s.cfg.posWidth) →
    ∃ t writes u reads, runScript (writeEeScript hi lo bytes) s = some (t, writes) ∧
      acks writes = List.replicate (bytes.length + 4) .ack ∧
      t.addr.toNat = hi.toNat * 256 + lo.toNat + bytes.length ∧
      runScript (readEeScript hi lo bytes.length) t = some (u, reads) ∧ txds reads = bytes ∧
      u.addr.toNat = hi.toNat * 256 + lo.toNat + bytes.length

/-- 30_encoding.md R102 with 10_state.md R37: the identity is read cyclically at any length, across the wrap of `RPOS`. -/
def Obligations.IdentityReadCyclically : Prop :=
  ∀ (s : State) (n : Nat), s.Ready → s.cmd ≠ .unreachable →
    ∃ t outs, runScript (readIdentityScript n) s = some (t, outs) ∧ acks outs = [.ack] ∧
      txds outs = (List.range n).map fun k => s.cfg.ident.getD (k % s.cfg.ident.length) 0

/-! ### Frames -/

/-- The bus events but for a received or requested byte, the tick, the reserved codes and the hand-off: no byte of either
memory, no buffer byte, no Address, and of the registers only the ones named. -/
def Obligations.FrameOfEvents : Prop :=
  ∀ (i : Instr) (s t : State),
    i ∈ [.evAddrW, .evAddrR, .evStop, .evBusError, .evTick, .evReserved7, .evReserved8F, .handOff] →
    exec i s = .next t →
      (∀ a, Memory.read t.flash a = Memory.read s.flash a) ∧ (∀ a, Memory.read t.ee a = Memory.read s.ee a) ∧
      t.cfg = s.cfg ∧ t.addr = s.addr ∧ t.buf = s.buf ∧ t.inputs = s.inputs ∧
      (i ≠ .evTick → t.cmd = s.cmd ∧ t.ctr = s.ctr) ∧
      (i ≠ .evAddrW → t.pos = s.pos) ∧ (i ≠ .evAddrR → t.rpos = s.rpos) ∧
      (i ∈ [.evTick, .evReserved7, .evReserved8F, .handOff] → t.phase = s.phase) ∧
      (i ≠ .handOff → t.handedOff = s.handedOff) ∧
      (i ≠ .evReserved7 → i ≠ .evReserved8F → t.faults = s.faults) ∧
      t.out.ack = none ∧ t.out.txd = none ∧ (i ≠ .evBusError → t.out.busReset = false)

/-- The frame rows that touch no memory: no byte of either memory, no buffer byte, `RPOS`, `PHASE`; `CMD` and `CTR` only in
the rows that write them, `ADDR` only in `ADDR_BYTE`. -/
def Obligations.FrameOfFrameBytes : Prop :=
  ∀ (data : Byte) (i : Instr) (s t : State),
    i ∈ [.opWait, .opVersion, .opMemory, .opUnknown data, .switchApp data, .kindChipinfo, .kindFlash, .kindEeprom,
      .kindBad data, .pos1Other data, .addrByte data, .writeChipinfoByte data, .payloadOther data] →
    exec i s = .next t →
      (∀ a, Memory.read t.flash a = Memory.read s.flash a) ∧ (∀ a, Memory.read t.ee a = Memory.read s.ee a) ∧
      t.cfg = s.cfg ∧ t.buf = s.buf ∧ t.rpos = s.rpos ∧ t.phase = s.phase ∧ t.handedOff = s.handedOff ∧
      t.inputs = s.inputs ∧ t.out.txd = none ∧ t.out.busReset = false ∧
      (i ≠ .addrByte data → t.addr = s.addr) ∧
      (i ∉ [.opWait, .opVersion, .opMemory] → t.ctr = s.ctr) ∧
      (i ∈ [.kindBad data, .pos1Other data, .addrByte data, .writeChipinfoByte data, .payloadOther data] →
        t.cmd = s.cmd) ∧
      (t.faults = s.faults ∨ t.faults = [.outOfPhaseEvent] ∨ t.faults = [.cmdUnreachable])

/-- The rows that store, and `EV_RX` itself: outside the page containing `ADDR` (from the page base, `PAGE_SIZE` bytes) no
byte of program memory changes, and none changes but at the last byte of a page that may be committed; outside the checked
data-memory address no byte of data memory changes; each row leaves the other memory alone. -/
def Obligations.FrameOfStoringBytes : Prop :=
  ∀ (data : Byte) (i : Instr) (s t : State), i ∈ [.writeFlashByte data, .writeEeByte data, .evRx data] →
    exec i s = .next t →
      (∀ a, (a < (pageBase s.cfg s.addr).toNat ∨ (pageBase s.cfg s.addr).toNat + s.cfg.pageSize ≤ a) →
        Memory.read t.flash a = Memory.read s.flash a) ∧
      (s.pos ≠ s.cfg.pageSize + 3 ∨ commitAllowed s.cfg s.addr = false →
        ∀ a, Memory.read t.flash a = Memory.read s.flash a) ∧
      (∀ a, eeAddr s.cfg s.addr ≠ .ok a → Memory.read t.ee a = Memory.read s.ee a) ∧
      (i = .writeFlashByte data → (∀ a, Memory.read t.ee a = Memory.read s.ee a) ∧
        (s.pos ≠ s.cfg.pageSize + 3 → t.addr = s.addr)) ∧
      (i = .writeEeByte data → (∀ a, Memory.read t.flash a = Memory.read s.flash a) ∧ t.buf = s.buf) ∧
      (i ≠ .evRx data → t.cmd = s.cmd ∧ t.ctr = s.ctr) ∧
      t.cfg = s.cfg ∧ t.rpos = s.rpos ∧ t.phase = s.phase ∧ t.handedOff = s.handedOff ∧ t.inputs = s.inputs ∧
      t.out.txd = none ∧ t.out.busReset = false

/-- The read rows and `EV_TX_REQ` itself: no byte of either memory, no buffer byte, `CMD`, `POS`, `CTR` or `PHASE`; `ADDR`
only in the two memory reads. -/
def Obligations.FrameOfReadBytes : Prop :=
  ∀ (i : Instr) (s t : State),
    i ∈ [.readVersion, .readChipinfo, .readFlash, .readEeprom, .readFiller, .evTxReq] → exec i s = .next t →
      (∀ a, Memory.read t.flash a = Memory.read s.flash a) ∧ (∀ a, Memory.read t.ee a = Memory.read s.ee a) ∧
      t.cfg = s.cfg ∧ t.cmd = s.cmd ∧ t.pos = s.pos ∧ t.ctr = s.ctr ∧ t.buf = s.buf ∧ t.phase = s.phase ∧
      t.handedOff = s.handedOff ∧ t.inputs = s.inputs ∧ t.out.ack = none ∧ t.out.busReset = false ∧
      (i ∈ [.readVersion, .readChipinfo, .readFiller] → t.addr = s.addr) ∧
      (s.cmd ≠ .flash → s.cmd ≠ .eeprom → t.addr = s.addr)
end

