-- ==== Sys2Proof/Laws/Decode.lean ====
section
/-! SUPPORT. The fields of an event word (30_encoding.md R90). -/

namespace Sys2Proof

@[simp] theorem eventCode_eventWord (code : BitVec 4) (data : Byte) : eventCode (eventWord code data) = code := by
  apply BitVec.eq_of_getLsbD_eq
  intro i hi
  have h8 : ¬ 8 + i < 8 := by omega
  simp only [eventCode, eventWord, BitVec.getLsbD_extractLsb']
  rw [show ((code ++ data : EventWord)).getLsbD (8 + i) =
    if 8 + i < 8 then data.getLsbD (8 + i) else code.getLsbD (8 + i - 8) from BitVec.getLsbD_append]
  simp [h8, hi]

@[simp] theorem eventData_eventWord (code : BitVec 4) (data : Byte) : eventData (eventWord code data) = data := by
  apply BitVec.eq_of_getLsbD_eq
  intro i hi
  simp only [eventData, eventWord, BitVec.getLsbD_extractLsb']
  rw [show ((code ++ data : EventWord)).getLsbD (0 + i) =
    if 0 + i < 8 then data.getLsbD (0 + i) else code.getLsbD (0 + i - 8) from BitVec.getLsbD_append]
  simp [hi]

/-- A word is its code and its data byte. -/
theorem eventWord_fields (w : EventWord) : eventWord (eventCode w) (eventData w) = w := by
  apply BitVec.eq_of_getLsbD_eq
  intro i hi
  rw [eventWord, show ((eventCode w ++ eventData w : EventWord)).getLsbD i =
    if i < 8 then (eventData w).getLsbD i else (eventCode w).getLsbD (i - 8) from BitVec.getLsbD_append]
  by_cases h : i < 8
  · simp [eventData, h]
  · have h1 : i - 8 < 4 := by omega
    have h2 : 8 + (i - 8) = i := by omega
    simp [eventCode, h, h1, h2]

/-- The event decoder reads a received byte's word as `EV_RX` of that byte (R91). -/
theorem decodeEvent_rx (data : Byte) : decodeEvent (eventWord 0x2 data) = .evRx data := by
  simp [decodeEvent]

end Sys2Proof
end

