-- ==== Sys2Proof/Laws/Memory.lean ====
section
/-! SUPPORT. The laws of the two memories: a read after a write (20_memory.md R75, 42_memory_backend.md R212), and that
every memory operation keeps the canonical form and the array's bounds (20_memory.md R60). -/

namespace Sys2Proof.Machine

/-- A cell list all of whose addresses lie above `a` does not list `a`. -/
theorem Memory.read_of_above (m : Memory) (a : Nat) (h : ∀ c ∈ m, a < c.1) : Memory.read m a = unlistedByte := by
  induction m with
  | nil => rfl
  | cons c m ih =>
    have hc := h c (by simp)
    have : a ≠ c.1 := by omega
    simp only [Memory.read, this, if_false]
    exact ih fun d hd => h d (by simp [hd])

/-- Every cell of a write's result is a cell of the memory or the one written. -/
theorem Memory.mem_write {m : Memory} {a : Nat} {v : Byte} {c : Host.Cell} (h : c ∈ Memory.write m a v) :
    c ∈ m ∨ (c = (a, v) ∧ v ≠ unlistedByte) := by
  induction m with
  | nil =>
    by_cases hv : v = unlistedByte <;> simp_all [Memory.write]
  | cons d m ih =>
    obtain ⟨b, w⟩ := d
    simp only [Memory.write] at h
    by_cases hv : v = unlistedByte
    · simp only [if_pos hv] at h
      split at h
      · exact .inl h
      · split at h
        · left; simp_all
        · rcases List.mem_cons.1 h with h | h
          · left; simp [h]
          · rcases ih h with h | h
            · left; simp [h]
            · exact .inr h
    · simp only [if_neg hv] at h
      split at h
      · simp only [List.mem_cons] at h ⊢
        tauto
      · split at h
        · simp only [List.mem_cons] at h ⊢
          tauto
        · rcases List.mem_cons.1 h with h | h
          · left; simp [h]
          · rcases ih h with h | h
            · left; simp [h]
            · exact .inr h

/-- A write keeps the canonical form. -/
theorem Memory.write_wf {m : Memory} (a : Nat) (v : Byte) (h : Memory.wf m) : Memory.wf (Memory.write m a v) := by
  refine ⟨?_, ?_⟩
  · induction m with
    | nil => by_cases hv : v = unlistedByte <;> simp [Memory.write, hv]
    | cons d m ih =>
      obtain ⟨b, w⟩ := d
      have hp := List.pairwise_cons.1 h.1
      have hm : Memory.wf m := ⟨hp.2, fun c hc => h.2 c (by simp [hc])⟩
      simp only [Memory.write]
      split
      · split
        · exact h.1
        · refine List.pairwise_cons.2 ⟨fun c hc => ?_, h.1⟩
          rcases List.mem_cons.1 hc with rfl | hc
          · assumption
          · have := hp.1 c hc; simp at this ⊢; omega
      · split
        · split
          · exact hp.2
          · subst_vars; exact List.pairwise_cons.2 ⟨fun c hc => hp.1 c hc, hp.2⟩
        · refine List.pairwise_cons.2 ⟨fun c hc => ?_, ih hm⟩
          rcases Memory.mem_write hc with hc | ⟨rfl, -⟩
          · exact hp.1 c hc
          · simp; omega
  · intro c hc
    rcases Memory.mem_write hc with hc | ⟨rfl, hv⟩
    · exact h.2 c hc
    · exact hv

/-- A write inside the array keeps every listed address inside it. -/
theorem Memory.write_within {m : Memory} {size a : Nat} (v : Byte) (h : Memory.within size m) (ha : a < size) :
    Memory.within size (Memory.write m a v) := by
  intro c hc
  rcases Memory.mem_write hc with hc | ⟨rfl, -⟩
  · exact h c hc
  · exact ha

/-- A read of the address written gives the value written (42_memory_backend.md R212). -/
theorem Memory.read_write_same {m : Memory} (a : Nat) (v : Byte) (h : Memory.wf m) :
    Memory.read (Memory.write m a v) a = v := by
  induction m with
  | nil => by_cases hv : v = unlistedByte <;> simp [Memory.write, Memory.read, hv]
  | cons d m ih =>
    obtain ⟨b, w⟩ := d
    have hp := List.pairwise_cons.1 h.1
    have hm : Memory.wf m := ⟨hp.2, fun c hc => h.2 c (by simp [hc])⟩
    simp only [Memory.write]
    split
    · split
      · rename_i hab hv
        rw [hv]
        refine Memory.read_of_above _ _ fun c hc => ?_
        rcases List.mem_cons.1 hc with rfl | hc
        · exact hab
        · have := hp.1 c hc; simp at this; omega
      · simp [Memory.read]
    · split
      · split
        · rename_i hab hv
          rw [hv]
          exact Memory.read_of_above _ _ fun c hc => by have := hp.1 c hc; simp at this; omega
        · simp [Memory.read]
      · rename_i h1 h2
        simp only [Memory.read, h2, if_false]
        exact ih hm

/-- A write leaves every other address as it was, whatever the list. -/
theorem Memory.read_write_other {m : Memory} {a b : Nat} (v : Byte) (h : b ≠ a) :
    Memory.read (Memory.write m a v) b = Memory.read m b := by
  induction m with
  | nil => by_cases hv : v = unlistedByte <;> simp [Memory.write, Memory.read, hv, h]
  | cons d m ih =>
    obtain ⟨c, w⟩ := d
    simp only [Memory.write]
    split
    · split <;> simp [Memory.read, h]
    · split
      · rename_i hac
        subst hac
        split <;> simp [Memory.read, h]
      · simp only [Memory.read, ih]

/-- The placements keep the canonical form. -/
theorem placeBytes_wf (c : Config) (start : Addr) (buf : List Byte) (n : Nat) {m : Memory} (h : Memory.wf m) :
    Memory.wf (placeBytes c start buf n m) := by
  induction n with
  | zero => exact h
  | succ n ih => exact Memory.write_wf _ _ ih

/-- The placements of bytes inside the array stay inside it. -/
theorem placeBytes_within (c : Config) (start : Addr) (buf : List Byte) (n size : Nat) {m : Memory}
    (h : Memory.within size m) (hs : ∀ i < n, (pageBase c start).toNat + slot c start i < size) :
    Memory.within size (placeBytes c start buf n m) := by
  induction n with
  | zero => exact h
  | succ n ih => exact Memory.write_within _ (ih fun i hi => hs i (by omega)) (hs n (by omega))

/-- An address that no placement targets reads as before. -/
theorem read_placeBytes_other (c : Config) (start : Addr) (buf : List Byte) (n : Nat) (m : Memory) (a : Nat)
    (h : ∀ i < n, a ≠ (pageBase c start).toNat + slot c start i) :
    Memory.read (placeBytes c start buf n m) a = Memory.read m a := by
  induction n with
  | zero => rfl
  | succ n ih =>
    simp only [placeBytes]
    rw [Memory.read_write_other _ (h n (by omega))]
    exact ih fun i hi => h i (by omega)

/-- Where no two placements share a slot, byte k of the buffer is read at its slot (42_memory_backend.md R203). -/
theorem read_placeBytes_same (c : Config) (start : Addr) (buf : List Byte) (n : Nat) {m : Memory} (hm : Memory.wf m)
    (hinj : ∀ i < n, ∀ j < n, slot c start i = slot c start j → i = j) (k : Nat) (hk : k < n) :
    Memory.read (placeBytes c start buf n m) ((pageBase c start).toNat + slot c start k) = buf.getD k 0 := by
  induction n with
  | zero => omega
  | succ n ih =>
    simp only [placeBytes]
    by_cases hkn : k = n
    · subst hkn
      exact Memory.read_write_same _ _ (placeBytes_wf c start buf k hm)
    · have hne : slot c start k ≠ slot c start n := fun he => hkn (hinj k hk n (by omega) he)
      rw [Memory.read_write_other _ (by omega)]
      exact ih (fun i hi j hj => hinj i (by omega) j (by omega)) (by omega)

end Sys2Proof.Machine
end

