-- ==== Sys2Proof/Laws/Operands.lean ====
section
/-! SUPPORT. The laws of the operand forms: the assembled Address (30_encoding.md R99), the page base and the slots of a page
(42_memory_backend.md R201, R202, R204), the checked addresses (R208, R210), and the position's advance (10_state.md R36). -/

namespace Sys2Proof.Machine

/-- A legal page size is a power of two of at most seven bits (00_scope.md R8). -/
theorem pageSize_pow {c : Config} (h : c.pageOk) : ∃ k, 1 ≤ k ∧ k ≤ 7 ∧ c.pageSize = 2 ^ k := by
  simp only [List.mem_cons, List.not_mem_nil, or_false] at h
  rcases h with h | h | h | h | h | h | h
  · exact ⟨1, by omega, by omega, h⟩
  · exact ⟨2, by omega, by omega, h⟩
  · exact ⟨3, by omega, by omega, h⟩
  · exact ⟨4, by omega, by omega, h⟩
  · exact ⟨5, by omega, by omega, h⟩
  · exact ⟨6, by omega, by omega, h⟩
  · exact ⟨7, by omega, by omega, h⟩

/-- The bounds of a legal page size. -/
theorem pageSize_bounds {c : Config} (h : c.pageOk) : 2 ≤ c.pageSize ∧ c.pageSize ≤ 128 := by
  simp only [List.mem_cons, List.not_mem_nil, or_false] at h
  omega

/-- The page size divides the address space. -/
theorem pageSize_dvd {c : Config} (h : c.pageOk) : c.pageSize ∣ 65536 := by
  simp only [List.mem_cons, List.not_mem_nil, or_false] at h
  rcases h with h | h | h | h | h | h | h <;> rw [h] <;> decide

/-- The mask of R201 rounds an address down to a multiple of the page size. -/
theorem pageBase_toNat {c : Config} (h : c.pageOk) (a : Addr) :
    (pageBase c a).toNat = a.toNat - a.toNat % c.pageSize := by
  have key : ∀ k : Fin 8, ∀ b : Addr,
      (b &&& ~~~(BitVec.ofNat 16 (2 ^ (k : Nat) - 1))).toNat = b.toNat - b.toNat % 2 ^ (k : Nat) := by
    intro k b
    have hle : 2 ^ (k : Nat) ≤ 128 := by
      have : (k : Nat) ≤ 7 := by omega
      exact le_trans (Nat.pow_le_pow_right (by omega) this) (by norm_num)
    have hsplit : b = (b &&& ~~~(BitVec.ofNat 16 (2 ^ (k : Nat) - 1))) ||| (b &&& BitVec.ofNat 16 (2 ^ (k : Nat) - 1)) := by
      rw [← BitVec.and_or_distrib_left, show ~~~(BitVec.ofNat 16 (2 ^ (k : Nat) - 1)) |||
        BitVec.ofNat 16 (2 ^ (k : Nat) - 1) = BitVec.allOnes 16 by ext; simp, BitVec.and_allOnes]
    have hdisj : (b &&& ~~~(BitVec.ofNat 16 (2 ^ (k : Nat) - 1))) &&& (b &&& BitVec.ofNat 16 (2 ^ (k : Nat) - 1)) = 0#16 := by
      ext i; simp; tauto
    have hlow : (b &&& BitVec.ofNat 16 (2 ^ (k : Nat) - 1)).toNat = b.toNat % 2 ^ (k : Nat) := by
      rw [BitVec.toNat_and, BitVec.toNat_ofNat, Nat.mod_eq_of_lt (by omega), Nat.and_two_pow_sub_one_eq_mod]
    have hadd := BitVec.add_eq_or_of_and_eq_zero _ _ hdisj
    have hsum : b = (b &&& ~~~(BitVec.ofNat 16 (2 ^ (k : Nat) - 1))) + (b &&& BitVec.ofNat 16 (2 ^ (k : Nat) - 1)) := by
      rw [hadd]; exact hsplit
    have hmod : b.toNat % 2 ^ (k : Nat) ≤ b.toNat := Nat.mod_le _ _
    have hlt := (b &&& ~~~(BitVec.ofNat 16 (2 ^ (k : Nat) - 1))).isLt
    have := congrArg BitVec.toNat hsum
    rw [BitVec.toNat_add, hlow] at this
    omega
  obtain ⟨k, -, hk, hp⟩ := pageSize_pow h
  rw [pageBase, hp]
  exact key ⟨k, by omega⟩ a

/-- A page base is a multiple of the page size. -/
theorem pageBase_aligned {c : Config} (h : c.pageOk) (a : Addr) : (pageBase c a).toNat % c.pageSize = 0 := by
  rw [pageBase_toNat h]
  exact Nat.mod_eq_zero_of_dvd (Nat.dvd_sub_mod _)

/-- A page below an aligned boundary lies wholly below it (42_memory_backend.md R203). -/
theorem page_below {c : Config} (h : c.pageOk) (a : Addr) {bound : Nat} (hb : bound % c.pageSize = 0)
    (hlt : (pageBase c a).toNat < bound) : (pageBase c a).toNat + c.pageSize ≤ bound := by
  have hpos := (pageSize_bounds h).1
  obtain ⟨x, hx⟩ := Nat.dvd_of_mod_eq_zero (pageBase_aligned h a)
  obtain ⟨y, hy⟩ := Nat.dvd_of_mod_eq_zero hb
  rw [hx, hy] at hlt ⊢
  have : x < y := lt_of_mul_lt_mul_left hlt (Nat.zero_le _)
  calc c.pageSize * x + c.pageSize = c.pageSize * (x + 1) := by ring
    _ ≤ c.pageSize * y := Nat.mul_le_mul_left _ this

/-- A slot lies inside the page (42_memory_backend.md R204). -/
theorem slot_lt {c : Config} (h : c.pageOk) (start : Addr) {i : Nat} (hi : i < c.pageSize) :
    slot c start i < c.pageSize := by
  have := (pageSize_bounds h).1
  unfold slot
  split
  · exact hi
  · exact Nat.mod_lt _ (by omega)

/-- No two bytes of a page share a slot. -/
theorem slot_injective (c : Config) (start : Addr) {i j : Nat} (hi : i < c.pageSize) (hj : j < c.pageSize)
    (h : slot c start i = slot c start j) : i = j := by
  unfold slot at h
  split at h
  · exact h
  · have h1 : start.toNat + i ≡ start.toNat + j [MOD c.pageSize] := h
    have h2 := Nat.ModEq.add_left_cancel' _ h1
    unfold Nat.ModEq at h2
    rwa [Nat.mod_eq_of_lt hi, Nat.mod_eq_of_lt hj] at h2

/-- Two address bytes replace the Address whatever it held (30_encoding.md R99). -/
theorem shiftIn_twice (a : Addr) (hi lo : Byte) : shiftIn (shiftIn a hi) lo = hi ++ lo := by
  apply BitVec.eq_of_getLsbD_eq
  intro i hlt
  rw [show ((hi ++ lo : Addr)).getLsbD i = if i < 8 then lo.getLsbD i else hi.getLsbD (i - 8) from BitVec.getLsbD_append]
  simp only [shiftIn, BitVec.getLsbD_or, BitVec.getLsbD_shiftLeft, BitVec.getLsbD_setWidth]
  by_cases h8 : i < 8
  · simp [h8, hlt]
  · have h0 : i - 8 < 8 := by omega
    have h1 : i - 8 < 16 := by omega
    have h3 : lo.getLsbD i = false := BitVec.getLsbD_of_ge lo i (by omega)
    simp [h8, h0, h1, h3, hlt]

/-- A checked flash address lies inside program memory (42_memory_backend.md R208). -/
theorem flashAddr_lt {c : Config} {a : Addr} {i : Nat} (hs : 1 ≤ c.flashSize) (h : flashAddr c a = .ok i) :
    i < c.flashSize := by
  unfold flashAddr at h
  split at h
  · cases h; assumption
  · split at h
    · cases h
    · cases h; exact Nat.mod_lt _ (by omega)

/-- A checked data-memory address lies inside data memory (42_memory_backend.md R210). -/
theorem eeAddr_lt {c : Config} {a : Addr} {i : Nat} (hs : 1 ≤ c.eeSize) (h : eeAddr c a = .ok i) : i < c.eeSize := by
  unfold eeAddr at h
  split at h
  · cases h; assumption
  · split at h
    · cases h
    · cases h; exact Nat.mod_lt _ (by omega)

/-- An advanced position still fits `POS_WIDTH` bits (10_state.md R36). -/
theorem advancePos_lt (c : Config) (pos : Nat) : advancePos c pos < 2 ^ c.posWidth := by
  have := Nat.two_pow_pos c.posWidth
  unfold advancePos
  split
  · omega
  · exact Nat.mod_lt _ this

/-- Below the maximum a position advances by one under either overflow (10_state.md R36). -/
theorem advancePos_of_lt {c : Config} {pos : Nat} (h : pos + 1 < 2 ^ c.posWidth) : advancePos c pos = pos + 1 := by
  unfold advancePos
  split
  · omega
  · exact Nat.mod_eq_of_lt h

/-- The shifted-in Address by arithmetic: the old one times 256 plus the byte, modulo 2^16 (30_encoding.md R99). -/
theorem shiftIn_eq (a : Addr) (data : Byte) : shiftIn a data = BitVec.ofNat 16 (a.toNat * 256 + data.toNat) := by
  apply BitVec.eq_of_toNat_eq
  have hd : data.toNat < 256 := data.isLt
  have e : a.toNat <<< 8 % 2 ^ 16 = (a.toNat % 256) <<< 8 := by
    simp only [Nat.shiftLeft_eq]; omega
  simp only [shiftIn, BitVec.toNat_or, BitVec.toNat_shiftLeft, BitVec.toNat_setWidth, BitVec.toNat_ofNat]
  rw [e, Nat.mod_eq_of_lt (show data.toNat < 2 ^ 16 by omega), ← Nat.shiftLeft_add_eq_or_of_lt hd, Nat.shiftLeft_eq]
  omega

/-- A page may be committed exactly when its start Address lies below `BOOT_START` (42_memory_backend.md R202). -/
theorem commitAllowed_iff {c : Config} (h : c.wf) (a : Addr) : commitAllowed c a = true ↔ a.toNat < c.bootStart := by
  have hp := pageSize_bounds h.1
  simp only [commitAllowed, decide_eq_true_eq]
  constructor
  · intro hlt
    have hle := page_below h.1 a h.2.1.2.2.2.1 hlt
    have hmod := Nat.mod_lt a.toNat (show 0 < c.pageSize by omega)
    rw [pageBase_toNat h.1] at hle
    omega
  · intro hlt
    rw [pageBase_toNat h.1]
    omega

end Sys2Proof.Machine
end

