-- ==== Sys2Proof/Laws/State.lean ====
section
/-! SUPPORT. One lemma per field per named update of the state, so that no proof unfolds an update; the fields of a reset
(10_state.md R47). -/

namespace Sys2Proof.Machine

@[simp] theorem State.raise_cfg (s : State) (r : ModelFault) : (s.raise r).cfg = s.cfg := rfl
@[simp] theorem State.raise_cmd (s : State) (r : ModelFault) : (s.raise r).cmd = s.cmd := rfl
@[simp] theorem State.raise_addr (s : State) (r : ModelFault) : (s.raise r).addr = s.addr := rfl
@[simp] theorem State.raise_pos (s : State) (r : ModelFault) : (s.raise r).pos = s.pos := rfl
@[simp] theorem State.raise_rpos (s : State) (r : ModelFault) : (s.raise r).rpos = s.rpos := rfl
@[simp] theorem State.raise_buf (s : State) (r : ModelFault) : (s.raise r).buf = s.buf := rfl
@[simp] theorem State.raise_ctr (s : State) (r : ModelFault) : (s.raise r).ctr = s.ctr := rfl
@[simp] theorem State.raise_phase (s : State) (r : ModelFault) : (s.raise r).phase = s.phase := rfl
@[simp] theorem State.raise_flash (s : State) (r : ModelFault) : (s.raise r).flash = s.flash := rfl
@[simp] theorem State.raise_ee (s : State) (r : ModelFault) : (s.raise r).ee = s.ee := rfl
@[simp] theorem State.raise_faults (s : State) (r : ModelFault) : (s.raise r).faults = if r ∈ s.faults then s.faults else s.faults ++ [r] := rfl
@[simp] theorem State.raise_handedOff (s : State) (r : ModelFault) : (s.raise r).handedOff = s.handedOff := rfl
@[simp] theorem State.raise_out (s : State) (r : ModelFault) : (s.raise r).out = s.out := rfl
@[simp] theorem State.raise_inputs (s : State) (r : ModelFault) : (s.raise r).inputs = s.inputs := rfl

@[simp] theorem State.endTransaction_cfg (s : State) : (s.endTransaction).cfg = s.cfg := rfl
@[simp] theorem State.endTransaction_cmd (s : State) : (s.endTransaction).cmd = s.cmd := rfl
@[simp] theorem State.endTransaction_addr (s : State) : (s.endTransaction).addr = s.addr := rfl
@[simp] theorem State.endTransaction_pos (s : State) : (s.endTransaction).pos = s.pos := rfl
@[simp] theorem State.endTransaction_rpos (s : State) : (s.endTransaction).rpos = s.rpos := rfl
@[simp] theorem State.endTransaction_buf (s : State) : (s.endTransaction).buf = s.buf := rfl
@[simp] theorem State.endTransaction_ctr (s : State) : (s.endTransaction).ctr = s.ctr := rfl
@[simp] theorem State.endTransaction_phase (s : State) : (s.endTransaction).phase = .idle := rfl
@[simp] theorem State.endTransaction_flash (s : State) : (s.endTransaction).flash = s.flash := rfl
@[simp] theorem State.endTransaction_ee (s : State) : (s.endTransaction).ee = s.ee := rfl
@[simp] theorem State.endTransaction_faults (s : State) : (s.endTransaction).faults = s.faults := rfl
@[simp] theorem State.endTransaction_handedOff (s : State) : (s.endTransaction).handedOff = s.handedOff := rfl
@[simp] theorem State.endTransaction_out (s : State) : (s.endTransaction).out = s.out := rfl
@[simp] theorem State.endTransaction_inputs (s : State) : (s.endTransaction).inputs = s.inputs := rfl

@[simp] theorem State.endOpenTransaction_cfg (s : State) : (s.endOpenTransaction).cfg = s.cfg := by
  simp only [State.endOpenTransaction, State.endTransaction]
  split <;> rfl
@[simp] theorem State.endOpenTransaction_cmd (s : State) : (s.endOpenTransaction).cmd = s.cmd := by
  simp only [State.endOpenTransaction, State.endTransaction]
  split <;> rfl
@[simp] theorem State.endOpenTransaction_addr (s : State) : (s.endOpenTransaction).addr = s.addr := by
  simp only [State.endOpenTransaction, State.endTransaction]
  split <;> rfl
@[simp] theorem State.endOpenTransaction_pos (s : State) : (s.endOpenTransaction).pos = s.pos := by
  simp only [State.endOpenTransaction, State.endTransaction]
  split <;> rfl
@[simp] theorem State.endOpenTransaction_rpos (s : State) : (s.endOpenTransaction).rpos = s.rpos := by
  simp only [State.endOpenTransaction, State.endTransaction]
  split <;> rfl
@[simp] theorem State.endOpenTransaction_buf (s : State) : (s.endOpenTransaction).buf = s.buf := by
  simp only [State.endOpenTransaction, State.endTransaction]
  split <;> rfl
@[simp] theorem State.endOpenTransaction_ctr (s : State) : (s.endOpenTransaction).ctr = s.ctr := by
  simp only [State.endOpenTransaction, State.endTransaction]
  split <;> rfl
@[simp] theorem State.endOpenTransaction_phase (s : State) : (s.endOpenTransaction).phase = .idle := by
  by_cases h : s.phase = .idle <;> simp [State.endOpenTransaction, State.endTransaction, h]
@[simp] theorem State.endOpenTransaction_flash (s : State) : (s.endOpenTransaction).flash = s.flash := by
  simp only [State.endOpenTransaction, State.endTransaction]
  split <;> rfl
@[simp] theorem State.endOpenTransaction_ee (s : State) : (s.endOpenTransaction).ee = s.ee := by
  simp only [State.endOpenTransaction, State.endTransaction]
  split <;> rfl
@[simp] theorem State.endOpenTransaction_faults (s : State) : (s.endOpenTransaction).faults = s.faults := by
  simp only [State.endOpenTransaction, State.endTransaction]
  split <;> rfl
@[simp] theorem State.endOpenTransaction_handedOff (s : State) : (s.endOpenTransaction).handedOff = s.handedOff := by
  simp only [State.endOpenTransaction, State.endTransaction]
  split <;> rfl
@[simp] theorem State.endOpenTransaction_out (s : State) : (s.endOpenTransaction).out = s.out := by
  simp only [State.endOpenTransaction, State.endTransaction]
  split <;> rfl
@[simp] theorem State.endOpenTransaction_inputs (s : State) : (s.endOpenTransaction).inputs = s.inputs := by
  simp only [State.endOpenTransaction, State.endTransaction]
  split <;> rfl

@[simp] theorem State.bufferByte_cfg (s : State) (i : Nat) (data : Byte) : (s.bufferByte i data).cfg = s.cfg := rfl
@[simp] theorem State.bufferByte_cmd (s : State) (i : Nat) (data : Byte) : (s.bufferByte i data).cmd = s.cmd := rfl
@[simp] theorem State.bufferByte_addr (s : State) (i : Nat) (data : Byte) : (s.bufferByte i data).addr = s.addr := rfl
@[simp] theorem State.bufferByte_pos (s : State) (i : Nat) (data : Byte) : (s.bufferByte i data).pos = s.pos := rfl
@[simp] theorem State.bufferByte_rpos (s : State) (i : Nat) (data : Byte) : (s.bufferByte i data).rpos = s.rpos := rfl
@[simp] theorem State.bufferByte_buf (s : State) (i : Nat) (data : Byte) : (s.bufferByte i data).buf = s.buf.set i data := rfl
@[simp] theorem State.bufferByte_ctr (s : State) (i : Nat) (data : Byte) : (s.bufferByte i data).ctr = s.ctr := rfl
@[simp] theorem State.bufferByte_phase (s : State) (i : Nat) (data : Byte) : (s.bufferByte i data).phase = s.phase := rfl
@[simp] theorem State.bufferByte_flash (s : State) (i : Nat) (data : Byte) : (s.bufferByte i data).flash = s.flash := rfl
@[simp] theorem State.bufferByte_ee (s : State) (i : Nat) (data : Byte) : (s.bufferByte i data).ee = s.ee := rfl
@[simp] theorem State.bufferByte_faults (s : State) (i : Nat) (data : Byte) : (s.bufferByte i data).faults = s.faults := rfl
@[simp] theorem State.bufferByte_handedOff (s : State) (i : Nat) (data : Byte) : (s.bufferByte i data).handedOff = s.handedOff := rfl
@[simp] theorem State.bufferByte_out (s : State) (i : Nat) (data : Byte) : (s.bufferByte i data).out = s.out := rfl
@[simp] theorem State.bufferByte_inputs (s : State) (i : Nat) (data : Byte) : (s.bufferByte i data).inputs = s.inputs := rfl

@[simp] theorem State.writeEe_cfg (s : State) (a : Nat) (data : Byte) : (s.writeEe a data).cfg = s.cfg := rfl
@[simp] theorem State.writeEe_cmd (s : State) (a : Nat) (data : Byte) : (s.writeEe a data).cmd = s.cmd := rfl
@[simp] theorem State.writeEe_addr (s : State) (a : Nat) (data : Byte) : (s.writeEe a data).addr = s.addr := rfl
@[simp] theorem State.writeEe_pos (s : State) (a : Nat) (data : Byte) : (s.writeEe a data).pos = s.pos := rfl
@[simp] theorem State.writeEe_rpos (s : State) (a : Nat) (data : Byte) : (s.writeEe a data).rpos = s.rpos := rfl
@[simp] theorem State.writeEe_buf (s : State) (a : Nat) (data : Byte) : (s.writeEe a data).buf = s.buf := rfl
@[simp] theorem State.writeEe_ctr (s : State) (a : Nat) (data : Byte) : (s.writeEe a data).ctr = s.ctr := rfl
@[simp] theorem State.writeEe_phase (s : State) (a : Nat) (data : Byte) : (s.writeEe a data).phase = s.phase := rfl
@[simp] theorem State.writeEe_flash (s : State) (a : Nat) (data : Byte) : (s.writeEe a data).flash = s.flash := rfl
@[simp] theorem State.writeEe_ee (s : State) (a : Nat) (data : Byte) : (s.writeEe a data).ee = Memory.write s.ee a data := rfl
@[simp] theorem State.writeEe_faults (s : State) (a : Nat) (data : Byte) : (s.writeEe a data).faults = s.faults := rfl
@[simp] theorem State.writeEe_handedOff (s : State) (a : Nat) (data : Byte) : (s.writeEe a data).handedOff = s.handedOff := rfl
@[simp] theorem State.writeEe_out (s : State) (a : Nat) (data : Byte) : (s.writeEe a data).out = s.out := rfl
@[simp] theorem State.writeEe_inputs (s : State) (a : Nat) (data : Byte) : (s.writeEe a data).inputs = s.inputs := rfl

@[simp] theorem State.advanceAddr_cfg (s : State) : (s.advanceAddr).cfg = s.cfg := rfl
@[simp] theorem State.advanceAddr_cmd (s : State) : (s.advanceAddr).cmd = s.cmd := rfl
@[simp] theorem State.advanceAddr_addr (s : State) : (s.advanceAddr).addr = nextAddr s.addr := rfl
@[simp] theorem State.advanceAddr_pos (s : State) : (s.advanceAddr).pos = s.pos := rfl
@[simp] theorem State.advanceAddr_rpos (s : State) : (s.advanceAddr).rpos = s.rpos := rfl
@[simp] theorem State.advanceAddr_buf (s : State) : (s.advanceAddr).buf = s.buf := rfl
@[simp] theorem State.advanceAddr_ctr (s : State) : (s.advanceAddr).ctr = s.ctr := rfl
@[simp] theorem State.advanceAddr_phase (s : State) : (s.advanceAddr).phase = s.phase := rfl
@[simp] theorem State.advanceAddr_flash (s : State) : (s.advanceAddr).flash = s.flash := rfl
@[simp] theorem State.advanceAddr_ee (s : State) : (s.advanceAddr).ee = s.ee := rfl
@[simp] theorem State.advanceAddr_faults (s : State) : (s.advanceAddr).faults = s.faults := rfl
@[simp] theorem State.advanceAddr_handedOff (s : State) : (s.advanceAddr).handedOff = s.handedOff := rfl
@[simp] theorem State.advanceAddr_out (s : State) : (s.advanceAddr).out = s.out := rfl
@[simp] theorem State.advanceAddr_inputs (s : State) : (s.advanceAddr).inputs = s.inputs := rfl

@[simp] theorem State.commitPage_cfg (s : State) : (s.commitPage).cfg = s.cfg := rfl
@[simp] theorem State.commitPage_cmd (s : State) : (s.commitPage).cmd = s.cmd := rfl
@[simp] theorem State.commitPage_addr (s : State) : (s.commitPage).addr = s.addr := rfl
@[simp] theorem State.commitPage_pos (s : State) : (s.commitPage).pos = s.pos := rfl
@[simp] theorem State.commitPage_rpos (s : State) : (s.commitPage).rpos = s.rpos := rfl
@[simp] theorem State.commitPage_buf (s : State) : (s.commitPage).buf = s.buf := rfl
@[simp] theorem State.commitPage_ctr (s : State) : (s.commitPage).ctr = s.ctr := rfl
@[simp] theorem State.commitPage_phase (s : State) : (s.commitPage).phase = s.phase := rfl
@[simp] theorem State.commitPage_flash (s : State) : (s.commitPage).flash = flashAfterCommit s.cfg s.addr s.buf s.flash := rfl
@[simp] theorem State.commitPage_ee (s : State) : (s.commitPage).ee = s.ee := rfl
@[simp] theorem State.commitPage_faults (s : State) : (s.commitPage).faults = s.faults := rfl
@[simp] theorem State.commitPage_handedOff (s : State) : (s.commitPage).handedOff = s.handedOff := rfl
@[simp] theorem State.commitPage_out (s : State) : (s.commitPage).out = s.out := rfl
@[simp] theorem State.commitPage_inputs (s : State) : (s.commitPage).inputs = s.inputs := rfl

@[simp] theorem State.updateAddrAfterPage_cfg (s : State) : (s.updateAddrAfterPage).cfg = s.cfg := rfl
@[simp] theorem State.updateAddrAfterPage_cmd (s : State) : (s.updateAddrAfterPage).cmd = s.cmd := rfl
@[simp] theorem State.updateAddrAfterPage_addr (s : State) : (s.updateAddrAfterPage).addr = addrAfterPage s.cfg s.addr := rfl
@[simp] theorem State.updateAddrAfterPage_pos (s : State) : (s.updateAddrAfterPage).pos = s.pos := rfl
@[simp] theorem State.updateAddrAfterPage_rpos (s : State) : (s.updateAddrAfterPage).rpos = s.rpos := rfl
@[simp] theorem State.updateAddrAfterPage_buf (s : State) : (s.updateAddrAfterPage).buf = s.buf := rfl
@[simp] theorem State.updateAddrAfterPage_ctr (s : State) : (s.updateAddrAfterPage).ctr = s.ctr := rfl
@[simp] theorem State.updateAddrAfterPage_phase (s : State) : (s.updateAddrAfterPage).phase = s.phase := rfl
@[simp] theorem State.updateAddrAfterPage_flash (s : State) : (s.updateAddrAfterPage).flash = s.flash := rfl
@[simp] theorem State.updateAddrAfterPage_ee (s : State) : (s.updateAddrAfterPage).ee = s.ee := rfl
@[simp] theorem State.updateAddrAfterPage_faults (s : State) : (s.updateAddrAfterPage).faults = s.faults := rfl
@[simp] theorem State.updateAddrAfterPage_handedOff (s : State) : (s.updateAddrAfterPage).handedOff = s.handedOff := rfl
@[simp] theorem State.updateAddrAfterPage_out (s : State) : (s.updateAddrAfterPage).out = s.out := rfl
@[simp] theorem State.updateAddrAfterPage_inputs (s : State) : (s.updateAddrAfterPage).inputs = s.inputs := rfl

@[simp] theorem State.withFetchWord_cfg (s : State) (nbits w : Nat) : (s.withFetchWord nbits w).cfg = s.cfg := rfl
@[simp] theorem State.withFetchWord_cmd (s : State) (nbits w : Nat) : (s.withFetchWord nbits w).cmd = s.cmd := rfl
@[simp] theorem State.withFetchWord_addr (s : State) (nbits w : Nat) : (s.withFetchWord nbits w).addr = s.addr := rfl
@[simp] theorem State.withFetchWord_pos (s : State) (nbits w : Nat) : (s.withFetchWord nbits w).pos = s.pos := rfl
@[simp] theorem State.withFetchWord_rpos (s : State) (nbits w : Nat) : (s.withFetchWord nbits w).rpos = s.rpos := rfl
@[simp] theorem State.withFetchWord_buf (s : State) (nbits w : Nat) : (s.withFetchWord nbits w).buf = s.buf := rfl
@[simp] theorem State.withFetchWord_ctr (s : State) (nbits w : Nat) : (s.withFetchWord nbits w).ctr = s.ctr := rfl
@[simp] theorem State.withFetchWord_phase (s : State) (nbits w : Nat) : (s.withFetchWord nbits w).phase = s.phase := rfl
@[simp] theorem State.withFetchWord_flash (s : State) (nbits w : Nat) : (s.withFetchWord nbits w).flash = s.flash := rfl
@[simp] theorem State.withFetchWord_ee (s : State) (nbits w : Nat) : (s.withFetchWord nbits w).ee = s.ee := rfl
@[simp] theorem State.withFetchWord_faults (s : State) (nbits w : Nat) : (s.withFetchWord nbits w).faults = s.faults := rfl
@[simp] theorem State.withFetchWord_handedOff (s : State) (nbits w : Nat) : (s.withFetchWord nbits w).handedOff = s.handedOff := rfl
@[simp] theorem State.withFetchWord_out (s : State) (nbits w : Nat) : (s.withFetchWord nbits w).out = s.out := rfl
@[simp] theorem State.withFetchWord_inputs (s : State) (nbits w : Nat) : (s.withFetchWord nbits w).inputs = .event (BitVec.ofNat 12 (w % 2 ^ nbits)) :: s.inputs := rfl

@[simp] theorem State.resetWith_cfg (cfg : Config) (addr : Addr) (buf : List Byte) (flash ee : Memory) :
    (State.resetWith cfg addr buf flash ee).cfg = cfg := rfl
@[simp] theorem State.resetWith_cmd (cfg : Config) (addr : Addr) (buf : List Byte) (flash ee : Memory) :
    (State.resetWith cfg addr buf flash ee).cmd = .wait := rfl
@[simp] theorem State.resetWith_addr (cfg : Config) (addr : Addr) (buf : List Byte) (flash ee : Memory) :
    (State.resetWith cfg addr buf flash ee).addr = addr := rfl
@[simp] theorem State.resetWith_pos (cfg : Config) (addr : Addr) (buf : List Byte) (flash ee : Memory) :
    (State.resetWith cfg addr buf flash ee).pos = 0 := rfl
@[simp] theorem State.resetWith_rpos (cfg : Config) (addr : Addr) (buf : List Byte) (flash ee : Memory) :
    (State.resetWith cfg addr buf flash ee).rpos = 0 := rfl
@[simp] theorem State.resetWith_buf (cfg : Config) (addr : Addr) (buf : List Byte) (flash ee : Memory) :
    (State.resetWith cfg addr buf flash ee).buf = buf := rfl
@[simp] theorem State.resetWith_ctr (cfg : Config) (addr : Addr) (buf : List Byte) (flash ee : Memory) :
    (State.resetWith cfg addr buf flash ee).ctr = cfg.t0 := rfl
@[simp] theorem State.resetWith_phase (cfg : Config) (addr : Addr) (buf : List Byte) (flash ee : Memory) :
    (State.resetWith cfg addr buf flash ee).phase = .idle := rfl
@[simp] theorem State.resetWith_flash (cfg : Config) (addr : Addr) (buf : List Byte) (flash ee : Memory) :
    (State.resetWith cfg addr buf flash ee).flash = flash := rfl
@[simp] theorem State.resetWith_ee (cfg : Config) (addr : Addr) (buf : List Byte) (flash ee : Memory) :
    (State.resetWith cfg addr buf flash ee).ee = ee := rfl
@[simp] theorem State.resetWith_faults (cfg : Config) (addr : Addr) (buf : List Byte) (flash ee : Memory) :
    (State.resetWith cfg addr buf flash ee).faults = [] := rfl
@[simp] theorem State.resetWith_handedOff (cfg : Config) (addr : Addr) (buf : List Byte) (flash ee : Memory) :
    (State.resetWith cfg addr buf flash ee).handedOff = false := rfl
@[simp] theorem State.resetWith_out (cfg : Config) (addr : Addr) (buf : List Byte) (flash ee : Memory) :
    (State.resetWith cfg addr buf flash ee).out = Outputs.quiet := rfl
@[simp] theorem State.resetWith_inputs (cfg : Config) (addr : Addr) (buf : List Byte) (flash ee : Memory) :
    (State.resetWith cfg addr buf flash ee).inputs = [] := rfl

end Sys2Proof.Machine
end

