-- ==== Sys2Proof/Laws/Ops.lean ====
section
/-! SUPPORT. What each shared operation of a step can do, said once: the step and the fetch, an agent's step, the guards of
`EV_RX` and `EV_TX_REQ`, the ends of the two paths, and the rows. -/

namespace Sys2Proof.Machine

/-! ### The step -/

/-- A step takes the next input item and runs its instruction. -/
theorem step_cons {s : State} {i : Input} {rest : List Input} (h : s.inputs = i :: rest) :
    step s = exec (decodeInput i) { s with inputs := rest } := by
  simp only [step, fetch, h]

/-- With no input a step is the wait. -/
theorem step_nil {s : State} (h : s.inputs = []) : step s = waitForEvent s := by
  simp only [step, fetch, h]

/-! ### An agent's step -/

/-- Where agents have steps, an agent's step is its body over undriven outputs. -/
theorem agentStep_ready {s : State} (h : s.Ready) (body : State → Host.Outcome State Fault Refusal) :
    agentStep s body = body { s with out := Outputs.quiet } := by
  rw [agentStep, if_neg (not_not.2 h.1), if_neg (by simp [h.2.1]), if_neg (by simp [h.2.2])]

/-- Everything an agent's step can be. -/
theorem agentStep_cases (s : State) (body : State → Host.Outcome State Fault Refusal) :
    (¬ s.cfg.wf ∧ agentStep s body = .refused .illegalConfiguration) ∨
    (s.cfg.wf ∧ s.faults ≠ [] ∧ agentStep s body = .fault .stoppedByModelFault) ∨
    (s.cfg.wf ∧ s.faults = [] ∧ s.handedOff = true ∧ agentStep s body = .fault .stoppedByHandOff) ∨
    (s.Ready ∧ agentStep s body = body { s with out := Outputs.quiet }) := by
  by_cases hc : s.cfg.wf
  · by_cases hf : s.faults = []
    · by_cases hh : s.handedOff = true
      · refine .inr (.inr (.inl ⟨hc, hf, hh, ?_⟩))
        rw [agentStep, if_neg (not_not.2 hc), if_neg (by simp [hf]), if_pos hh]
      · have hr : s.Ready := ⟨hc, hf, by simpa using hh⟩
        exact .inr (.inr (.inr ⟨hr, agentStep_ready hr body⟩))
    · refine .inr (.inl ⟨hc, hf, ?_⟩)
      rw [agentStep, if_neg (not_not.2 hc), if_pos hf]
  · exact .inl ⟨hc, by rw [agentStep, if_pos hc]⟩

/-- An agent's step answers a next state only where agents have steps. -/
theorem agentStep_next {s t : State} {body : State → Host.Outcome State Fault Refusal}
    (h : agentStep s body = .next t) : s.Ready ∧ body { s with out := Outputs.quiet } = .next t := by
  rcases agentStep_cases s body with ⟨-, e⟩ | ⟨-, -, e⟩ | ⟨-, -, -, e⟩ | ⟨hr, e⟩
  · rw [e] at h; cases h
  · rw [e] at h; cases h
  · rw [e] at h; cases h
  · exact ⟨hr, e ▸ h⟩

/-- The first model fault of a run is the whole of `FAULTS`. -/
theorem raise_ready {s : State} (h : s.faults = []) (r : ModelFault) :
    s.raise r = { s with faults := [r] } := by
  simp [State.raise, h]

/-! ### The guards of `EV_RX` and `EV_TX_REQ` -/

/-- While receiving, `EV_RX` reaches its body. -/
theorem onReceive_receiving {s : State} (h : s.Receiving) (body : State → Host.Outcome State Fault Refusal) :
    onReceive s body = body { s with out := Outputs.quiet } := by
  rw [onReceive, agentStep_ready h.1]
  simp [h.2.1, h.2.2]

/-- Outside `RX`, `EV_RX` records its model fault (41_protocol_fsm.md R178). -/
theorem onReceive_outOfPhase {s : State} (h : s.Ready) (hp : s.phase ≠ .rx)
    (body : State → Host.Outcome State Fault Refusal) :
    onReceive s body = .next { s with out := Outputs.quiet, faults := [.outOfPhaseEvent] } := by
  rw [onReceive, agentStep_ready h]
  simp [hp, State.raise, h.2.1]

/-- Under `CMD` = 7, `EV_RX` records its model fault (10_state.md R33). -/
theorem onReceive_cmdUnreachable {s : State} (h : s.Ready) (hp : s.phase = .rx) (hc : s.cmd = .unreachable)
    (body : State → Host.Outcome State Fault Refusal) :
    onReceive s body = .next { s with out := Outputs.quiet, faults := [.cmdUnreachable] } := by
  rw [onReceive, agentStep_ready h]
  simp [hp, hc, State.raise, h.2.1]

/-- Everything `EV_RX` can answer as a next state: a model fault and nothing else, or its body's answer while receiving. -/
theorem onReceive_next {s t : State} {body : State → Host.Outcome State Fault Refusal} (h : onReceive s body = .next t) :
    s.Ready ∧ ((∃ r, (r = .outOfPhaseEvent ∧ s.phase ≠ .rx ∨ r = .cmdUnreachable ∧ s.cmd = .unreachable) ∧
        t = { s with out := Outputs.quiet, faults := [r] }) ∨
      (s.Receiving ∧ body { s with out := Outputs.quiet } = .next t)) := by
  have hr := (agentStep_next h).1
  refine ⟨hr, ?_⟩
  by_cases hp : s.phase = .rx
  · by_cases hc : s.cmd = .unreachable
    · rw [onReceive_cmdUnreachable hr hp hc] at h
      cases h
      exact .inl ⟨_, .inr ⟨rfl, hc⟩, rfl⟩
    · rw [onReceive_receiving ⟨hr, hp, hc⟩] at h
      exact .inr ⟨⟨hr, hp, hc⟩, h⟩
  · rw [onReceive_outOfPhase hr hp] at h
    cases h
    exact .inl ⟨_, .inl ⟨rfl, hp⟩, rfl⟩

/-- While transmitting, `EV_TX_REQ` reaches its body. -/
theorem onRequest_transmitting {s : State} (h : s.Transmitting) (body : State → Host.Outcome State Fault Refusal) :
    onRequest s body = body { s with out := Outputs.quiet } := by
  rw [onRequest, agentStep_ready h.1]
  simp [h.2.1, h.2.2]

/-- Outside `TX`, `EV_TX_REQ` records its model fault (41_protocol_fsm.md R178). -/
theorem onRequest_outOfPhase {s : State} (h : s.Ready) (hp : s.phase ≠ .tx)
    (body : State → Host.Outcome State Fault Refusal) :
    onRequest s body = .next { s with out := Outputs.quiet, faults := [.outOfPhaseEvent] } := by
  rw [onRequest, agentStep_ready h]
  simp [hp, State.raise, h.2.1]

/-- Under `CMD` = 7, `EV_TX_REQ` records its model fault (10_state.md R33). -/
theorem onRequest_cmdUnreachable {s : State} (h : s.Ready) (hp : s.phase = .tx) (hc : s.cmd = .unreachable)
    (body : State → Host.Outcome State Fault Refusal) :
    onRequest s body = .next { s with out := Outputs.quiet, faults := [.cmdUnreachable] } := by
  rw [onRequest, agentStep_ready h]
  simp [hp, hc, State.raise, h.2.1]

/-- Everything `EV_TX_REQ` can answer as a next state: a model fault and nothing else, or its body's answer while
transmitting. -/
theorem onRequest_next {s t : State} {body : State → Host.Outcome State Fault Refusal} (h : onRequest s body = .next t) :
    s.Ready ∧ ((∃ r, (r = .outOfPhaseEvent ∧ s.phase ≠ .tx ∨ r = .cmdUnreachable ∧ s.cmd = .unreachable) ∧
        t = { s with out := Outputs.quiet, faults := [r] }) ∨
      (s.Transmitting ∧ body { s with out := Outputs.quiet } = .next t)) := by
  have hr := (agentStep_next h).1
  refine ⟨hr, ?_⟩
  by_cases hp : s.phase = .tx
  · by_cases hc : s.cmd = .unreachable
    · rw [onRequest_cmdUnreachable hr hp hc] at h
      cases h
      exact .inl ⟨_, .inr ⟨rfl, hc⟩, rfl⟩
    · rw [onRequest_transmitting ⟨hr, hp, hc⟩] at h
      exact .inr ⟨⟨hr, hp, hc⟩, h⟩
  · rw [onRequest_outOfPhase hr hp] at h
    cases h
    exact .inl ⟨_, .inl ⟨rfl, hp⟩, rfl⟩

/-! ### The ends of the two paths -/

/-- Everything the end of an `EV_RX` step can be. -/
theorem finishReceive_next {p : PathResult Ack} {s t : State} (h : finishReceive p s = .next t) :
    (∃ a u, p = .answer a u ∧
      t = { u with pos := posAfter u.cfg u.pos a, out := { Outputs.quiet with ack := some a } }) ∨
    (∃ r, p = .raise r ∧ t = s.raise r) := by
  cases p with
  | answer a u => cases h; exact .inl ⟨a, u, rfl, rfl⟩
  | raise r => cases h; exact .inr ⟨r, rfl, rfl⟩

/-- Everything the end of an `EV_TX_REQ` step can be. -/
theorem finishRequest_next {p : PathResult Byte} {s t : State} (h : finishRequest p s = .next t) :
    (∃ v u, p = .answer v u ∧ t = { u with rpos := u.rpos + 1, out := { Outputs.quiet with txd := some v } }) ∨
    (∃ r, p = .raise r ∧ t = s.raise r) := by
  cases p with
  | answer v u => cases h; exact .inl ⟨v, u, rfl, rfl⟩
  | raise r => cases h; exact .inr ⟨r, rfl, rfl⟩

/-! ### The rows -/

/-- While receiving, a frame row whose condition holds runs its effect to the end of the `EV_RX` step. -/
theorem frameRow_selected {s : State} {selected : State → Bool} (effect : State → PathResult Ack) (h : s.Receiving)
    (hs : selected { s with out := Outputs.quiet } = true) :
    frameRow selected effect s =
      finishReceive (effect { s with out := Outputs.quiet }) { s with out := Outputs.quiet } := by
  rw [frameRow, onReceive_receiving h, if_pos hs]

/-- While transmitting, a read row whose condition holds runs its effect to the end of the `EV_TX_REQ` step. -/
theorem readRow_selected {s : State} {selected : State → Bool} (effect : State → PathResult Byte) (h : s.Transmitting)
    (hs : selected { s with out := Outputs.quiet } = true) :
    readRow selected effect s =
      finishRequest (effect { s with out := Outputs.quiet }) { s with out := Outputs.quiet } := by
  rw [readRow, onRequest_transmitting h, if_pos hs]

/-- Everything a frame row can answer as a next state. -/
theorem frameRow_next {s t : State} {selected : State → Bool} {effect : State → PathResult Ack}
    (h : frameRow selected effect s = .next t) :
    s.Ready ∧ ((∃ r, t = { s with out := Outputs.quiet, faults := [r] }) ∨
      (s.Receiving ∧ selected { s with out := Outputs.quiet } = true ∧
        ∃ a u, effect { s with out := Outputs.quiet } = .answer a u ∧
          t = { u with pos := posAfter u.cfg u.pos a, out := { Outputs.quiet with ack := some a } })) := by
  obtain ⟨hr, ⟨r, -, rfl⟩ | ⟨hv, hb⟩⟩ := onReceive_next h
  · exact ⟨hr, .inl ⟨r, rfl⟩⟩
  · refine ⟨hr, ?_⟩
    split at hb
    · rename_i hs
      obtain ⟨a, u, he, rfl⟩ | ⟨r, -, rfl⟩ := finishReceive_next hb
      · exact .inr ⟨hv, hs, a, u, he, rfl⟩
      · exact .inl ⟨r, by rw [raise_ready (by simpa using hr.2.1)]⟩
    · cases hb

/-- Everything a read row can answer as a next state. -/
theorem readRow_next {s t : State} {selected : State → Bool} {effect : State → PathResult Byte}
    (h : readRow selected effect s = .next t) :
    s.Ready ∧ ((∃ r, t = { s with out := Outputs.quiet, faults := [r] }) ∨
      (s.Transmitting ∧ selected { s with out := Outputs.quiet } = true ∧
        ∃ v u, effect { s with out := Outputs.quiet } = .answer v u ∧
          t = { u with rpos := u.rpos + 1, out := { Outputs.quiet with txd := some v } })) := by
  obtain ⟨hr, ⟨r, -, rfl⟩ | ⟨hv, hb⟩⟩ := onRequest_next h
  · exact ⟨hr, .inl ⟨r, rfl⟩⟩
  · refine ⟨hr, ?_⟩
    split at hb
    · rename_i hs
      obtain ⟨v, u, he, rfl⟩ | ⟨r, -, rfl⟩ := finishRequest_next hb
      · exact .inr ⟨hv, hs, v, u, he, rfl⟩
      · exact .inl ⟨r, by rw [raise_ready (by simpa using hr.2.1)]⟩
    · cases hb

end Sys2Proof.Machine
end

