-- ==== Sys2Proof/Laws/PerInstr.lean ====
section
/-! SUPPORT. The family `EncodedWord`: the word that delivers an instruction has the match bits of the instruction's row
under the row's mask (the opcode table's columns match and mask). One lemma per constructor. -/

namespace Sys2Proof.Laws.EncodedWord

/-- The columns match and mask of a row of the opcode table; `HANDOFF` has none. -/
def row : Instr → Option (EventWord × EventWord)
  | .evAddrW => some (0x000, 0xF00)
  | .evAddrR => some (0x100, 0xF00)
  | .evRx _ => some (0x200, 0xF00)
  | .evTxReq => some (0x300, 0xF00)
  | .evStop => some (0x400, 0xF00)
  | .evBusError => some (0x500, 0xF00)
  | .evTick => some (0x600, 0xF00)
  | .evReserved7 => some (0x700, 0xF00)
  | .evReserved8F => some (0x800, 0x800)
  | .handOff => none
  | .opWait => some (0x200, 0xFFF)
  | .opVersion => some (0x201, 0xFFF)
  | .opMemory => some (0x202, 0xFFF)
  | .opUnknown _ => some (0x200, 0xF00)
  | .switchApp _ => some (0x200, 0xF00)
  | .kindChipinfo => some (0x200, 0xFFF)
  | .kindFlash => some (0x201, 0xFFF)
  | .kindEeprom => some (0x202, 0xFFF)
  | .kindBad _ => some (0x200, 0xF00)
  | .pos1Other _ => some (0x200, 0xF00)
  | .addrByte _ => some (0x200, 0xF00)
  | .writeFlashByte _ => some (0x200, 0xF00)
  | .writeEeByte _ => some (0x200, 0xF00)
  | .writeChipinfoByte _ => some (0x200, 0xF00)
  | .payloadOther _ => some (0x200, 0xF00)
  | .readVersion => some (0x300, 0xF00)
  | .readChipinfo => some (0x300, 0xF00)
  | .readFlash => some (0x300, 0xF00)
  | .readEeprom => some (0x300, 0xF00)
  | .readFiller => some (0x300, 0xF00)

/-- An instruction has a word exactly when its row has a match, and the word has those bits. -/
def Statement (i : Instr) : Prop :=
  (encode i).isSome = (row i).isSome ∧ ∀ w r, encode i = some w → row i = some r → w &&& r.2 = r.1

/-- The words of every byte under the frame rows' mask. -/
theorem rx_masked (data : Byte) : eventWord 2#4 data &&& 3840#12 = 512#12 := by
  revert data; decide

theorem evAddrW : Statement .evAddrW := by simp [Statement, encode, row]; decide
theorem evAddrR : Statement .evAddrR := by simp [Statement, encode, row]; decide
theorem evRx (data : Byte) : Statement (.evRx data) := by simp [Statement, encode, row, rx_masked]
theorem evTxReq : Statement .evTxReq := by simp [Statement, encode, row]; decide
theorem evStop : Statement .evStop := by simp [Statement, encode, row]; decide
theorem evBusError : Statement .evBusError := by simp [Statement, encode, row]; decide
theorem evTick : Statement .evTick := by simp [Statement, encode, row]; decide
theorem evReserved7 : Statement .evReserved7 := by simp [Statement, encode, row]; decide
theorem evReserved8F : Statement .evReserved8F := by simp [Statement, encode, row]; decide
theorem handOff : Statement .handOff := by simp [Statement, encode, row]
theorem opWait : Statement .opWait := by simp [Statement, encode, row]; decide
theorem opVersion : Statement .opVersion := by simp [Statement, encode, row]; decide
theorem opMemory : Statement .opMemory := by simp [Statement, encode, row]; decide
theorem opUnknown (data : Byte) : Statement (.opUnknown data) := by simp [Statement, encode, row, rx_masked]
theorem switchApp (data : Byte) : Statement (.switchApp data) := by simp [Statement, encode, row, rx_masked]
theorem kindChipinfo : Statement .kindChipinfo := by simp [Statement, encode, row]; decide
theorem kindFlash : Statement .kindFlash := by simp [Statement, encode, row]; decide
theorem kindEeprom : Statement .kindEeprom := by simp [Statement, encode, row]; decide
theorem kindBad (data : Byte) : Statement (.kindBad data) := by simp [Statement, encode, row, rx_masked]
theorem pos1Other (data : Byte) : Statement (.pos1Other data) := by simp [Statement, encode, row, rx_masked]
theorem addrByte (data : Byte) : Statement (.addrByte data) := by simp [Statement, encode, row, rx_masked]
theorem writeFlashByte (data : Byte) : Statement (.writeFlashByte data) := by simp [Statement, encode, row, rx_masked]
theorem writeEeByte (data : Byte) : Statement (.writeEeByte data) := by simp [Statement, encode, row, rx_masked]
theorem writeChipinfoByte (data : Byte) : Statement (.writeChipinfoByte data) := by
  simp [Statement, encode, row, rx_masked]
theorem payloadOther (data : Byte) : Statement (.payloadOther data) := by simp [Statement, encode, row, rx_masked]
theorem readVersion : Statement .readVersion := by simp [Statement, encode, row]; decide
theorem readChipinfo : Statement .readChipinfo := by simp [Statement, encode, row]; decide
theorem readFlash : Statement .readFlash := by simp [Statement, encode, row]; decide
theorem readEeprom : Statement .readEeprom := by simp [Statement, encode, row]; decide
theorem readFiller : Statement .readFiller := by simp [Statement, encode, row]; decide

end Sys2Proof.Laws.EncodedWord
end

