-- ==== Sys2Proof/Laws/Steps.lean ====
section
/-! SUPPORT. Everything a step can do, said once: the answers and the model faults of the write path and the read path, the
rows as the events they refine, and the next states of each event. Later proofs cite these and unfold no meaning. -/

namespace Sys2Proof.Machine

/-! ### The position below the last byte of a page -/

/-- In a legal configuration the position counts up to the last byte of a page (00_scope.md R7, 10_state.md R36). -/
theorem advancePos_inPage {c : Config} (h : c.wf) {pos : Nat} (hp : pos < c.pageSize + 3) :
    advancePos c pos = pos + 1 :=
  advancePos_of_lt (by have : c.pageSize + 3 < 2 ^ c.posWidth := h.2.2.2.2.2.2.2; omega)

/-- A payload position advances to a payload position, or wraps to 0 (10_state.md R36). -/
theorem advancePos_payload {c : Config} (h : c.wf) {p : Nat} (h4 : 4 ≤ p) (hp : p < 2 ^ c.posWidth) :
    advancePos c p = 0 ∨ 4 ≤ advancePos c p := by
  have h1 : c.pageSize + 3 < 2 ^ c.posWidth := h.2.2.2.2.2.2.2
  have h2 := pageSize_bounds h.1
  clear h
  unfold advancePos
  split
  · omega
  · by_cases h5 : p + 1 = 2 ^ c.posWidth
    · simp [h5]
    · rw [Nat.mod_eq_of_lt (by omega)]; omega

/-! ### A page commit -/

/-- A commit changes no byte outside the page containing its start Address (42_memory_backend.md R203). -/
theorem read_flashAfterCommit_other {c : Config} (hc : c.pageOk) (start : Addr) (buf : List Byte) (m : Memory) {a : Nat}
    (h : a < (pageBase c start).toNat ∨ (pageBase c start).toNat + c.pageSize ≤ a) :
    Memory.read (flashAfterCommit c start buf m) a = Memory.read m a := by
  simp only [flashAfterCommit]
  split
  · refine read_placeBytes_other _ _ _ _ _ _ fun i hi => ?_
    have := slot_lt hc start hi
    omega
  · rfl

/-- A commit that is not allowed changes nothing (42_memory_backend.md R202). -/
theorem flashAfterCommit_discarded {c : Config} {start : Addr} (h : commitAllowed c start = false) (buf : List Byte)
    (m : Memory) : flashAfterCommit c start buf m = m := by
  simp [flashAfterCommit, h]

/-! ### Every instruction is an agent's step -/

/-- Every instruction is one agent's step. -/
theorem exec_agentStep (i : Instr) (s : State) : ∃ body, exec i s = agentStep s body := by
  cases i <;>
    simp only [exec, execEvAddrW, execEvAddrR, execEvRx, execEvTxReq, execEvStop, execEvBusError, execEvTick,
      execEvReserved7, execEvReserved8F, execHandOff, execOpWait, execOpVersion, execOpMemory, execOpUnknown,
      execSwitchApp, execKindChipinfo, execKindFlash, execKindEeprom, execKindBad, execPos1Other, execAddrByte,
      execWriteFlashByte, execWriteEeByte, execWriteChipinfoByte, execPayloadOther, execReadVersion,
      execReadChipinfo, execReadFlash, execReadEeprom, execReadFiller, reservedEvent, frameRow, readRow, onReceive,
      onRequest] <;> exact ⟨_, rfl⟩

/-- An instruction has a next state in a ready state only. -/
theorem exec_ready {i : Instr} {s t : State} (h : exec i s = .next t) : s.Ready := by
  obtain ⟨body, hb⟩ := exec_agentStep i s
  exact (agentStep_next (hb ▸ h)).1

/-- With a model fault recorded no instruction has a step. -/
theorem exec_faulted {s : State} (hc : s.cfg.wf) (hf : s.faults ≠ []) (i : Instr) :
    exec i s = .fault .stoppedByModelFault := by
  obtain ⟨body, hb⟩ := exec_agentStep i s
  rw [hb, agentStep, if_neg (not_not.2 hc), if_pos hf]

/-- After the hand-off no instruction has a step. -/
theorem exec_handedOff {s : State} (hc : s.cfg.wf) (hf : s.faults = []) (hh : s.handedOff = true) (i : Instr) :
    exec i s = .fault .stoppedByHandOff := by
  obtain ⟨body, hb⟩ := exec_agentStep i s
  rw [hb, agentStep, if_neg (not_not.2 hc), if_neg (by simp [hf]), if_pos hh]

/-- A next state of a step: the wait, or the next input's instruction. -/
theorem step_next {s t : State} (h : step s = .next t) :
    (s.inputs = [] ∧ t = s) ∨
    (∃ i rest, s.inputs = i :: rest ∧ exec (decodeInput i) { s with inputs := rest } = .next t) := by
  cases hi : s.inputs with
  | nil =>
    rw [step_nil hi, waitForEvent] at h
    have := (agentStep_next h).2
    cases this
    exact .inl ⟨rfl, rfl⟩
  | cons i rest => exact .inr ⟨i, rest, rfl, step_cons hi ▸ h⟩

/-- A step has a next state in a ready state only. -/
theorem step_ready {s t : State} (h : step s = .next t) : s.Ready := by
  cases hi : s.inputs with
  | nil => exact (agentStep_next (step_nil hi ▸ h)).1
  | cons i rest => exact exec_ready (s := { s with inputs := rest }) (step_cons hi ▸ h)

/-! ### The write path -/

/-- A byte that is none of 0x00, 0x01, 0x02. -/
theorem three_le_of_ne {data : Byte} (h0 : data ≠ 0x00) (h1 : data ≠ 0x01) (h2 : data ≠ 0x02) : 3 ≤ data.toNat := by
  revert data; decide

/-- The write path's model faults (40_command_decoder.md R133, R134). -/
theorem writePath_raise {data : Byte} {s : State} {r : ModelFault} (h : writePath data s = .raise r) :
    (r = .posBeyondPage ∧ s.cmd = .flash ∧ 4 ≤ s.pos ∧ s.cfg.pageSize + 4 ≤ s.pos) ∨
    (r = .eeOutOfRange ∧ s.cmd = .eeprom ∧ 4 ≤ s.pos ∧ s.cfg.eeSize ≤ s.addr.toNat ∧ s.cfg.eeOor = .fault) := by
  unfold writePath at h
  split at h
  · simp only [posZero, opWaitEffect, opVersionEffect, opMemoryEffect, opUnknownEffect, recognizedOpcode] at h
    split at h; · cases h
    split at h; · cases h
    split at h <;> cases h
  · simp only [posOne, switchAppEffect, kindChipinfoEffect, kindFlashEffect, kindEepromEffect, kindBadEffect,
      pos1OtherEffect] at h
    split at h
    · split at h <;> cases h
    · split at h; · cases h
      split at h; · cases h
      split at h
      · split at h <;> cases h
      · cases h
    · cases h
  · simp only [addrByteEffect] at h; split at h <;> cases h
  · simp only [addrByteEffect] at h; split at h <;> cases h
  · rename_i h0 h1 h2 h3
    have h4 : 4 ≤ s.pos := by
      have : s.pos ≠ 0 ∧ s.pos ≠ 1 ∧ s.pos ≠ 2 ∧ s.pos ≠ 3 := ⟨h0, h1, h2, h3⟩
      omega
    simp only [posPayload] at h
    split at h
    · rename_i hc
      simp only [writeFlashByteEffect] at h
      split at h
      · cases h; exact .inl ⟨rfl, hc, h4, by omega⟩
      · split at h <;> cases h
    · rename_i hc
      simp only [writeEeByteEffect, eeAddr] at h
      split at h
      · rename_i e
        split at e
        · cases e
        · split at e
          · rename_i ho; cases e; cases h; exact .inr ⟨rfl, hc, h4, by omega, ho⟩
          · cases e
      · cases h
    · simp only [writeChipinfoByteEffect] at h; split at h <;> cases h
    · cases h

/-- The write path's answers, each with the state after its side effects (40_command_decoder.md R121-R136). -/
theorem writePath_answer {data : Byte} {s u : State} {a : Ack} (h : writePath data s = .answer a u) :
    (s.pos = 0 ∧ data.toNat < 3 ∧ a = .ack ∧
      ∃ c, (c = .wait ∨ c = .version ∨ c = .memory) ∧ u = { s with ctr := 0, cmd := c }) ∨
    (s.pos = 0 ∧ 3 ≤ data.toNat ∧ a = .nack ∧ u = { s with cmd := .bootApplication }) ∨
    (s.pos = 1 ∧ s.cmd = .version ∧ data = 0x80 ∧ a = .nack ∧ u = { s with cmd := .bootApplication }) ∨
    (s.pos = 1 ∧ s.cmd = .memory ∧ a = .ack ∧
      ∃ c, (c = .chipinfo ∨ c = .flash ∨ c = .eeprom ∧ s.cfg.eepromSupport = true) ∧ u = { s with cmd := c }) ∨
    (s.pos ≠ 0 ∧ (s.pos = 1 → s.cmd = .version → data ≠ 0x80) ∧ a = .nack ∧ u = s) ∨
    ((s.pos = 2 ∨ s.pos = 3) ∧ (s.cmd = .chipinfo ∨ s.cmd = .flash ∨ s.cmd = .eeprom) ∧ a = .ack ∧
      u = { s with addr := shiftIn s.addr data }) ∨
    (4 ≤ s.pos ∧ s.cmd = .flash ∧ s.pos - 4 < s.cfg.pageSize ∧ s.pos - 4 ≠ s.cfg.pageSize - 1 ∧ a = .ack ∧
      u = { s with buf := s.buf.set (s.pos - 4) data }) ∨
    (4 ≤ s.pos ∧ s.cmd = .flash ∧ s.pos - 4 < s.cfg.pageSize ∧ s.pos - 4 = s.cfg.pageSize - 1 ∧ a = .nack ∧
      u = { s with
        buf := s.buf.set (s.pos - 4) data
        flash := flashAfterCommit s.cfg s.addr (s.buf.set (s.pos - 4) data) s.flash
        addr := addrAfterPage s.cfg s.addr }) ∨
    (4 ≤ s.pos ∧ s.cmd = .eeprom ∧ a = .ack ∧
      ∃ i, eeAddr s.cfg s.addr = .ok i ∧ u = { s with ee := Memory.write s.ee i data, addr := s.addr + 1 }) ∨
    (4 ≤ s.pos ∧ s.cmd = .chipinfo ∧ s.cfg.chipinfoWritePayload = .ackDiscard ∧ a = .ack ∧ u = s) := by
  unfold writePath at h
  split at h
  · rename_i hp
    simp only [posZero, opWaitEffect, opVersionEffect, opMemoryEffect, opUnknownEffect, recognizedOpcode] at h
    split at h
    · subst_vars; cases h; exact .inl ⟨hp, by decide, rfl, _, .inl rfl, rfl⟩
    split at h
    · subst_vars; cases h; exact .inl ⟨hp, by decide, rfl, _, .inr (.inl rfl), rfl⟩
    split at h
    · subst_vars; cases h; exact .inl ⟨hp, by decide, rfl, _, .inr (.inr rfl), rfl⟩
    · cases h; exact .inr (.inl ⟨hp, three_le_of_ne ‹_› ‹_› ‹_›, rfl, rfl⟩)
  · rename_i hp
    simp only [posOne, switchAppEffect, kindChipinfoEffect, kindFlashEffect, kindEepromEffect, kindBadEffect,
      pos1OtherEffect] at h
    split at h
    · rename_i hc
      split at h <;> cases h
      · exact .inr (.inr (.inl ⟨hp, hc, ‹_›, rfl, rfl⟩))
      · exact .inr (.inr (.inr (.inr (.inl ⟨by omega, fun _ _ => ‹_›, rfl, rfl⟩))))
    · rename_i hc
      have hn : s.pos ≠ 0 ∧ (s.pos = 1 → s.cmd = .version → data ≠ 0x80) :=
        ⟨by omega, fun _ hv => by rw [hv] at hc; cases hc⟩
      split at h
      · cases h; exact .inr (.inr (.inr (.inl ⟨hp, hc, rfl, _, .inl rfl, rfl⟩)))
      split at h
      · cases h; exact .inr (.inr (.inr (.inl ⟨hp, hc, rfl, _, .inr (.inl rfl), rfl⟩)))
      split at h
      · split at h <;> cases h
        · exact .inr (.inr (.inr (.inl ⟨hp, hc, rfl, _, .inr (.inr ⟨rfl, ‹_›⟩), rfl⟩)))
        · exact .inr (.inr (.inr (.inr (.inl ⟨hn.1, hn.2, rfl, rfl⟩))))
      · cases h; exact .inr (.inr (.inr (.inr (.inl ⟨hn.1, hn.2, rfl, rfl⟩))))
    · rename_i hc _
      cases h; exact .inr (.inr (.inr (.inr (.inl ⟨by omega, fun _ hv => absurd hv hc, rfl, rfl⟩))))
  · rename_i hp
    simp only [addrByteEffect] at h
    split at h <;> cases h
    · exact .inr (.inr (.inr (.inr (.inr (.inl ⟨.inl hp, ‹_›, rfl, rfl⟩)))))
    · exact .inr (.inr (.inr (.inr (.inl ⟨by omega, fun h1 => by omega, rfl, rfl⟩))))
  · rename_i hp
    simp only [addrByteEffect] at h
    split at h <;> cases h
    · exact .inr (.inr (.inr (.inr (.inr (.inl ⟨.inr hp, ‹_›, rfl, rfl⟩)))))
    · exact .inr (.inr (.inr (.inr (.inl ⟨by omega, fun h1 => by omega, rfl, rfl⟩))))
  · rename_i h0 h1 h2 h3
    have h4 : 4 ≤ s.pos := by
      have : s.pos ≠ 0 ∧ s.pos ≠ 1 ∧ s.pos ≠ 2 ∧ s.pos ≠ 3 := ⟨h0, h1, h2, h3⟩
      omega
    simp only [posPayload] at h
    split at h
    · rename_i hc
      simp only [writeFlashByteEffect] at h
      split at h
      · cases h
      · rename_i hlt
        have hlt := Nat.lt_of_not_le hlt
        split at h <;> cases h
        · exact .inr (.inr (.inr (.inr (.inr (.inr (.inr (.inl ⟨h4, hc, hlt, ‹_›, rfl, rfl⟩)))))))
        · exact .inr (.inr (.inr (.inr (.inr (.inr (.inl ⟨h4, hc, hlt, ‹_›, rfl, rfl⟩))))))
    · rename_i hc
      simp only [writeEeByteEffect] at h
      split at h <;> cases h
      exact .inr (.inr (.inr (.inr (.inr (.inr (.inr (.inr (.inl ⟨h4, hc, rfl, _, ‹_›, rfl⟩))))))))
    · rename_i hc
      simp only [writeChipinfoByteEffect] at h
      split at h <;> cases h
      · exact .inr (.inr (.inr (.inr (.inr (.inr (.inr (.inr (.inr ⟨h4, hc, ‹_›, rfl, rfl⟩))))))))
      · exact .inr (.inr (.inr (.inr (.inl ⟨by omega, fun h1 => by omega, rfl, rfl⟩))))
    · cases h
      exact .inr (.inr (.inr (.inr (.inl ⟨by omega, fun h1 => by omega, rfl, rfl⟩))))

/-! ### The read path -/

/-- The read path's model faults (42_memory_backend.md R208, R210). -/
theorem readPath_raise {s : State} {r : ModelFault} (h : readPath s = .raise r) :
    (r = .flashOutOfRange ∧ s.cmd = .flash ∧ s.cfg.flashSize ≤ s.addr.toNat ∧ s.cfg.flashOor = .fault) ∨
    (r = .eeOutOfRange ∧ s.cmd = .eeprom ∧ s.cfg.eeSize ≤ s.addr.toNat ∧ s.cfg.eeOor = .fault) := by
  unfold readPath at h
  split at h
  · cases h
  · cases h
  · rename_i hc
    simp only [readFlashEffect, flashAddr] at h
    split at h
    · rename_i e
      split at e
      · cases e
      · split at e
        · rename_i ho; cases e; cases h; exact .inl ⟨rfl, hc, by omega, ho⟩
        · cases e
    · cases h
  · rename_i hc
    simp only [readEepromEffect, eeAddr] at h
    split at h
    · rename_i e
      split at e
      · cases e
      · split at e
        · rename_i ho; cases e; cases h; exact .inr ⟨rfl, hc, by omega, ho⟩
        · cases e
    · cases h
  · cases h

/-- The read path's answers: `ADDR` advances in the two memory reads, and nothing else changes
(40_command_decoder.md R141-R146). -/
theorem readPath_answer {s u : State} {v : Byte} (h : readPath s = .answer v u) :
    u = s ∨ ((s.cmd = .flash ∨ s.cmd = .eeprom) ∧ u = { s with addr := s.addr + 1 }) := by
  unfold readPath at h
  split at h
  · cases h; exact .inl rfl
  · cases h; exact .inl rfl
  · rename_i hc
    simp only [readFlashEffect] at h
    split at h <;> cases h
    exact .inr ⟨.inl hc, rfl⟩
  · rename_i hc
    simp only [readEepromEffect] at h
    split at h <;> cases h
    exact .inr ⟨.inr hc, rfl⟩
  · cases h; exact .inl rfl

/-! ### The next states of each event -/

/-- The next state of a received byte: a model fault recorded, or an answer of the write path with the position after it. -/
theorem execEvRx_next {data : Byte} {s t : State} (h : exec (.evRx data) s = .next t) :
    s.Ready ∧ ((∃ r, t = { s with out := Outputs.quiet, faults := [r] } ∧
        (r = .outOfPhaseEvent ∧ s.phase ≠ .rx ∨ r = .cmdUnreachable ∧ s.cmd = .unreachable ∨
          s.Receiving ∧ writePath data { s with out := Outputs.quiet } = .raise r)) ∨
      (s.Receiving ∧ ∃ a u, writePath data { s with out := Outputs.quiet } = .answer a u ∧
        t = { u with pos := posAfter u.cfg u.pos a, out := { Outputs.quiet with ack := some a } })) := by
  obtain ⟨hr, ⟨r, hc, rfl⟩ | ⟨hv, hb⟩⟩ := onReceive_next h
  · exact ⟨hr, .inl ⟨r, rfl, by tauto⟩⟩
  · refine ⟨hr, ?_⟩
    obtain ⟨a, u, he, rfl⟩ | ⟨r, he, rfl⟩ := finishReceive_next hb
    · exact .inr ⟨hv, a, u, he, rfl⟩
    · exact .inl ⟨r, by rw [raise_ready (by simpa using hr.2.1)], .inr (.inr ⟨hv, he⟩)⟩

/-- The next state of a byte request: a model fault recorded, or an answer of the read path with `RPOS` advanced. -/
theorem execEvTxReq_next {s t : State} (h : exec .evTxReq s = .next t) :
    s.Ready ∧ ((∃ r, t = { s with out := Outputs.quiet, faults := [r] } ∧
        (r = .outOfPhaseEvent ∧ s.phase ≠ .tx ∨ r = .cmdUnreachable ∧ s.cmd = .unreachable ∨
          s.Transmitting ∧ readPath { s with out := Outputs.quiet } = .raise r)) ∨
      (s.Transmitting ∧ ∃ v u, readPath { s with out := Outputs.quiet } = .answer v u ∧
        t = { u with rpos := u.rpos + 1, out := { Outputs.quiet with txd := some v } })) := by
  obtain ⟨hr, ⟨r, hc, rfl⟩ | ⟨hv, hb⟩⟩ := onRequest_next h
  · exact ⟨hr, .inl ⟨r, rfl, by tauto⟩⟩
  · refine ⟨hr, ?_⟩
    obtain ⟨v, u, he, rfl⟩ | ⟨r, he, rfl⟩ := finishRequest_next hb
    · exact .inr ⟨hv, v, u, he, rfl⟩
    · exact .inl ⟨r, by rw [raise_ready (by simpa using hr.2.1)], .inr (.inr ⟨hv, he⟩)⟩

theorem execEvAddrW_next {s t : State} (h : exec .evAddrW s = .next t) :
    s.Ready ∧ t = { s with phase := .rx, pos := 0, out := Outputs.quiet } := by
  have hr := exec_ready h
  rw [show exec .evAddrW s = execEvAddrW s from rfl, execEvAddrW, agentStep_ready hr] at h
  cases h
  refine ⟨hr, ?_⟩
  simp only [State.endOpenTransaction, State.endTransaction]
  split <;> rfl

theorem execEvAddrR_next {s t : State} (h : exec .evAddrR s = .next t) :
    s.Ready ∧ t = { s with phase := .tx, rpos := 0, out := Outputs.quiet } := by
  have hr := exec_ready h
  rw [show exec .evAddrR s = execEvAddrR s from rfl, execEvAddrR, agentStep_ready hr] at h
  cases h
  refine ⟨hr, ?_⟩
  simp only [State.endOpenTransaction, State.endTransaction]
  split <;> rfl

theorem execEvStop_next {s t : State} (h : exec .evStop s = .next t) :
    s.Ready ∧ t = { s with phase := .idle, out := Outputs.quiet } := by
  have hr := exec_ready h
  rw [show exec .evStop s = execEvStop s from rfl, execEvStop, agentStep_ready hr] at h
  cases h
  exact ⟨hr, rfl⟩

theorem execEvBusError_next {s t : State} (h : exec .evBusError s = .next t) :
    s.Ready ∧ t = { s with phase := .idle, out := { Outputs.quiet with busReset := true } } := by
  have hr := exec_ready h
  rw [show exec .evBusError s = execEvBusError s from rfl, execEvBusError, agentStep_ready hr] at h
  cases h
  exact ⟨hr, rfl⟩

theorem execEvTick_next {s t : State} (h : exec .evTick s = .next t) :
    s.Ready ∧ ((1 < s.ctr ∧ t = { s with ctr := s.ctr - 1, out := Outputs.quiet }) ∨
      (s.ctr = 1 ∧ t = { s with cmd := .bootApplication, out := Outputs.quiet }) ∨
      (s.ctr = 0 ∧ t = { s with out := Outputs.quiet })) := by
  have hr := exec_ready h
  rw [show exec .evTick s = execEvTick s from rfl, execEvTick, agentStep_ready hr] at h
  refine ⟨hr, ?_⟩
  simp only at h
  split at h
  · cases h; exact .inl ⟨‹_›, rfl⟩
  · split at h
    · cases h; exact .inr (.inl ⟨‹_›, rfl⟩)
    · cases h; exact .inr (.inr ⟨by omega, rfl⟩)

theorem execEvReserved7_next {s t : State} (h : exec .evReserved7 s = .next t) :
    s.Ready ∧ t = { s with faults := [.reservedEvent], out := Outputs.quiet } := by
  have hr := exec_ready h
  rw [show exec .evReserved7 s = execEvReserved7 s from rfl, execEvReserved7, reservedEvent, agentStep_ready hr,
    raise_ready (by simpa using hr.2.1)] at h
  cases h
  exact ⟨hr, rfl⟩

theorem execEvReserved8F_next {s t : State} (h : exec .evReserved8F s = .next t) :
    s.Ready ∧ t = { s with faults := [.reservedEvent], out := Outputs.quiet } := execEvReserved7_next h

theorem execHandOff_next {s t : State} (h : exec .handOff s = .next t) :
    s.Ready ∧ s.cmd = .bootApplication ∧ t = { s with handedOff := true, out := Outputs.quiet } := by
  have hr := exec_ready h
  rw [show exec .handOff s = execHandOff s from rfl, execHandOff, agentStep_ready hr] at h
  simp only at h
  split at h
  · rename_i hb
    cases h
    exact ⟨hr, by simpa [State.bootNow] using hb, rfl⟩
  · cases h

/-! ### Rows and events -/

/-- The instructions an input can be: the event words' own rows and the hand-off. -/
def Instr.isEvent : Instr → Prop := fun i =>
  i = .evAddrW ∨ i = .evAddrR ∨ (∃ data, i = .evRx data) ∨ i = .evTxReq ∨ i = .evStop ∨ i = .evBusError ∨
    i = .evTick ∨ i = .evReserved7 ∨ i = .evReserved8F ∨ i = .handOff

/-- An input is one of the event words' rows or the hand-off. -/
theorem decodeInput_isEvent (x : Input) : Instr.isEvent (decodeInput x) := by
  unfold Instr.isEvent
  cases x with
  | handOff => simp [decodeInput]
  | event w =>
    simp only [decodeInput, decodeEvent]
    split <;> simp

/-- The next states of an input's instruction: one case for each event, one for every model fault. -/
theorem exec_input_next {s t : State} {x : Input} (h : exec (decodeInput x) s = .next t) :
   (decodeInput x = .evAddrW ∧ t = { s with phase := .rx, pos := 0, out := Outputs.quiet }) ∨
   (decodeInput x = .evAddrR ∧ t = { s with phase := .tx, rpos := 0, out := Outputs.quiet }) ∨
   (decodeInput x = .evStop ∧ t = { s with phase := .idle, out := Outputs.quiet }) ∨
   (decodeInput x = .evBusError ∧ t = { s with phase := .idle, out := { Outputs.quiet with busReset := true } }) ∨
   (decodeInput x = .evTick ∧ ((1 < s.ctr ∧ t = { s with ctr := s.ctr - 1, out := Outputs.quiet }) ∨
      (s.ctr = 1 ∧ t = { s with cmd := .bootApplication, out := Outputs.quiet }) ∨
      (s.ctr = 0 ∧ t = { s with out := Outputs.quiet }))) ∨
   (decodeInput x = .handOff ∧ s.cmd = .bootApplication ∧ t = { s with handedOff := true, out := Outputs.quiet }) ∨
   (∃ r, t = { s with out := Outputs.quiet, faults := [r] } ∧ (r = .reservedEvent ∨ r = .outOfPhaseEvent ∨ r = .cmdUnreachable ∧ s.cmd = .unreachable ∨
      (r = .posBeyondPage ∧ s.cmd = .flash ∧ 4 ≤ s.pos ∧ s.cfg.pageSize + 4 ≤ s.pos) ∨ r = .flashOutOfRange ∨ r = .eeOutOfRange)) ∨
   (s.Transmitting ∧ decodeInput x = .evTxReq ∧ ∃ v u, readPath { s with out := Outputs.quiet } = .answer v u ∧
        t = { u with rpos := u.rpos + 1, out := { Outputs.quiet with txd := some v } }) ∨
   (s.Receiving ∧ ∃ data, decodeInput x = .evRx data ∧ ∃ a u, writePath data { s with out := Outputs.quiet } = .answer a u ∧
        t = { u with pos := posAfter u.cfg u.pos a, out := { Outputs.quiet with ack := some a } }) := by
  rcases decodeInput_isEvent x with e | e | ⟨d, e⟩ | e | e | e | e | e | e | e <;> rw [e] at h ⊢
  · exact .inl ⟨rfl, (execEvAddrW_next h).2⟩
  · exact .inr (.inl ⟨rfl, (execEvAddrR_next h).2⟩)
  · obtain ⟨-, ⟨r, rfl, hr⟩ | ⟨hv, a, u, hw, rfl⟩⟩ := execEvRx_next h
    · refine .inr (.inr (.inr (.inr (.inr (.inr (.inl ⟨r, rfl, ?_⟩))))))
      rcases hr with ⟨rfl, -⟩ | ⟨rfl, hc⟩ | ⟨-, hw⟩
      · exact .inr (.inl rfl)
      · exact .inr (.inr (.inl ⟨rfl, hc⟩))
      · obtain h1 | h1 := writePath_raise hw
        · exact .inr (.inr (.inr (.inl h1)))
        · exact .inr (.inr (.inr (.inr (.inr h1.1))))
    · exact .inr (.inr (.inr (.inr (.inr (.inr (.inr (.inr ⟨hv, d, rfl, a, u, hw, rfl⟩)))))))
  · obtain ⟨-, ⟨r, rfl, hr⟩ | ⟨hv, a, u, hw, rfl⟩⟩ := execEvTxReq_next h
    · refine .inr (.inr (.inr (.inr (.inr (.inr (.inl ⟨r, rfl, ?_⟩))))))
      rcases hr with ⟨rfl, -⟩ | ⟨rfl, hc⟩ | ⟨-, hw⟩
      · exact .inr (.inl rfl)
      · exact .inr (.inr (.inl ⟨rfl, hc⟩))
      · obtain h1 | h1 := readPath_raise hw
        · exact .inr (.inr (.inr (.inr (.inl h1.1))))
        · exact .inr (.inr (.inr (.inr (.inr h1.1))))
    · exact .inr (.inr (.inr (.inr (.inr (.inr (.inr (.inl ⟨hv, rfl, a, u, hw, rfl⟩)))))))
  · exact .inr (.inr (.inl ⟨rfl, (execEvStop_next h).2⟩))
  · exact .inr (.inr (.inr (.inl ⟨rfl, (execEvBusError_next h).2⟩)))
  · exact .inr (.inr (.inr (.inr (.inl ⟨rfl, (execEvTick_next h).2⟩))))
  · have := (execEvReserved7_next h).2
    exact .inr (.inr (.inr (.inr (.inr (.inr (.inl ⟨_, this, .inl rfl⟩))))))
  · have := (execEvReserved8F_next h).2
    exact .inr (.inr (.inr (.inr (.inr (.inr (.inl ⟨_, this, .inl rfl⟩))))))
  · exact .inr (.inr (.inr (.inr (.inr (.inl ⟨rfl, (execHandOff_next h).2⟩)))))

/-- A frame row that the frame decoder selects is the whole `EV_RX` step (40_command_decoder.md R120). -/
theorem execEvRx_eq_frameRow {s : State} {data : Byte} (selected : State → Bool) (effect : State → PathResult Ack)
    (hs : s.cmd ≠ .unreachable → selected { s with out := Outputs.quiet } = true)
    (he : s.cmd ≠ .unreachable →
      effect { s with out := Outputs.quiet } = writePath data { s with out := Outputs.quiet }) :
    execEvRx data s = frameRow selected effect s := by
  unfold frameRow execEvRx onReceive agentStep
  split; · rfl
  split; · rfl
  split; · rfl
  by_cases hc : s.cmd = .unreachable
  · simp [hc]
  · simp [hc, hs hc, he hc]

/-- A read row that the read decoder selects is the whole `EV_TX_REQ` step (40_command_decoder.md R140). -/
theorem execEvTxReq_eq_readRow {s : State} (selected : State → Bool) (effect : State → PathResult Byte)
    (hs : s.cmd ≠ .unreachable → selected { s with out := Outputs.quiet } = true)
    (he : s.cmd ≠ .unreachable → effect { s with out := Outputs.quiet } = readPath { s with out := Outputs.quiet }) :
    execEvTxReq s = readRow selected effect s := by
  unfold readRow execEvTxReq onRequest agentStep
  split; · rfl
  split; · rfl
  split; · rfl
  by_cases hc : s.cmd = .unreachable
  · simp [hc]
  · simp [hc, hs hc, he hc]

/-- Where a frame row has a next state, `EV_RX` has the same one. -/
theorem frameRow_next_evRx {s t : State} {data : Byte} {selected : State → Bool} {effect : State → PathResult Ack}
    (h : frameRow selected effect s = .next t)
    (he : selected { s with out := Outputs.quiet } = true →
      effect { s with out := Outputs.quiet } = writePath data { s with out := Outputs.quiet }) :
    exec (.evRx data) s = .next t := by
  obtain ⟨hr, ⟨r, hc, rfl⟩ | ⟨hv, hb⟩⟩ := onReceive_next h
  · show onReceive s _ = _
    by_cases hp : s.phase = .rx
    · obtain ⟨-, h2⟩ | ⟨rfl, h2⟩ := hc
      · exact absurd hp h2
      · exact onReceive_cmdUnreachable hr hp h2 _
    · obtain ⟨rfl, -⟩ | ⟨rfl, h2⟩ := hc
      · exact onReceive_outOfPhase hr hp _
      · rw [frameRow, onReceive_outOfPhase hr hp] at h
        rw [onReceive_outOfPhase hr hp]
        exact h
  · split at hb
    · rename_i hs
      show onReceive s _ = _
      rw [onReceive_receiving hv, ← he hs]
      exact hb
    · cases hb

/-- Where a read row has a next state, `EV_TX_REQ` has the same one. -/
theorem readRow_next_evTxReq {s t : State} {selected : State → Bool} {effect : State → PathResult Byte}
    (h : readRow selected effect s = .next t)
    (he : selected { s with out := Outputs.quiet } = true →
      effect { s with out := Outputs.quiet } = readPath { s with out := Outputs.quiet }) :
    exec .evTxReq s = .next t := by
  obtain ⟨hr, ⟨r, hc, rfl⟩ | ⟨hv, hb⟩⟩ := onRequest_next h
  · show onRequest s _ = _
    by_cases hp : s.phase = .tx
    · obtain ⟨-, h2⟩ | ⟨rfl, h2⟩ := hc
      · exact absurd hp h2
      · exact onRequest_cmdUnreachable hr hp h2 _
    · obtain ⟨rfl, -⟩ | ⟨rfl, h2⟩ := hc
      · exact onRequest_outOfPhase hr hp _
      · rw [readRow, onRequest_outOfPhase hr hp] at h
        rw [onRequest_outOfPhase hr hp]
        exact h
  · split at hb
    · rename_i hs
      show onRequest s _ = _
      rw [onRequest_transmitting hv, ← he hs]
      exact hb
    · cases hb

end Sys2Proof.Machine
end

