-- ==== Sys2Proof/Laws/Runs.lean ====
section
/-! SUPPORT. Runs over several inputs: observations composed, and the single steps of the inputs that a transaction script
expands to (30_encoding.md R106), each in a state where the block serves. -/

namespace Sys2Proof.Machine

/-- One step as an observation. -/
theorem observe_one {s t : State} (h : step s = .next t) : observe 1 s = some (t, [t.out]) := by
  simp [observe, h]

/-- Two observations in a row are one. -/
theorem observe_trans {n m : Nat} {s t u : State} {o p : List Outputs} (h : observe n s = some (t, o))
    (h2 : observe m t = some (u, p)) : observe (m + n) s = some (u, o ++ p) := by
  induction n generalizing s o with
  | zero => cases h; simpa using h2
  | succ n ih =>
    rw [observe] at h
    rw [show m + (n + 1) = (m + n) + 1 from rfl, observe]
    split at h
    · cases hq : observe n _ with
      | none => rw [hq] at h; cases h
      | some r =>
        rw [hq] at h
        cases h
        rw [ih hq]; rfl
    · cases h
    · cases h

theorem step_addrW {s : State} {rest : List Input} (h : s.Ready) (hi : s.inputs = addrWInput :: rest) :
    step s = .next { s with phase := .rx, pos := 0, out := Outputs.quiet, inputs := rest } := by
  rw [step_cons hi, show decodeInput addrWInput = .evAddrW from by decide]
  show execEvAddrW { s with inputs := rest } = _
  rw [execEvAddrW, agentStep_ready (s := { s with inputs := rest }) h]
  simp only [State.endOpenTransaction, State.endTransaction]
  split <;> rfl

theorem step_addrR {s : State} {rest : List Input} (h : s.Ready) (hi : s.inputs = addrRInput :: rest) :
    step s = .next { s with phase := .tx, rpos := 0, out := Outputs.quiet, inputs := rest } := by
  rw [step_cons hi, show decodeInput addrRInput = .evAddrR from by decide]
  show execEvAddrR { s with inputs := rest } = _
  rw [execEvAddrR, agentStep_ready (s := { s with inputs := rest }) h]
  simp only [State.endOpenTransaction, State.endTransaction]
  split <;> rfl

theorem step_stop {s : State} {rest : List Input} (h : s.Ready) (hi : s.inputs = stopInput :: rest) :
    step s = .next { s with phase := .idle, out := Outputs.quiet, inputs := rest } := by
  rw [step_cons hi, show decodeInput stopInput = .evStop from by decide]
  show execEvStop { s with inputs := rest } = _
  rw [execEvStop, agentStep_ready (s := { s with inputs := rest }) h]
  rfl

/-- A received byte that the write path answers. -/
theorem step_rx {s u : State} {data : Byte} {a : Ack} {rest : List Input} (h : s.Receiving)
    (hi : s.inputs = rxInput data :: rest)
    (hw : writePath data { s with out := Outputs.quiet, inputs := rest } = .answer a u) :
    step s = .next { u with pos := posAfter u.cfg u.pos a, out := { Outputs.quiet with ack := some a } } := by
  rw [step_cons hi, show decodeInput (rxInput data) = .evRx data from by rw [rxInput, decodeInput, decodeEvent_rx]]
  show onReceive { s with inputs := rest } _ = _
  rw [onReceive_receiving (s := { s with inputs := rest }) h, hw]
  rfl

/-- A requested byte that the read path answers. -/
theorem step_txReq {s u : State} {v : Byte} {rest : List Input} (h : s.Transmitting)
    (hi : s.inputs = txReqInput :: rest)
    (hw : readPath { s with out := Outputs.quiet, inputs := rest } = .answer v u) :
    step s = .next { u with rpos := u.rpos + 1, out := { Outputs.quiet with txd := some v } } := by
  rw [step_cons hi, show decodeInput txReqInput = .evTxReq from by decide]
  show onRequest { s with inputs := rest } _ = _
  rw [onRequest_transmitting (s := { s with inputs := rest }) h, hw]
  rfl

/-- A tick: above 1 the countdown goes on, at 1 the boot is forced, at 0 nothing happens (43_boot_arbiter.md R231). -/
theorem step_tick {s : State} {rest : List Input} (h : s.Ready) (hi : s.inputs = tickInput :: rest) :
    step s = if 1 < s.ctr then .next { s with ctr := s.ctr - 1, out := Outputs.quiet, inputs := rest }
      else if s.ctr = 1 then .next { s with cmd := .bootApplication, out := Outputs.quiet, inputs := rest }
      else .next { s with out := Outputs.quiet, inputs := rest } := by
  rw [step_cons hi, show decodeInput tickInput = .evTick from by decide]
  show execEvTick { s with inputs := rest } = _
  rw [execEvTick, agentStep_ready (s := { s with inputs := rest }) h]

end Sys2Proof.Machine
end

