-- ==== Sys2Proof/Tests/Slice0.lean ====
section
/-! SUPPORT. Tests of the model's own work: the legal parameters and well-formed instructions, every row's word written out
from the spec's encoding, the memories, one step of each row against the rules and the vectors of 95_test_vectors.md, and for
every obligation with hypotheses a state that meets them. Expected results come from the spec or by hand from its rules. -/

open Sys2Proof Sys2Proof.Machine

namespace Sys2Proof.Tests

/-! ### The builders -/

/-- A small configuration: a page of 2 bytes, 8 bytes of program memory of which 4 belong to the bootloader, 4 bytes of data
memory, an identity of 2 bytes, positions of 3 bits. -/
def small : Config := { Config.exampleConfig with
  pageSize := 2, flashSize := 8, bootStart := 4, eeSize := 4, ident := [0x54, 0x57], t0 := 3, ctrWidth := 2, posWidth := 3 }

/-- The small machine in a phase, under a Command, at a position. -/
def at_ (phase : Phase) (cmd : Cmd) (pos : Nat) : State :=
  { State.resetWith small 0 [0, 0] [] [] with phase := phase, cmd := cmd, pos := pos }

/-- The example machine of 95_test_vectors.md receiving, under a Command, at a position, `ADDR` drawn as 0xABCD. -/
def rx (cmd : Cmd) (pos : Nat) : State :=
  { State.reset with phase := .rx, cmd := cmd, pos := pos, addr := 0xABCD }

/-- The example machine transmitting, under a Command, at a read position. -/
def tx (cmd : Cmd) (rpos : BitVec 8) : State :=
  { State.reset with phase := .tx, cmd := cmd, rpos := rpos, addr := 0xABCD }

/-- What a step shows of the registers a frame byte writes. -/
def shown (o : Host.Outcome State Fault Refusal) : Option (Cmd × Nat × Nat × Option Ack) :=
  (nextState o).map fun t => (t.cmd, t.pos, t.ctr, t.out.ack)

/-- What a step shows of a read byte: the byte, `RPOS` and `ADDR`. -/
def shownRead (o : Host.Outcome State Fault Refusal) : Option (Option Byte × BitVec 8 × Addr) :=
  (nextState o).map fun t => (t.out.txd, t.rpos, t.addr)

theorem next_of_isSome {o : Host.Outcome State Fault Refusal} (h : (nextState o).isSome = true) (s : State) :
    o = .next ((nextState o).getD s) := by
  cases o with
  | next t => rfl
  | fault f => cases h
  | refused r => cases h

/-! ### Legal parameters and well-formed instructions -/

theorem test_config_small : small.wf := by decide
theorem test_config_example : Config.exampleConfig.wf := by decide
theorem test_config_page_not_power : ¬ Config.wf { small with pageSize := 3, flashSize := 9, bootStart := 3 } := by decide
theorem test_config_page_too_large : ¬ Config.pageOk { small with pageSize := 256 } := by decide
theorem test_config_flash_not_pages : ¬ Config.flashOk { small with flashSize := 7 } := by decide
theorem test_config_boot_not_aligned : ¬ Config.flashOk { small with bootStart := 3 } := by decide
theorem test_config_boot_above_flash : ¬ Config.flashOk { small with bootStart := 10 } := by decide
theorem test_config_boot_too_high : ¬ Config.flashOk { small with flashSize := 65536, bootStart := 65536 } := by decide
theorem test_config_ee_missing : ¬ Config.eeOk { small with eeSize := 0 } := by decide
theorem test_config_ee_unsupported : ¬ Config.eeOk { small with eepromSupport := false } := by decide
theorem test_config_ident_length : ¬ Config.identOk { small with ident := [0x54, 0x57, 0x49] } := by decide
theorem test_config_ctr_width : ¬ Config.countersOk { small with t0 := 4 } := by decide
theorem test_config_pos_width : ¬ Config.countersOk { small with posWidth := 2 } := by decide

theorem test_wf_unknown_opcode : Instr.wf (.opUnknown 0x03) = true := by decide
theorem test_illformed_unknown_opcode : Instr.wf (.opUnknown 0x02) = false := by decide
theorem test_wf_bad_kind : Instr.wf (.kindBad 0xFF) = true := by decide
theorem test_illformed_bad_kind : Instr.wf (.kindBad 0x01) = false := by decide

/-! ### Decoding: each row's word, bits [11:8] the code of 30_encoding.md R91, bits [7:0] the byte of R96-R100 -/

theorem test_decode_addr_w : decodeTableWord 16 0b000000000000 = some .evAddrW := by decide
theorem test_decode_addr_r : decodeTableWord 16 0b000100000000 = some .evAddrR := by decide
theorem test_decode_rx : decodeTableWord 16 0b001010101011 = some (.evRx 0xAB) := by decide
theorem test_decode_tx_req : decodeTableWord 16 0b001100000000 = some .evTxReq := by decide
theorem test_decode_stop : decodeTableWord 16 0b010000000000 = some .evStop := by decide
theorem test_decode_bus_error : decodeTableWord 16 0b010100000000 = some .evBusError := by decide
theorem test_decode_tick : decodeTableWord 16 0b011000000000 = some .evTick := by decide
theorem test_decode_reserved_7 : decodeTableWord 16 0b011100000000 = some .evReserved7 := by decide
theorem test_decode_reserved_8 : decodeTableWord 16 0b100000000000 = some .evReserved8F := by decide
theorem test_decode_reserved_f : decodeTableWord 16 0b111101010101 = some .evReserved8F := by decide
theorem test_decode_ignored_data : decodeTableWord 16 0b000011111111 = some .evAddrW := by decide
theorem test_decode_too_wide : decodeNumber 0b1000000000000 = .error .widerThanEventWord := by decide

theorem test_decode_op_wait : decodeRow .flash 0 0b001000000000 = .ok .opWait := by decide
theorem test_decode_op_version : decodeRow .bootApplication 0 0b001000000001 = .ok .opVersion := by decide
theorem test_decode_op_memory : decodeRow .wait 0 0b001000000010 = .ok .opMemory := by decide
theorem test_decode_op_unknown : decodeRow .wait 0 0b001010000000 = .ok (.opUnknown 0x80) := by decide
theorem test_decode_switch_app : decodeRow .version 1 0b001010000000 = .ok (.switchApp 0x80) := by decide
theorem test_decode_kind_chipinfo : decodeRow .memory 1 0b001000000000 = .ok .kindChipinfo := by decide
theorem test_decode_kind_flash : decodeRow .memory 1 0b001000000001 = .ok .kindFlash := by decide
theorem test_decode_kind_eeprom : decodeRow .memory 1 0b001000000010 = .ok .kindEeprom := by decide
theorem test_decode_kind_bad : decodeRow .memory 1 0b001000000011 = .ok (.kindBad 0x03) := by decide
theorem test_decode_pos1_other : decodeRow .wait 1 0b001000010001 = .ok (.pos1Other 0x11) := by decide
theorem test_decode_addr_hi : decodeRow .flash 2 0b001000010010 = .ok (.addrByte 0x12) := by decide
theorem test_decode_addr_lo : decodeRow .eeprom 3 0b001000110100 = .ok (.addrByte 0x34) := by decide
theorem test_decode_flash_byte : decodeRow .flash 4 0b001001011010 = .ok (.writeFlashByte 0x5A) := by decide
theorem test_decode_ee_byte : decodeRow .eeprom 255 0b001010111011 = .ok (.writeEeByte 0xBB) := by decide
theorem test_decode_chipinfo_byte : decodeRow .chipinfo 4 0b001001011010 = .ok (.writeChipinfoByte 0x5A) := by decide
theorem test_decode_payload_other : decodeRow .memory 4 0b001001011010 = .ok (.payloadOther 0x5A) := by decide
theorem test_decode_read_version : decodeRow .version 1 0b001100000000 = .ok .readVersion := by decide
theorem test_decode_read_chipinfo : decodeRow .chipinfo 2 0b001111111111 = .ok .readChipinfo := by decide
theorem test_decode_read_flash : decodeRow .flash 4 0b001100000000 = .ok .readFlash := by decide
theorem test_decode_read_eeprom : decodeRow .eeprom 4 0b001100000000 = .ok .readEeprom := by decide
theorem test_decode_read_filler : decodeRow .bootApplication 0 0b001100000000 = .ok .readFiller := by decide
theorem test_decode_cmd_unreachable : decodeRow .unreachable 0 0b001000000000 = .error .cmdUnreachable := by decide

theorem test_encode_rx : encode (.evRx 0xAB) = some 0x2AB := by decide
theorem test_encode_kind_flash : encode .kindFlash = some 0x201 := by decide
theorem test_encode_read : encode .readEeprom = some 0x300 := by decide
theorem test_encode_handoff : encode .handOff = none := by decide

/-! ### Scripts (30_encoding.md R106, R107) -/

/-- Row W7 of 95_test_vectors.md. -/
theorem test_expand_read_ee : expand (readEeScript 0x00 0x10 2) =
    [.event 0x000, .event 0x202, .event 0x202, .event 0x200, .event 0x210, .event 0x400, .event 0x100, .event 0x300,
      .event 0x300, .event 0x400] := by decide
/-- Row W9 of 95_test_vectors.md. -/
theorem test_expand_write_ee : expand (writeEeScript 0x00 0x10 [0xAA, 0xBB]) =
    [.event 0x000, .event 0x202, .event 0x202, .event 0x200, .event 0x210, .event 0x2AA, .event 0x2BB, .event 0x400] := by
  decide
/-- Only `EV_ADDR_R` when `R` starts a script (R106). -/
theorem test_expand_read_first : expand [.r, .receive 1, .sto] = [.event 0x100, .event 0x300, .event 0x400] := by decide
theorem test_expand_boot_now : expand bootNowScript = [.event 0x000, .event 0x201, .event 0x280, .event 0x400] := by decide

/-! ### Memory -/

theorem test_memory_write_read : Memory.read (Memory.write [(2, 0x22)] 1 0x11) 1 = 0x11 := by decide
theorem test_memory_write_sorted : Memory.write [(2, 0x22)] 1 0x11 = [(1, 0x11), (2, 0x22)] := by decide
theorem test_memory_write_unlisted : Memory.write [(1, 0x11), (2, 0x22)] 1 0xFF = [(2, 0x22)] := by decide
theorem test_memory_wf_repeats : ¬ Memory.wf [(1, 0x11), (1, 0x22)] := by decide
theorem test_memory_wf_unlisted : ¬ Memory.wf [(1, 0xFF)] := by decide

/-! ### Reset -/

/-- 10_state.md R47 in the example configuration. -/
theorem test_reset : State.reset.cmd = .wait ∧ State.reset.ctr = 100 ∧ State.reset.phase = .idle ∧
    State.reset.bootNow = false ∧ State.reset.faults = [] ∧ State.reset.handedOff = false := by decide
/-- With no input the block waits (70_reset_and_hazards.md R281). -/
theorem test_reset_waits : nextState (step State.reset) = some State.reset := by decide
/-- A placed event word is what the next step runs. -/
theorem test_with_fetch_word : (nextState (step (State.reset.withFetchWord 16 0x000))).map State.phase = some .rx := by
  decide

/-! ### Bus events, tick and hand-off -/

/-- Row V77: a second addressing restarts at position 0. -/
theorem test_addr_w : (nextState (exec .evAddrW (rx .memory 1))).map (fun t => (t.phase, t.pos, t.cmd)) =
    some (.rx, 0, .memory) := by decide
/-- Row V76: the repeated address ends the write transaction. -/
theorem test_addr_r : (nextState (exec .evAddrR { rx .chipinfo 2 with rpos := 9 })).map
    (fun t => (t.phase, t.rpos, t.pos)) = some (.tx, 0, 2) := by decide
/-- Row V75: the stop keeps `CMD`, `ADDR` and `POS`. -/
theorem test_stop : (nextState (exec .evStop { rx .flash 4 with addr := 0x1234 })).map
    (fun t => (t.phase, t.cmd, t.addr, t.pos)) = some (.idle, .flash, 0x1234, 4) := by decide
/-- Row V78. -/
theorem test_bus_error : (nextState (exec .evBusError (rx .flash 10))).map
    (fun t => (t.out.busReset, t.phase, t.cmd, t.pos)) = some (true, .idle, .flash, 10) := by decide
/-- Rows V1, V2. -/
theorem test_reserved_7 : (nextState (exec .evReserved7 State.reset)).map State.faults = some [.reservedEvent] := by decide
theorem test_reserved_8f : (nextState (exec .evReserved8F State.reset)).map State.faults = some [.reservedEvent] := by decide
/-- Row V3: no `ack` from an out-of-phase byte. -/
theorem test_rx_out_of_phase : (nextState (exec (.evRx 0xAB) State.reset)).map (fun t => (t.faults, t.out.ack, t.ctr)) =
    some ([.outOfPhaseEvent], none, 100) := by decide
/-- Row V5. -/
theorem test_tx_out_of_phase : (nextState (exec .evTxReq (rx .wait 0))).map (fun t => (t.faults, t.out.txd)) =
    some ([.outOfPhaseEvent], none) := by decide
/-- Row V96: the phase check comes first. -/
theorem test_phase_before_cmd : (nextState (exec (.evRx 0xAA) { State.reset with cmd := .unreachable })).map State.faults =
    some [.outOfPhaseEvent] := by decide
/-- Row V97. -/
theorem test_cmd_unreachable : (nextState (exec (.evRx 0xAA) (rx .unreachable 0))).map State.faults =
    some [.cmdUnreachable] := by decide
/-- Row V7. -/
theorem test_tick_counts : shown (exec .evTick State.reset) = some (.wait, 0, 99, none) := by decide
/-- Row V86. -/
theorem test_tick_forces_boot : (nextState (exec .evTick { State.reset with ctr := 1 })).map
    (fun t => (t.cmd, t.ctr, t.bootNow)) = some (.bootApplication, 1, true) := by decide
/-- Row V91. -/
theorem test_hand_off : (nextState (exec .handOff { State.reset with cmd := .bootApplication })).map State.handedOff =
    some true := by decide
theorem test_hand_off_disabled : nextState (exec .handOff State.reset) = none := by decide
/-- Row V95: no step after a model fault. -/
theorem test_stopped : nextState (exec .evStop { State.reset with faults := [.reservedEvent] }) = none := by decide

/-! ### Frame bytes -/

/-- Row V10. -/
theorem test_op_wait : shown (exec .opWait (rx .wait 0)) = some (.wait, 1, 0, some .ack) := by decide
/-- Row V17: a recognized opcode withdraws the boot. -/
theorem test_op_version : shown (exec .opVersion (rx .bootApplication 0)) = some (.version, 1, 0, some .ack) := by decide
/-- Row V12. -/
theorem test_op_memory : shown (exec .opMemory (rx .wait 0)) = some (.memory, 1, 0, some .ack) := by decide
/-- Row V13. -/
theorem test_op_unknown : shown (exec (.opUnknown 0x03) (rx .wait 0)) = some (.bootApplication, 0, 100, some .nack) := by
  decide
/-- Row V14: 0x80 is an unknown opcode at position 0. -/
theorem test_op_unknown_80 : shown (exec (.evRx 0x80) (rx .wait 0)) = some (.bootApplication, 0, 100, some .nack) := by
  decide
/-- Rows V20, V21. -/
theorem test_switch_app : shown (exec (.switchApp 0x80) (rx .version 1)) = some (.bootApplication, 0, 100, some .nack) := by
  decide
theorem test_switch_app_other : shown (exec (.switchApp 0x7F) (rx .version 1)) = some (.version, 0, 100, some .nack) := by
  decide
/-- Rows V24-V29. -/
theorem test_kind_chipinfo : shown (exec .kindChipinfo (rx .memory 1)) = some (.chipinfo, 2, 100, some .ack) := by decide
theorem test_kind_flash : shown (exec .kindFlash (rx .memory 1)) = some (.flash, 2, 100, some .ack) := by decide
theorem test_kind_eeprom : shown (exec .kindEeprom (rx .memory 1)) = some (.eeprom, 2, 100, some .ack) := by decide
theorem test_kind_eeprom_unsupported : shown (exec .kindEeprom { rx .memory 1 with
    cfg := { Config.exampleConfig with eepromSupport := false, eeSize := 0 } }) = some (.memory, 0, 100, some .nack) := by
  decide
theorem test_kind_bad : shown (exec (.kindBad 0xFF) (rx .memory 1)) = some (.memory, 0, 100, some .nack) := by decide
/-- Row V30. -/
theorem test_pos1_other : shown (exec (.pos1Other 0x11) (rx .wait 1)) = some (.wait, 0, 100, some .nack) := by decide
/-- Rows V35, V36. -/
theorem test_addr_byte_hi : (nextState (exec (.addrByte 0x12) (rx .flash 2))).map (fun t => (t.addr, t.pos)) =
    some (0xCD12, 3) := by decide
theorem test_addr_byte_lo : (nextState (exec (.addrByte 0x34) { rx .flash 3 with addr := 0xCD12 })).map
    (fun t => (t.addr, t.pos)) = some (0x1234, 4) := by decide
/-- By hand from R133 and R203: the second byte of a page of 2 commits both, at the page base of 3, which is 2. -/
theorem test_write_flash_last : (nextState (exec (.writeFlashByte 0x22) { at_ .rx .flash 5 with
    addr := 3, buf := [0x11, 0x00] })).map (fun t => (t.flash, t.addr, t.pos, t.out.ack)) =
    some ([(2, 0x11), (3, 0x22)], 5, 0, some .nack) := by decide
/-- By hand from R204: under `ROTATED` the page starts at the slot of the start Address. -/
theorem test_write_flash_rotated : (nextState (exec (.writeFlashByte 0x22) { at_ .rx .flash 5 with
    cfg := { small with fillMap := .rotated }, addr := 3, buf := [0x11, 0x00] })).map State.flash =
    some [(2, 0x22), (3, 0x11)] := by decide
/-- By hand from R202, R205: at `BOOT_START` the page is discarded, and `PAGE_ON_WRITE` leaves `ADDR`. -/
theorem test_write_flash_discarded : (nextState (exec (.writeFlashByte 0x22) { at_ .rx .flash 5 with
    cfg := { small with flashWriteAddr := .pageOnWrite }, addr := 4 })).map (fun t => (t.flash, t.addr, t.out.ack)) =
    some ([], 4, some .nack) := by decide
/-- By hand from R133: before the last byte the byte is buffered and accepted. -/
theorem test_write_flash_buffered : (nextState (exec (.writeFlashByte 0x11) (at_ .rx .flash 4))).map
    (fun t => (t.buf, t.flash, t.pos, t.out.ack)) = some ([0x11, 0x00], [], 5, some .ack) := by decide
/-- Row V56, then row V57 under both values of `EE_OOR`. -/
theorem test_write_ee : (nextState (exec (.writeEeByte 0x01) { rx .eeprom 4 with addr := 0x03FF })).map
    (fun t => (t.ee, t.addr, t.pos)) = some ([(0x03FF, 0x01)], 0x0400, 5) := by decide
theorem test_write_ee_fault : (nextState (exec (.writeEeByte 0x02) { rx .eeprom 5 with addr := 0x0400 })).map
    (fun t => (t.faults, t.ee, t.out.ack, t.addr)) = some ([.eeOutOfRange], [], none, 0x0400) := by decide
theorem test_write_ee_wrap : (nextState (exec (.writeEeByte 0x02) { rx .eeprom 5 with
    addr := 0x0400, cfg := { Config.exampleConfig with eeOor := .wrap } })).map (fun t => (t.ee, t.addr)) =
    some ([(0, 0x02)], 0x0401) := by decide
/-- 10_state.md R36: at the greatest position of 3 bits, saturating and wrapping. -/
theorem test_pos_saturates : shown (exec (.writeChipinfoByte 0x5A) (at_ .rx .chipinfo 7)) =
    some (.chipinfo, 7, 3, some .ack) := by decide
theorem test_pos_wraps : shown (exec (.writeChipinfoByte 0x5A) { at_ .rx .chipinfo 7 with
    cfg := { small with posOverflow := .wrap } }) = some (.chipinfo, 0, 3, some .ack) := by decide
/-- 40_command_decoder.md R135. -/
theorem test_chipinfo_nack : shown (exec (.writeChipinfoByte 0x5A) { at_ .rx .chipinfo 4 with
    cfg := { small with chipinfoWritePayload := .nack } }) = some (.chipinfo, 0, 3, some .nack) := by decide
/-- 40_command_decoder.md R136. -/
theorem test_payload_other : shown (exec (.payloadOther 0x5A) (at_ .rx .memory 4)) = some (.memory, 0, 3, some .nack) := by
  decide

/-! ### Read bytes -/

/-- The example of R141: at `RPOS` = 16 the identity starts again. -/
theorem test_read_version : shownRead (exec .readVersion (tx .version 16)) = some (some 0x54, 17, 0xABCD) := by decide
theorem test_read_version_wraps : shownRead (exec .readVersion (tx .version 255)) = some (some 0x00, 0, 0xABCD) := by
  decide
/-- Row W5: the record is 0xA1 0xB2 0xC3 0x40 0x7C 0x00 0x04 0x00. -/
theorem test_chip_info : chipInfo Config.exampleConfig = [0xA1, 0xB2, 0xC3, 0x40, 0x7C, 0x00, 0x04, 0x00] := by decide
theorem test_read_chipinfo : shownRead (exec .readChipinfo (tx .chipinfo 12)) = some (some 0x7C, 13, 0xABCD) := by decide
/-- Row W6: the bootloader region is readable. -/
theorem test_read_flash : shownRead (exec .readFlash { tx .flash 2 with addr := 0x7C00, flash := [(0x7C00, 0xB0)] }) =
    some (some 0xB0, 3, 0x7C01) := by decide
/-- Row V67. -/
theorem test_read_flash_fault : (nextState (exec .readFlash { tx .flash 2 with addr := 0x8000 })).map
    (fun t => (t.faults, t.out.txd, t.rpos)) = some ([.flashOutOfRange], none, 2) := by decide
/-- Row W15. -/
theorem test_read_ee : shownRead (exec .readEeprom { tx .eeprom 0 with addr := 0x0010, ee := [(0x10, 0xAA)] }) =
    some (some 0xAA, 1, 0x0011) := by decide
/-- Row V72. -/
theorem test_read_ee_fault : (nextState (exec .readEeprom { tx .eeprom 1 with addr := 0x0400 })).map State.faults =
    some [.eeOutOfRange] := by decide
/-- Row V68. -/
theorem test_read_filler : shownRead (exec .readFiller (tx .wait 0)) = some (some 0xFF, 1, 0xABCD) := by decide
/-- A row run where its condition does not hold is refused by name, never by a step (log 6). -/
theorem test_row_not_selected : nextState (exec .opWait (rx .wait 1)) = none := by decide

/-! ### Witnesses: for each obligation with hypotheses, states and operands that meet them, at the boundaries of its clauses -/

theorem witness_step_runs_next_input :
    ({ State.reset with inputs := [tickInput, .handOff] } : State).inputs = tickInput :: [.handOff] ∧
    State.reset.Ready ∧ State.reset.inputs = [] := by
  and_intros <;> decide

theorem witness_step_runs_selected_row :
    ({ rx .version 1 with inputs := [rxInput 0x80] } : State).inputs = .event 0x280 :: [] ∧
    decodeRow (rx .version 1).cmd (rx .version 1).pos 0x280 = .ok (.switchApp 0x80) ∧
    decodeRow .eeprom 3 0x300 = .ok .readEeprom := by
  and_intros <;> decide

theorem witness_data_byte_read_by_rx_only :
    eventCode 0x0FF = eventCode 0x000 ∧ eventCode 0x0FF ≠ 0x2 ∧ eventCode 0x3FF = eventCode 0x300 ∧ eventCode 0x3FF ≠ 0x2 ∧
    encode .evReserved8F = some 0x800 ∧ eventCode 0x800 ≠ 0x2 := by
  and_intros <;> decide

theorem witness_decode_of_encode :
    Instr.wf (.opUnknown 0x03) = true ∧ Instr.selectedAt .wait 0 (.opUnknown 0x03) = true ∧
    encode (.opUnknown 0x03) = some 0x203 ∧ Instr.selectedAt .eeprom 300 (.writeEeByte 0xFF) = true ∧
    encode (.evRx 0xFF) = some 0x2FF ∧ encode .evTxReq = some 0x300 := by
  and_intros <;> decide

theorem witness_decoded_row_is_selected :
    decodeRow .memory 1 0x203 = .ok (.kindBad 0x03) ∧ eventCode 0x203 = 0x2 ∧ Cmd.bootApplication ≠ .unreachable := by
  and_intros <;> decide

/-- A ready state in each phase, for the statements about every ready state: AddressingOpensTransaction, StopEndsTransaction,
BusErrorPulsesReset, ReservedEventRecorded. -/
theorem witness_ready :
    State.reset.Ready ∧ (at_ .rx .flash 5).Ready ∧ (at_ .tx .version 0).Ready ∧ (at_ .unwritten .unreachable 7).Ready := by
  and_intros <;> decide

theorem witness_repeated_addressing_is_stop_first :
    ∃ t, exec .evStop (at_ .rx .memory 1) = .next t :=
  ⟨_, next_of_isSome (by decide) (at_ .rx .memory 1)⟩

theorem witness_out_of_phase_recorded :
    State.reset.Ready ∧ State.reset.phase ≠ .rx ∧ State.reset.phase ≠ .tx ∧ (at_ .tx .wait 0).Ready ∧
    (at_ .tx .wait 0).phase ≠ .rx ∧ (at_ .rx .wait 0).Ready ∧ (at_ .rx .wait 0).phase ≠ .tx := by
  and_intros <;> decide

theorem witness_unreachable_command_recorded :
    (at_ .rx .unreachable 0).Ready ∧ (at_ .rx .unreachable 0).cmd = .unreachable ∧ (at_ .tx .unreachable 0).Ready ∧
    (at_ .idle .unreachable 0).Ready := by
  and_intros <;> decide

/-- A flash byte at the last position of a page, and a data-memory byte at the last address and, under `WRAP`, beyond it. -/
theorem witness_received_byte_answered :
    (at_ .rx .flash 5).Receiving ∧ (at_ .rx .flash 5).pos < small.pageSize + 4 ∧
    (State.Receiving { at_ .rx .eeprom 4 with addr := 3 }) ∧ (3 : Addr).toNat < small.eeSize ∧
    (State.Receiving { at_ .rx .eeprom 4 with addr := 4, cfg := { small with eeOor := .wrap } }) := by
  and_intros <;> decide

theorem witness_requested_byte_answered :
    (State.Transmitting { at_ .tx .flash 4 with addr := 7 }) ∧ (7 : Addr).toNat < small.flashSize ∧
    (State.Transmitting { at_ .tx .eeprom 4 with addr := 3 }) ∧ (3 : Addr).toNat < small.eeSize ∧
    (State.Transmitting { at_ .tx .flash 4 with addr := 8, cfg := { small with flashOor := .wrap } }) ∧
    (State.Transmitting { at_ .tx .eeprom 4 with addr := 4, cfg := { small with eeOor := .wrap } }) := by
  and_intros <;> decide

theorem witness_event_is_its_row :
    decodeFrame (at_ .rx .memory 1).cmd (at_ .rx .memory 1).pos 0x02 = .ok .kindEeprom ∧
    decodeRead (at_ .tx .chipinfo 2).cmd = .ok .readChipinfo := by
  and_intros <;> decide

theorem witness_recognized_opcode : (at_ .rx .wait 0).Receiving ∧ (at_ .rx .bootApplication 0).Receiving ∧
    (at_ .rx .wait 0).pos = 0 := by
  and_intros <;> decide

theorem witness_unknown_opcode_requests_boot :
    (at_ .rx .wait 0).Receiving ∧ (at_ .rx .wait 0).pos = 0 ∧ 3 ≤ (0x03 : Byte).toNat ∧ 3 ≤ (0xFF : Byte).toNat := by
  and_intros <;> decide

theorem witness_boot_type : (at_ .rx .version 1).Receiving ∧ (at_ .rx .version 1).pos = 1 ∧
    (at_ .rx .version 1).cmd = .version := by
  and_intros <;> decide

theorem witness_memory_kind :
    (at_ .rx .memory 1).Receiving ∧ (at_ .rx .memory 1).cfg.eepromSupport = true ∧
    (State.Receiving { at_ .rx .memory 1 with cfg := { small with eepromSupport := false, eeSize := 0 } }) := by
  and_intros <;> decide

theorem witness_meaningless_byte_rejected :
    (at_ .rx .memory 1).Receiving ∧ 3 ≤ (0x03 : Byte).toNat ∧ (at_ .rx .wait 1).Receiving ∧ (at_ .rx .flash 1).Receiving ∧
    (at_ .rx .memory 4).Receiving ∧ 4 ≤ (at_ .rx .memory 4).pos := by
  and_intros <;> decide

theorem witness_address_byte :
    (at_ .rx .flash 2).Receiving ∧ (at_ .rx .eeprom 3).Receiving ∧ (at_ .rx .chipinfo 3).Receiving ∧
    (at_ .rx .memory 2).Receiving ∧ ¬ ((at_ .rx .memory 2).cmd = .chipinfo ∨ (at_ .rx .memory 2).cmd = .flash ∨
      (at_ .rx .memory 2).cmd = .eeprom) := by
  and_intros <;> decide

theorem witness_address_assembled : (at_ .rx .eeprom 2).Receiving ∧ (at_ .rx .eeprom 2).pos = 2 ∧
    (at_ .rx .eeprom 2).cmd = .eeprom := by
  and_intros <;> decide

/-- The first clause at positions 4, its least and (a page of 2 bytes) its greatest, and the second at its least, 6. -/
theorem witness_flash_byte_buffered :
    (at_ .rx .flash 4).Receiving ∧ (at_ .rx .flash 4).pos < small.pageSize + 3 ∧ (at_ .rx .flash 6).Receiving ∧
    small.pageSize + 4 ≤ (at_ .rx .flash 6).pos := by
  and_intros <;> decide

/-- The last byte of a page below the boundary, and at it. -/
theorem witness_last_flash_byte_commits :
    (State.Receiving { at_ .rx .flash 5 with addr := 3 }) ∧ (at_ .rx .flash 5).pos = small.pageSize + 3 ∧
    (at_ .rx .flash 5).buf.length = small.pageSize ∧ Memory.wf (at_ .rx .flash 5).flash ∧ (3 : Addr).toNat < small.bootStart ∧
    (State.Receiving { at_ .rx .flash 5 with addr := 4 }) ∧ ¬ (4 : Addr).toNat < small.bootStart := by
  and_intros <;> decide

theorem witness_ee_byte_written :
    (State.Receiving { at_ .rx .eeprom 4 with addr := 3 }) ∧ Memory.wf (at_ .rx .eeprom 4).ee ∧
    (3 : Addr).toNat < small.eeSize ∧
    (State.Receiving { at_ .rx .eeprom 7 with addr := 4, cfg := { small with eeOor := .wrap } }) ∧
    small.eeSize ≤ (4 : Addr).toNat ∧ 0 = (4 : Addr).toNat % small.eeSize := by
  and_intros <;> decide

theorem witness_ee_out_of_range_recorded :
    (State.Receiving { at_ .rx .eeprom 4 with addr := 4 }) ∧ small.eeSize ≤ (4 : Addr).toNat ∧ small.eeOor = .fault ∧
    (State.Transmitting { at_ .tx .eeprom 4 with addr := 4 }) := by
  and_intros <;> decide

theorem witness_chipinfo_payload_discarded :
    (at_ .rx .chipinfo 4).Receiving ∧ small.chipinfoWritePayload = .ackDiscard ∧ (at_ .rx .chipinfo 7).Receiving ∧
    (State.Receiving { at_ .rx .chipinfo 4 with cfg := { small with chipinfoWritePayload := .nack } }) := by
  and_intros <;> decide

theorem witness_identity_byte_read : (tx .version 255).Transmitting ∧ (tx .version 255).cmd = .version := by
  and_intros <;> decide

theorem witness_chip_info_byte_read : (tx .chipinfo 7).Transmitting ∧ (tx .chipinfo 7).cmd = .chipinfo := by
  and_intros <;> decide

theorem witness_flash_byte_read :
    (State.Transmitting { at_ .tx .flash 4 with addr := 7 }) ∧ (7 : Addr).toNat < small.flashSize ∧
    (State.Transmitting { at_ .tx .flash 4 with addr := 8 }) ∧ small.flashSize ≤ (8 : Addr).toNat ∧
    small.flashOor = .fault ∧
    (State.Transmitting { at_ .tx .flash 4 with addr := 8, cfg := { small with flashOor := .wrap } }) := by
  and_intros <;> decide

theorem witness_ee_byte_read :
    (State.Transmitting { at_ .tx .eeprom 4 with addr := 3 }) ∧ (3 : Addr).toNat < small.eeSize ∧
    (State.Transmitting { at_ .tx .eeprom 4 with addr := 4, cfg := { small with eeOor := .wrap } }) ∧
    small.eeSize ≤ (4 : Addr).toNat := by
  and_intros <;> decide

theorem witness_filler_byte_read : (tx .wait 0).Transmitting ∧ (tx .memory 0).Transmitting ∧
    (tx .bootApplication 255).Transmitting := by
  and_intros <;> decide

theorem witness_tick_counts_down :
    State.reset.Ready ∧ 1 < State.reset.ctr ∧ (State.Ready { State.reset with ctr := 1 }) ∧
    (State.Ready { State.reset with ctr := 0 }) ∧ 1 < (2 : Nat) ∧ (State.Ready { State.reset with ctr := 2 }) := by
  and_intros <;> decide

theorem witness_hand_off_needs_boot_now :
    (at_ .idle .bootApplication 0).Ready ∧ (at_ .idle .bootApplication 0).cmd = .bootApplication ∧ State.reset.Ready ∧
    State.reset.cmd ≠ .bootApplication := by
  and_intros <;> decide

theorem witness_no_step_after_the_end :
    State.reset.cfg.wf ∧ ({ State.reset with faults := [.eeOutOfRange] } : State).faults ≠ [] ∧
    ({ State.reset with handedOff := true } : State).faults = [] ∧
    ({ State.reset with handedOff := true } : State).handedOff = true := by
  and_intros <;> decide

theorem witness_step_stops_exactly_then :
    State.reset.cfg.wf ∧ nextState (step { State.reset with inputs := [.handOff] }) = none ∧
    nextState (step { State.reset with inputs := [stopInput] }) ≠ none := by
  and_intros <;> decide

theorem witness_step_never_refuses :
    State.reset.cfg.wf ∧ ¬ ({ State.reset with cfg := { small with pageSize := 3 } } : State).cfg.wf := by
  and_intros <;> decide

theorem witness_reset_meets_invariant :
    small.wf ∧ ([0x11, 0x22] : List Byte).length = small.pageSize ∧ Memory.wf [(7, 0xB0)] ∧
    Memory.within small.flashSize [(7, 0xB0)] ∧ Memory.wf [(3, 0x01)] ∧ Memory.within small.eeSize [(3, 0x01)] := by
  and_intros <;> decide

/-- A state inside a flash frame, its last byte next: it meets the invariant and has a next state. -/
def committing : State :=
  { at_ .rx .flash 5 with ctr := 0, addr := 3, buf := [0x11, 0x00], inputs := [rxInput 0x22] }

theorem committing_inv : committing.Inv := by
  constructor <;> decide

theorem committing_step : step committing = .next ((nextState (step committing)).getD committing) :=
  next_of_isSome (by decide) committing

theorem witness_every_step_keeps_invariant : ∃ s t : State, s.Inv ∧ step s = .next t ∧ t ≠ s :=
  ⟨committing, _, committing_inv, committing_step, by decide⟩

theorem witness_unreachable_faults_never_recorded : ∃ s t : State, s.Inv ∧ step s = .next t :=
  ⟨committing, _, committing_inv, committing_step⟩

theorem witness_bootloader_region_never_written :
    ∃ s t : State, step s = .next t ∧ t.flash ≠ s.flash ∧ s.cfg.bootStart ≤ 4 :=
  ⟨committing, _, committing_step, by decide, by decide⟩

theorem witness_flash_changes_only_by_commit :
    ∃ s t : State, step s = .next t ∧ Memory.read t.flash 2 ≠ Memory.read s.flash 2 :=
  ⟨committing, _, committing_step, by decide⟩

/-- A state in a data-memory frame, a byte next. -/
def storing : State := { at_ .rx .eeprom 4 with ctr := 0, addr := 3, inputs := [rxInput 0x22] }

theorem witness_ee_changes_only_by_payload_byte :
    (∃ s t : State, step s = .next t ∧ Memory.read t.ee 3 ≠ Memory.read s.ee 3 ∧ Memory.wf s.ee) ∧
    (∃ s t : State, step s = .next t ∧ Memory.read t.ee 0 ≠ Memory.read s.ee 0 ∧ s.cfg.eeSize ≤ s.addr.toNat) :=
  ⟨⟨storing, _, next_of_isSome (by decide) storing, by decide, by decide⟩,
    ⟨{ storing with addr := 4, cfg := { small with eeOor := .wrap } }, _, next_of_isSome (by decide) storing, by decide,
      by decide⟩⟩

theorem witness_countdown_never_rises : ∃ s t : State, step s = .next t ∧ t.ctr ≠ s.ctr :=
  ⟨{ State.reset with inputs := [tickInput] }, _, next_of_isSome (by decide) State.reset, by decide⟩

theorem witness_countdown_cancelled : ∃ s t : State, step s = .next t ∧ t.ctr = 0 ∧ s.ctr ≠ 0 :=
  ⟨{ rx .wait 0 with inputs := [rxInput 0x00] }, _, next_of_isSome (by decide) State.reset, by decide, by decide⟩

theorem witness_boot_request_producers :
    ∃ s t : State, step s = .next t ∧ s.cmd ≠ .bootApplication ∧ s.cmd ≠ .unreachable ∧ t.cmd = .bootApplication :=
  ⟨{ State.reset with ctr := 1, inputs := [tickInput] }, _, next_of_isSome (by decide) State.reset, by decide, by decide,
    by decide⟩

theorem witness_timeout_forces_boot :
    State.reset.Ready ∧ 1 ≤ State.reset.ctr ∧ (State.Ready { State.reset with ctr := 1 }) := by
  and_intros <;> decide

/-- The silent run from a countdown of 1: a tick forces the boot, the platform hands off, and no step is left. -/
def silentStates : Nat → State
  | 0 => { State.reset with ctr := 1 }
  | 1 => { State.reset with ctr := 1, cmd := .bootApplication }
  | _ => { State.reset with ctr := 1, cmd := .bootApplication, handedOff := true }

/-- The items of the silent run. -/
def silentItems : Nat → Input
  | 1 => .handOff
  | _ => tickInput

theorem witness_silence_hands_off :
    IsRun silentStates silentItems ∧ TickFair silentStates silentItems ∧ HandOffFair silentStates ∧
      (silentStates 0).Ready ∧ 1 ≤ (silentStates 0).ctr ∧ (∀ n, (silentStates n).faults = []) ∧
      (∀ n data, decodeInput (silentItems n) ≠ .evRx data) := by
  have h0 : nextState (exec (decodeInput (silentItems 0)) (silentStates 0)) = some (silentStates 1) := by decide
  have h1 : nextState (exec (decodeInput (silentItems 1)) (silentStates 1)) = some (silentStates 2) := by decide
  have h2 : nextState (exec (decodeInput tickInput) (silentStates 2)) = none := by decide
  refine ⟨?_, ?_, ?_, by decide, by decide, ?_, ?_⟩
  · intro n
    match n with
    | 0 => exact .inl ((next_of_isSome (by rw [h0]; rfl) State.reset).trans (by rw [h0]; rfl))
    | 1 => exact .inl ((next_of_isSome (by rw [h1]; rfl) State.reset).trans (by rw [h1]; rfl))
    | n + 2 => exact .inr ⟨h2, rfl⟩
  · intro n h
    have := (h (n + 2) (by omega)).1
    cases this
  · exact fun n _ => ⟨n + 2, by omega, rfl⟩
  · intro n
    match n with
    | 0 => rfl
    | 1 => rfl
    | n + 2 => rfl
  · intro n data
    have ht : decodeInput tickInput = .evTick := by decide
    match n with
    | 0 => rw [show silentItems 0 = tickInput from rfl, ht]; exact fun h => nomatch h
    | 1 => exact fun h => nomatch h
    | n + 2 => rw [show silentItems (n + 2) = tickInput from rfl, ht]; exact fun h => nomatch h

theorem witness_faulting_step_changes_nothing_else : ∃ s t : State, step s = .next t ∧ t.faults ≠ [] :=
  ⟨{ State.reset with inputs := [rxInput 0xAB] }, _, next_of_isSome (by decide) State.reset, by decide⟩

theorem witness_positions_unobservable :
    State.reset.phase ≠ .rx ∧ State.reset.phase ≠ .tx ∧ (at_ .tx .flash 4).phase ≠ .rx ∧ (at_ .rx .flash 4).phase ≠ .tx := by
  and_intros <;> decide

/-- An aligned start, a start that is not aligned under `LINEAR`, and an aligned start under `ROTATED`. -/
theorem witness_page_round_trip :
    State.reset.Ready ∧ State.reset.cmd ≠ .unreachable ∧ Memory.wf State.reset.flash ∧
    State.reset.buf.length = State.reset.cfg.pageSize ∧
    (List.replicate 64 (0x5A : Byte)).length = State.reset.cfg.pageSize ∧
    (0x7B : Byte).toNat * 256 + (0xC0 : Byte).toNat < State.reset.cfg.bootStart ∧
    (0x01 : Byte).toNat * 256 + (0x00 : Byte).toNat =
      (0x01 : Byte).toNat * 256 + (0x23 : Byte).toNat - ((0x01 : Byte).toNat * 256 + (0x23 : Byte).toNat) % 64 ∧
    State.reset.cfg.fillMap = .linear ∧
    (State.Ready { at_ .idle .wait 0 with cfg := { small with fillMap := .rotated } }) ∧
    ((0x00 : Byte).toNat * 256 + (0x02 : Byte).toNat) % small.pageSize = 0 := by
  and_intros <;> decide

theorem witness_page_discarded :
    State.reset.Ready ∧ State.reset.cmd ≠ .unreachable ∧
    (List.replicate 64 (0x5A : Byte)).length = State.reset.cfg.pageSize ∧
    State.reset.cfg.bootStart ≤ (0x7C : Byte).toNat * 256 + (0x00 : Byte).toNat := by
  and_intros <;> decide

/-- The whole data memory from address 0, saturating, and a frame that just fits the positions of 3 bits, wrapping. -/
theorem witness_data_memory_round_trip :
    (at_ .idle .wait 0).Ready ∧ (at_ .idle .wait 0).cmd ≠ .unreachable ∧ Memory.wf (at_ .idle .wait 0).ee ∧
    small.eepromSupport = true ∧
    (0x00 : Byte).toNat * 256 + (0x00 : Byte).toNat + ([1, 2, 3, 4] : List Byte).length ≤ small.eeSize ∧
    small.posOverflow = .saturate ∧ ([1, 2, 3, 4] : List Byte).length + 4 ≤ 2 ^ small.posWidth ∧
    (State.Ready { at_ .idle .wait 0 with cfg := { small with posOverflow := .wrap } }) := by
  and_intros <;> decide

theorem witness_identity_read_cyclically : State.reset.Ready ∧ State.reset.cmd ≠ .unreachable := by
  and_intros <;> decide

theorem witness_frame_of_events :
    (∃ t, exec .evTick State.reset = .next t) ∧ (∃ t, exec .evBusError (rx .flash 4) = .next t) ∧
    (∃ t, exec .handOff (at_ .idle .bootApplication 0) = .next t) ∧ (∃ t, exec .evReserved7 State.reset = .next t) :=
  ⟨⟨_, next_of_isSome (by decide) State.reset⟩, ⟨_, next_of_isSome (by decide) State.reset⟩,
    ⟨_, next_of_isSome (by decide) State.reset⟩, ⟨_, next_of_isSome (by decide) State.reset⟩⟩

theorem witness_frame_of_frame_bytes :
    (∃ t, exec .opMemory (rx .wait 0) = .next t) ∧ (∃ t, exec (.switchApp 0x80) (rx .version 1) = .next t) ∧
    (∃ t, exec (.addrByte 0x12) (rx .flash 2) = .next t) ∧ (∃ t, exec (.payloadOther 0x12) (rx .wait 4) = .next t) :=
  ⟨⟨_, next_of_isSome (by decide) State.reset⟩, ⟨_, next_of_isSome (by decide) State.reset⟩,
    ⟨_, next_of_isSome (by decide) State.reset⟩, ⟨_, next_of_isSome (by decide) State.reset⟩⟩

/-- A commit, a buffered byte, a discarded page, a data-memory byte, and a byte of another row. -/
theorem witness_frame_of_storing_bytes :
    (∃ t, exec (.writeFlashByte 0x22) committing = .next t) ∧ (∃ t, exec (.writeFlashByte 0x22) (at_ .rx .flash 4) = .next t) ∧
    commitAllowed small 4 = false ∧ (∃ t, exec (.writeEeByte 0x22) storing = .next t) ∧ eeAddr small 3 ≠ .ok 2 ∧
    (∃ t, exec (.evRx 0x02) (rx .wait 0) = .next t) :=
  ⟨⟨_, next_of_isSome (by decide) State.reset⟩, ⟨_, next_of_isSome (by decide) State.reset⟩, by decide,
    ⟨_, next_of_isSome (by decide) State.reset⟩, by decide, ⟨_, next_of_isSome (by decide) State.reset⟩⟩

theorem witness_frame_of_read_bytes :
    (∃ t, exec .readVersion (tx .version 0) = .next t) ∧ (∃ t, exec .readFlash { tx .flash 0 with addr := 0 } = .next t) ∧
    (∃ t, exec .evTxReq (tx .wait 0) = .next t) :=
  ⟨⟨_, next_of_isSome (by decide) State.reset⟩, ⟨_, next_of_isSome (by decide) State.reset⟩,
    ⟨_, next_of_isSome (by decide) State.reset⟩⟩

end Sys2Proof.Tests
end

/-! PROOFS. Which outcomes are refusals (log 6): the agent's guard refuses every illegal configuration, and past it only
the frame and read rows run by themselves refuse, which no input item decodes to. -/

namespace Sys2Proof.Machine

/-! ### An illegal configuration -/

/-- An agent's step under illegal parameters is the refusal. -/
theorem agentStep_illegal {s : State} (h : ¬ s.cfg.wf) (body : State → Host.Outcome State Fault Refusal) :
    agentStep s body = .refused .illegalConfiguration :=
  if_pos h

/-- Under illegal parameters every instruction is refused. -/
theorem exec_illegal {s : State} (h : ¬ s.cfg.wf) (i : Instr) : exec i s = .refused .illegalConfiguration := by
  obtain ⟨body, hb⟩ := exec_agentStep i s
  rw [hb, agentStep_illegal h]

/-- Under illegal parameters every step is refused, the wait too. -/
theorem step_illegal {s : State} (h : ¬ s.cfg.wf) : step s = .refused .illegalConfiguration := by
  cases hi : s.inputs with
  | nil => rw [step_nil hi, waitForEvent, agentStep_illegal h]
  | cons i rest => rw [step_cons hi, exec_illegal (s := { s with inputs := rest }) h]

/-! ### A legal configuration -/

theorem next_ne_refused (t : State) (r : Refusal) :
    (.next t : Host.Outcome State Fault Refusal) ≠ .refused r := nofun

theorem fault_ne_refused (f : Fault) (r : Refusal) :
    (.fault f : Host.Outcome State Fault Refusal) ≠ .refused r := nofun

/-- An agent's step under legal parameters refuses only what its body refuses. -/
theorem agentStep_ne_refused {s : State} (hc : s.cfg.wf) {body : State → Host.Outcome State Fault Refusal}
    {r : Refusal} (hb : body { s with out := Outputs.quiet } ≠ .refused r) : agentStep s body ≠ .refused r := by
  rcases agentStep_cases s body with ⟨hn, -⟩ | ⟨-, -, e⟩ | ⟨-, -, -, e⟩ | ⟨-, e⟩
  · exact absurd hc hn
  · rw [e]; exact fault_ne_refused _ r
  · rw [e]; exact fault_ne_refused _ r
  · rwa [e]

/-- An agent's step under legal parameters whose body always has a next state is never refused. -/
theorem agentStep_next_ne_refused {s : State} (hc : s.cfg.wf) (f : State → State) (r : Refusal) :
    agentStep s (fun t => .next (f t)) ≠ .refused r :=
  agentStep_ne_refused hc (next_ne_refused _ r)

/-- The guards of `EV_RX` refuse only what its body refuses. -/
theorem onReceive_ne_refused {s : State} (hc : s.cfg.wf) {body : State → Host.Outcome State Fault Refusal}
    {r : Refusal} (hb : body { s with out := Outputs.quiet } ≠ .refused r) : onReceive s body ≠ .refused r := by
  refine agentStep_ne_refused hc ?_
  split_ifs
  · exact next_ne_refused _ r
  · exact next_ne_refused _ r
  · exact hb

/-- The guards of `EV_TX_REQ` refuse only what its body refuses. -/
theorem onRequest_ne_refused {s : State} (hc : s.cfg.wf) {body : State → Host.Outcome State Fault Refusal}
    {r : Refusal} (hb : body { s with out := Outputs.quiet } ≠ .refused r) : onRequest s body ≠ .refused r := by
  refine agentStep_ne_refused hc ?_
  split_ifs
  · exact next_ne_refused _ r
  · exact next_ne_refused _ r
  · exact hb

/-- The end of an `EV_RX` step is an answer or a model fault, and both are next states. -/
theorem finishReceive_ne_refused (p : PathResult Ack) (s : State) (r : Refusal) :
    finishReceive p s ≠ .refused r := by
  cases p <;> exact next_ne_refused _ r

/-- The end of an `EV_TX_REQ` step is an answer or a model fault, and both are next states. -/
theorem finishRequest_ne_refused (p : PathResult Byte) (s : State) (r : Refusal) :
    finishRequest p s ≠ .refused r := by
  cases p <;> exact next_ne_refused _ r

/-- A tick always has a next state, whatever the countdown. -/
theorem execEvTick_ne_refused {s : State} (hc : s.cfg.wf) (r : Refusal) : execEvTick s ≠ .refused r := by
  refine agentStep_ne_refused hc ?_
  dsimp only
  split_ifs <;> exact next_ne_refused _ r

/-- A hand-off that is not enabled is a fault, not a refusal. -/
theorem execHandOff_ne_refused {s : State} (hc : s.cfg.wf) (r : Refusal) : execHandOff s ≠ .refused r := by
  refine agentStep_ne_refused hc ?_
  dsimp only
  split_ifs
  · exact next_ne_refused _ r
  · exact fault_ne_refused _ r

/-- Under legal parameters no input item's instruction is refused: it is an event or the hand-off, never a row by
itself. -/
theorem exec_input_ne_refused {s : State} (hc : s.cfg.wf) (x : Input) (r : Refusal) :
    exec (decodeInput x) s ≠ .refused r := by
  rcases decodeInput_isEvent x with e | e | ⟨data, e⟩ | e | e | e | e | e | e | e <;> rw [e]
  · show execEvAddrW s ≠ _
    exact agentStep_next_ne_refused hc _ r
  · show execEvAddrR s ≠ _
    exact agentStep_next_ne_refused hc _ r
  · exact onReceive_ne_refused hc (finishReceive_ne_refused _ _ r)
  · exact onRequest_ne_refused hc (finishRequest_ne_refused _ _ r)
  · show execEvStop s ≠ _
    exact agentStep_next_ne_refused hc _ r
  · show execEvBusError s ≠ _
    exact agentStep_next_ne_refused hc _ r
  · exact execEvTick_ne_refused hc r
  · show reservedEvent s ≠ _
    exact agentStep_next_ne_refused hc _ r
  · show reservedEvent s ≠ _
    exact agentStep_next_ne_refused hc _ r
  · exact execHandOff_ne_refused hc r

/-- Under legal parameters no step is refused. -/
theorem step_ne_refused {s : State} (hc : s.cfg.wf) (r : Refusal) : step s ≠ .refused r := by
  cases hi : s.inputs with
  | nil =>
    rw [step_nil hi]
    exact agentStep_next_ne_refused hc _ r
  | cons i rest =>
    rw [step_cons hi]
    exact exec_input_ne_refused (s := { s with inputs := rest }) hc i r

/-- Settles O38: the wait and the input items' instructions refuse under illegal parameters and there only. -/
theorem stepNeverRefuses : Obligations.StepNeverRefuses :=
  ⟨fun _ hc r => step_ne_refused hc r, fun _ hc => step_illegal hc⟩

end Sys2Proof.Machine

/-! PROOFS. The invariant of the block (10_state.md section 10): the updates of a step that keep it, each said once, then
the write path's answers, the events and the reset. -/

namespace Sys2Proof.Machine

/-! ### Updates that keep the invariant -/

/-- The position of the last byte of a page fits `POS_WIDTH` bits in a legal configuration (00_scope.md R7). -/
theorem lastPosition_fits {c : Config} (h : c.wf) : c.pageSize + 3 < 2 ^ c.posWidth := by
  obtain ⟨-, -, -, -, -, -, -, hfits⟩ := h
  exact hfits

/-- The invariant constrains neither `ADDR`, `RPOS`, `HANDED_OFF`, the outputs nor the input. -/
theorem State.Inv.withUnconstrained {s : State} (h : s.Inv) (addr : Addr) (rpos : BitVec 8) (handedOff : Bool)
    (out : Outputs) (inputs : List Input) :
    State.Inv { s with addr := addr, rpos := rpos, handedOff := handedOff, out := out, inputs := inputs } :=
  { h with }

/-- A written bus phase keeps the invariant. -/
theorem State.Inv.withPhase {s : State} (h : s.Inv) {p : Phase} (hp : p ≠ .unwritten) :
    State.Inv { s with phase := p } :=
  { h with phaseWritten := hp }

/-- One recorded model fault keeps the invariant. -/
theorem State.Inv.withFault {s : State} (h : s.Inv) (r : ModelFault) : State.Inv { s with faults := [r] } :=
  { h with oneFault := le_refl 1 }

/-- The start of a frame keeps the invariant: no Command is excluded at position 0. -/
theorem State.Inv.rewind {s : State} (h : s.Inv) : State.Inv { s with pos := 0 } :=
  { h with
    posFits := Nat.two_pow_pos _
    pageFrame := fun _ => Nat.succ_pos _
    argCommand := fun h1 => absurd h1 Nat.zero_ne_one
    operandCommand := fun h2 => absurd h2 (Nat.not_succ_le_zero 1)
    countdownCancelled := fun hc => h.countdownCancelled (.inr (hc.resolve_left (absurd rfl))) }

/-- A boot request leaves the frame, so it keeps the invariant even while the countdown is live. -/
theorem State.Inv.requestBoot {s : State} (h : s.Inv) : State.Inv { s with cmd := .bootApplication, pos := 0 } :=
  { h.rewind with
    cmdWritten := nofun
    eepromSupported := nofun
    pageFrame := nofun
    argCommand := nofun
    operandCommand := fun h2 => absurd h2 (Nat.not_succ_le_zero 1)
    countdownCancelled := fun hc => hc.elim (absurd rfl) fun hb => absurd rfl hb.2 }

/-- A recognized opcode cancels the countdown and leads to position 1. -/
theorem State.Inv.acceptOpcode {s : State} (h : s.Inv) {c : Cmd} (hc : c = .wait ∨ c = .version ∨ c = .memory) :
    State.Inv { s with ctr := 0, cmd := c, pos := 1 } :=
  { h with
    cmdWritten := by rcases hc with rfl | rfl | rfl <;> nofun
    posFits := lt_trans (show 1 < s.cfg.pageSize + 3 by omega) (lastPosition_fits h.cfgLegal)
    ctrBound := Nat.zero_le _
    eepromSupported := by rcases hc with rfl | rfl | rfl <;> nofun
    pageFrame := by rcases hc with rfl | rfl | rfl <;> nofun
    argCommand := fun _ => hc
    operandCommand := fun h2 => absurd h2 (Nat.not_succ_le_self 1)
    countdownCancelled := fun _ => rfl }

/-- An accepted memory kind leads from position 1, where the countdown is cancelled, to position 2. -/
theorem State.Inv.acceptKind {s : State} (h : s.Inv) (hp : s.pos = 1) {c : Cmd}
    (hc : c = .chipinfo ∨ c = .flash ∨ c = .eeprom ∧ s.cfg.eepromSupport = true) :
    State.Inv { s with cmd := c, pos := 2 } :=
  { h with
    cmdWritten := by rcases hc with rfl | rfl | ⟨rfl, -⟩ <;> nofun
    posFits := lt_trans (show 2 < s.cfg.pageSize + 3 by omega) (lastPosition_fits h.cfgLegal)
    eepromSupported := by
      rcases hc with rfl | rfl | ⟨-, he⟩
      · nofun
      · nofun
      · exact fun _ => he
    pageFrame := fun _ => show 2 < s.cfg.pageSize + 4 by omega
    argCommand := fun h1 => absurd h1 (Nat.succ_ne_self 1)
    operandCommand := fun _ => hc.imp_right (Or.imp_right And.left)
    countdownCancelled := fun _ => h.countdownCancelled (.inl (by omega)) }

/-- From position 2 on, the next position is 0 after a wrap or at least 2; both keep the invariant while it fits
`POS_WIDTH` and, under `FLASH`, the page. -/
theorem State.Inv.advanceOperand {s : State} (h : s.Inv) (hp : 2 ≤ s.pos) {p : Nat} (hn : p = 0 ∨ 2 ≤ p)
    (hw : p < 2 ^ s.cfg.posWidth) (hf : s.cmd = .flash → p < s.cfg.pageSize + 4) : State.Inv { s with pos := p } :=
  { h with
    posFits := hw
    pageFrame := hf
    argCommand := fun (h1 : p = 1) => by omega
    operandCommand := fun _ => h.operandCommand hp
    countdownCancelled := fun _ => h.countdownCancelled (.inl (by omega)) }

/-- A byte put into the Page Buffer keeps the invariant. -/
theorem State.Inv.withBufferByte {s : State} (h : s.Inv) (i : Nat) (data : Byte) :
    State.Inv { s with buf := s.buf.set i data } :=
  { h with bufLength := List.length_set.trans h.bufLength }

/-! ### The memories -/

/-- A legal configuration with data memory has at least one byte of it (00_scope.md R7). -/
theorem eeSize_pos {c : Config} (h : c.wf) (he : c.eepromSupport = true) : 1 ≤ c.eeSize := by
  obtain ⟨-, -, hee, -⟩ := h
  rw [Config.eeOk, if_pos he] at hee
  exact hee.1

/-- A commit keeps the canonical form. -/
theorem flashAfterCommit_wf (c : Config) (start : Addr) (buf : List Byte) {m : Memory} (h : Memory.wf m) :
    Memory.wf (flashAfterCommit c start buf m) := by
  unfold flashAfterCommit
  split
  · exact placeBytes_wf c start buf _ h
  · exact h

/-- A commit stays inside program memory: an allowed page ends at or below `BOOT_START` (42_memory_backend.md R203). -/
theorem flashAfterCommit_within {c : Config} (hc : c.wf) (start : Addr) (buf : List Byte) {m : Memory}
    (h : Memory.within c.flashSize m) : Memory.within c.flashSize (flashAfterCommit c start buf m) := by
  obtain ⟨hpage, ⟨-, -, -, haligned, hboot, -⟩, -⟩ := hc
  unfold flashAfterCommit
  split
  · rename_i hallowed
    have hbelow := page_below hpage start haligned (of_decide_eq_true hallowed)
    refine placeBytes_within c start buf _ _ h fun i hi => ?_
    have := slot_lt hpage start hi
    omega
  · exact h

/-- A page commit keeps the invariant. -/
theorem State.Inv.withCommit {s : State} (h : s.Inv) (start : Addr) (buf : List Byte) :
    State.Inv { s with flash := flashAfterCommit s.cfg start buf s.flash } :=
  { h with
    flashWf := flashAfterCommit_wf s.cfg start buf h.flashWf
    flashWithin := flashAfterCommit_within h.cfgLegal start buf h.flashWithin }

/-- A data-memory write at a checked address keeps the invariant. -/
theorem State.Inv.withEeByte {s : State} (h : s.Inv) (hc : s.cmd = .eeprom) {a : Addr} {i : Nat}
    (hi : eeAddr s.cfg a = .ok i) (data : Byte) : State.Inv { s with ee := Memory.write s.ee i data } :=
  { h with
    eeWf := Memory.write_wf i data h.eeWf
    eeWithin := Memory.write_within data h.eeWithin
      (eeAddr_lt (eeSize_pos h.cfgLegal (h.eepromSupported hc)) hi) }

/-! ### Steps -/

/-- An accepted address or payload byte before the last byte of a page keeps the invariant. -/
theorem State.Inv.advanceInPage {s : State} (h : s.Inv) (h2 : 2 ≤ s.pos) (hp : s.pos < s.cfg.pageSize + 3) :
    State.Inv { s with pos := advancePos s.cfg s.pos } := by
  rw [advancePos_inPage h.cfgLegal hp]
  exact h.advanceOperand h2 (.inr (by omega)) (by have := lastPosition_fits h.cfgLegal; omega) fun _ => by omega

/-- An accepted payload byte under a Command other than `FLASH` keeps the invariant, whatever `POS_OVERFLOW`. -/
theorem State.Inv.advancePayload {s : State} (h : s.Inv) (h4 : 4 ≤ s.pos) (hf : s.cmd ≠ .flash) :
    State.Inv { s with pos := advancePos s.cfg s.pos } :=
  h.advanceOperand (by omega) ((advancePos_payload h.cfgLegal h4 h.posFits).imp_right (le_trans (by decide)))
    (advancePos_lt _ _) (absurd · hf)

/-- Every answer of the write path, with the position after its verdict, keeps the invariant. -/
theorem State.Inv.afterWritePath {s u : State} {data : Byte} {a : Ack} (h : s.Inv)
    (hw : writePath data s = .answer a u) : State.Inv { u with pos := posAfter u.cfg u.pos a } := by
  have hpage := pageSize_bounds h.cfgLegal.1
  have hnext (hp : s.pos < s.cfg.pageSize + 3) : posAfter s.cfg s.pos .ack = s.pos + 1 :=
    advancePos_inPage h.cfgLegal hp
  rcases writePath_answer hw with
    ⟨hp, -, rfl, c, hc, rfl⟩ | ⟨-, -, rfl, rfl⟩ | ⟨-, -, -, rfl, rfl⟩ | ⟨hp, -, rfl, c, hc, rfl⟩ | ⟨-, -, rfl, rfl⟩ |
    ⟨hp, -, rfl, rfl⟩ | ⟨h4, -, hlt, hne, rfl, rfl⟩ | ⟨-, -, -, -, rfl, rfl⟩ | ⟨h4, hc, rfl, i, hi, rfl⟩ |
    ⟨h4, hc, -, rfl, rfl⟩
  · -- a recognized opcode (R121)
    rw [show posAfter s.cfg s.pos .ack = 1 by rw [hnext (by omega), hp]]
    exact h.acceptOpcode hc
  · exact h.requestBoot -- an unknown opcode (R125)
  · exact h.requestBoot -- the boot type 0x80 (R126)
  · -- a memory kind (R127-R129)
    rw [show posAfter s.cfg s.pos .ack = 2 by rw [hnext (by omega), hp]]
    exact h.acceptKind hp hc
  · exact h.rewind -- a rejected byte
  · -- an address byte (R132)
    exact (h.advanceInPage (by omega) (by omega)).withUnconstrained _ _ _ _ _
  · -- a buffered page byte (R133)
    exact (h.advanceInPage (by omega) (by omega)).withBufferByte _ _
  · -- the last byte of a page (R133)
    exact (((h.withBufferByte _ _).withCommit _ _).withUnconstrained _ _ _ _ _).rewind
  · -- a data-memory byte (R134)
    exact ((h.withEeByte hc hi data).advancePayload h4 (by simp [hc])).withUnconstrained _ _ _ _ _
  · exact h.advancePayload h4 (by simp [hc]) -- a discarded chip-info byte (R135)

/-- Every answer of the read path keeps the invariant. -/
theorem State.Inv.afterReadPath {s u : State} {v : Byte} (h : s.Inv) (hr : readPath s = .answer v u) : u.Inv := by
  rcases readPath_answer hr with rfl | ⟨-, rfl⟩
  · exact h
  · exact h.withUnconstrained _ _ _ _ _

/-- A tick keeps the invariant: where it forces the boot the countdown is live, so the position is 0. -/
theorem State.Inv.afterTick {s t : State} (h : s.Inv)
    (ht : (1 < s.ctr ∧ t = { s with ctr := s.ctr - 1, out := Outputs.quiet }) ∨
      (s.ctr = 1 ∧ t = { s with cmd := .bootApplication, out := Outputs.quiet }) ∨
      (s.ctr = 0 ∧ t = { s with out := Outputs.quiet })) : t.Inv := by
  rcases ht with ⟨hc, rfl⟩ | ⟨hc, rfl⟩ | ⟨-, rfl⟩
  · have hlive := mt h.countdownCancelled (by omega)
    exact { h with
      ctrBound := (Nat.sub_le _ _).trans h.ctrBound
      countdownCancelled := (absurd · hlive) }
  · have hpos : s.pos = 0 := by
      by_contra hp
      have := h.countdownCancelled (.inl hp)
      omega
    have hboot := h.requestBoot.withUnconstrained s.addr s.rpos s.handedOff Outputs.quiet s.inputs
    rwa [← hpos] at hboot
  · exact h.withUnconstrained _ _ _ _ _

/-- Every input item's instruction keeps the invariant. -/
theorem State.Inv.afterInput {s t : State} {x : Input} (h : s.Inv) (ht : exec (decodeInput x) s = .next t) : t.Inv := by
  have hquiet : State.Inv { s with out := Outputs.quiet } := h.withUnconstrained _ _ _ _ _
  rcases exec_input_next ht with ⟨-, rfl⟩ | ⟨-, rfl⟩ | ⟨-, rfl⟩ | ⟨-, rfl⟩ | ⟨-, htick⟩ | ⟨-, -, rfl⟩ | ⟨r, rfl, -⟩ |
    ⟨-, -, v, u, hu, rfl⟩ | ⟨-, data, -, a, u, hu, rfl⟩
  · exact hquiet.rewind.withPhase nofun
  · exact (hquiet.withPhase (p := .tx) nofun).withUnconstrained _ _ _ _ _
  · exact hquiet.withPhase nofun
  · exact (h.withPhase (p := .idle) nofun).withUnconstrained _ _ _ _ _
  · exact h.afterTick htick
  · exact h.withUnconstrained _ _ _ _ _
  · exact hquiet.withFault r
  · exact (hquiet.afterReadPath hu).withUnconstrained _ _ _ _ _
  · exact (hquiet.afterWritePath hu).withUnconstrained _ _ _ _ _

/-- Settles O41: the wait leaves the state, and the next input's instruction runs from the state with the input taken,
which the invariant does not see. -/
theorem everyStepKeepsInvariant : Obligations.EveryStepKeepsInvariant := by
  intro s t h ht
  rcases step_next ht with ⟨-, rfl⟩ | ⟨x, rest, -, hx⟩
  · exact h
  · exact State.Inv.afterInput (h.withUnconstrained _ _ _ _ _) hx

/-- A reset of a legal configuration meets the invariant: position 0, Command `WAIT`, the whole countdown. -/
theorem resetWith_inv {cfg : Config} (addr : Addr) {buf : List Byte} {flash ee : Memory} (hcfg : cfg.wf)
    (hbuf : buf.length = cfg.pageSize) (hflash : Memory.wf flash) (hflashIn : Memory.within cfg.flashSize flash)
    (hee : Memory.wf ee) (heeIn : Memory.within cfg.eeSize ee) : (State.resetWith cfg addr buf flash ee).Inv where
  cfgLegal := hcfg
  cmdWritten := nofun
  phaseWritten := nofun
  posFits := Nat.two_pow_pos _
  ctrBound := le_refl cfg.t0
  bufLength := hbuf
  flashWf := hflash
  flashWithin := hflashIn
  eeWf := hee
  eeWithin := heeIn
  eepromSupported := nofun
  pageFrame := nofun
  argCommand := nofun
  operandCommand := nofun
  countdownCancelled := fun hc => hc.elim (absurd rfl) fun hw => absurd rfl hw.1
  oneFault := Nat.zero_le 1

/-- Settles O40: the model's own reset is one of a legal configuration with nothing listed in either memory. -/
theorem resetMeetsInvariant : Obligations.ResetMeetsInvariant :=
  ⟨fun _ addr _ _ _ hcfg hbuf hflash hflashIn hee heeIn =>
      resetWith_inv addr hcfg hbuf hflash hflashIn hee heeIn,
    resetWith_inv 0 (by decide) List.length_replicate ⟨.nil, nofun⟩ nofun ⟨.nil, nofun⟩ nofun⟩

end Sys2Proof.Machine

/-! PROOFS. What a step does to one register or memory: `FAULTS` (60_exceptions.md R255), program memory (20_memory.md R62)
and `CTR` (10_state.md R39); then what the events that read `CMD` answer. -/

namespace Sys2Proof.Machine

/-! ### `FAULTS` -/

/-- An answer of the read path records no model fault and leaves program memory and `CTR`. -/
theorem readPath_answer_keeps {s u : State} {v : Byte} (h : readPath s = .answer v u) :
    u.faults = s.faults ∧ u.flash = s.flash ∧ u.ctr = s.ctr := by
  rcases readPath_answer h with rfl | ⟨-, rfl⟩ <;> exact ⟨rfl, rfl, rfl⟩

/-- An answer of the write path records no model fault. -/
theorem writePath_answer_faults {data : Byte} {s u : State} {a : Ack} (h : writePath data s = .answer a u) :
    u.faults = s.faults := by
  rcases writePath_answer h with
    ⟨-, -, -, _, -, rfl⟩ | ⟨-, -, -, rfl⟩ | ⟨-, -, -, -, rfl⟩ | ⟨-, -, -, _, -, rfl⟩ | ⟨-, -, -, rfl⟩ |
    ⟨-, -, -, rfl⟩ | ⟨-, -, -, -, -, rfl⟩ | ⟨-, -, -, -, -, rfl⟩ | ⟨-, -, -, _, -, rfl⟩ | ⟨-, -, -, -, rfl⟩ <;> rfl

/-- Which of the two model faults that the spec calls unreachable an input item can record, and where. -/
theorem exec_input_faults {s t : State} {x : Input} (h : exec (decodeInput x) s = .next t) {r : ModelFault}
    (hr : r ∈ t.faults) :
    (r = .cmdUnreachable → s.cmd = .unreachable) ∧
      (r = .posBeyondPage → s.cmd = .flash ∧ s.cfg.pageSize + 4 ≤ s.pos) := by
  have hnone : s.faults = [] := (exec_ready h).2.1
  have hkept (hf : t.faults = s.faults) : False := by simp [hf, hnone] at hr
  rcases exec_input_next h with ⟨-, rfl⟩ | ⟨-, rfl⟩ | ⟨-, rfl⟩ | ⟨-, rfl⟩ | ⟨-, ⟨-, rfl⟩ | ⟨-, rfl⟩ | ⟨-, rfl⟩⟩ |
    ⟨-, -, rfl⟩ | ⟨q, rfl, hq⟩ | ⟨-, -, v, u, hu, rfl⟩ | ⟨-, data, -, a, u, hu, rfl⟩
  iterate 8 exact (hkept rfl).elim
  · obtain rfl : r = q := List.mem_singleton.1 hr
    rcases hq with rfl | rfl | ⟨rfl, hc⟩ | ⟨rfl, hc, -, hp⟩ | rfl | rfl
    · exact ⟨nofun, nofun⟩
    · exact ⟨nofun, nofun⟩
    · exact ⟨fun _ => hc, nofun⟩
    · exact ⟨nofun, fun _ => ⟨hc, hp⟩⟩
    · exact ⟨nofun, nofun⟩
    · exact ⟨nofun, nofun⟩
  · have hread := readPath_answer_keeps hu
    exact (hkept hread.1).elim
  · have hwrite := writePath_answer_faults hu
    exact (hkept hwrite).elim

/-- Settles O42: the invariant excludes both causes, `CMD` = 7 and a position beyond the page. -/
theorem unreachableFaultsNeverRecorded : Obligations.UnreachableFaultsNeverRecorded := by
  intro s t hinv ht
  rcases step_next ht with ⟨-, rfl⟩ | ⟨x, rest, -, hx⟩
  · simp [(step_ready ht).2.1]
  · constructor
    · exact fun hr => hinv.cmdWritten ((exec_input_faults hx hr).1 rfl)
    · intro hr
      obtain ⟨hc, hp⟩ := (exec_input_faults hx hr).2 rfl
      exact absurd (hinv.pageFrame hc) (Nat.not_lt_of_le hp)

/-! ### Program memory -/

/-- An answer of the write path changes program memory only by the commit at the last byte of a page under `FLASH`. -/
theorem writePath_answer_flash {data : Byte} {s u : State} {a : Ack} (h : writePath data s = .answer a u) :
    u.flash = s.flash ∨
      (s.cmd = .flash ∧ s.pos = s.cfg.pageSize + 3 ∧ ∃ buf, u.flash = flashAfterCommit s.cfg s.addr buf s.flash) := by
  rcases writePath_answer h with
    ⟨-, -, -, _, -, rfl⟩ | ⟨-, -, -, rfl⟩ | ⟨-, -, -, -, rfl⟩ | ⟨-, -, -, _, -, rfl⟩ | ⟨-, -, -, rfl⟩ |
    ⟨-, -, -, rfl⟩ | ⟨-, -, -, -, -, rfl⟩ | ⟨h4, hc, hlt, hlast, -, rfl⟩ | ⟨-, -, -, _, -, rfl⟩ | ⟨-, -, -, -, rfl⟩
  iterate 7 exact .inl rfl
  · exact .inr ⟨hc, by omega, _, rfl⟩
  iterate 2 exact .inl rfl

/-- An input item changes program memory only by a commit, at the last byte of a page received under `FLASH`. -/
theorem exec_input_flash {s t : State} {x : Input} (h : exec (decodeInput x) s = .next t) :
    t.flash = s.flash ∨
      ((∃ data, decodeInput x = .evRx data) ∧ s.phase = .rx ∧ s.cmd = .flash ∧ s.pos = s.cfg.pageSize + 3 ∧
        ∃ buf, t.flash = flashAfterCommit s.cfg s.addr buf s.flash) := by
  rcases exec_input_next h with ⟨-, rfl⟩ | ⟨-, rfl⟩ | ⟨-, rfl⟩ | ⟨-, rfl⟩ | ⟨-, ⟨-, rfl⟩ | ⟨-, rfl⟩ | ⟨-, rfl⟩⟩ |
    ⟨-, -, rfl⟩ | ⟨_, rfl, -⟩ | ⟨-, -, v, u, hu, rfl⟩ | ⟨⟨-, hphase, -⟩, data, hx, a, u, hu, rfl⟩
  iterate 9 exact .inl rfl
  · have hread := readPath_answer_keeps hu
    exact .inl hread.2.1
  · have hwrite := writePath_answer_flash hu
    exact hwrite.imp_right fun hcommit => ⟨⟨data, hx⟩, hphase, hcommit⟩

/-- A byte that a commit changes lies in the page containing the start Address, and the page may be committed. -/
theorem changed_by_commit {c : Config} (hc : c.wf) {start : Addr} {buf : List Byte} {m : Memory} {a : Nat}
    (h : Memory.read (flashAfterCommit c start buf m) a ≠ Memory.read m a) :
    start.toNat < c.bootStart ∧ a / c.pageSize = start.toNat / c.pageSize := by
  have hallowed : commitAllowed c start = true := by
    by_contra hn
    exact h (by rw [flashAfterCommit_discarded (by simpa using hn)])
  have hin := mt (read_flashAfterCommit_other hc.1 start buf m (a := a)) h
  rw [pageBase_toNat hc.1] at hin
  have hdiv := Nat.div_add_mod' start.toNat c.pageSize
  refine ⟨(commitAllowed_iff hc start).1 hallowed, Nat.div_eq_of_lt_le ?_ ?_⟩
  · omega
  · rw [Nat.succ_mul]; omega

/-- Settles O44: the only writer of program memory is the commit, which stays in its page and below `BOOT_START`. -/
theorem flashChangesOnlyByCommit : Obligations.FlashChangesOnlyByCommit := by
  intro s t a ht hne
  rcases step_next ht with ⟨-, rfl⟩ | ⟨x, rest, hi, hx⟩
  · exact absurd rfl hne
  · rcases exec_input_flash hx with hsame | ⟨⟨data, hd⟩, hphase, hcmd, hpos, buf, hflash⟩
    · exact absurd (by rw [hsame]) hne
    · rw [hflash] at hne
      exact ⟨⟨data, rest, x, hi, hd⟩, hphase, hcmd, hpos, changed_by_commit (step_ready ht).1 hne⟩

/-! ### `CTR` -/

/-- An answer of the write path writes `CTR` only for a recognized opcode at position 0, which clears it. -/
theorem writePath_answer_ctr {data : Byte} {s u : State} {a : Ack} (h : writePath data s = .answer a u) :
    u.ctr = s.ctr ∨ (u.ctr = 0 ∧ s.pos = 0 ∧ data.toNat < 3) := by
  rcases writePath_answer h with
    ⟨hp, hd, -, _, -, rfl⟩ | ⟨-, -, -, rfl⟩ | ⟨-, -, -, -, rfl⟩ | ⟨-, -, -, _, -, rfl⟩ | ⟨-, -, -, rfl⟩ |
    ⟨-, -, -, rfl⟩ | ⟨-, -, -, -, -, rfl⟩ | ⟨-, -, -, -, -, rfl⟩ | ⟨-, -, -, _, -, rfl⟩ | ⟨-, -, -, -, rfl⟩
  · exact .inr ⟨rfl, hp, hd⟩
  iterate 9 exact .inl rfl

/-- The two writers of `CTR`: a tick above 1 and a recognized opcode at position 0. -/
theorem exec_input_ctr {s t : State} {x : Input} (h : exec (decodeInput x) s = .next t) :
    t.ctr = s.ctr ∨ (decodeInput x = .evTick ∧ 1 < s.ctr ∧ t.ctr = s.ctr - 1) ∨
      (t.ctr = 0 ∧ s.phase = .rx ∧ s.pos = 0 ∧ ∃ data : Byte, data.toNat < 3 ∧ decodeInput x = .evRx data) := by
  rcases exec_input_next h with ⟨-, rfl⟩ | ⟨-, rfl⟩ | ⟨-, rfl⟩ | ⟨-, rfl⟩ | ⟨hx, ⟨hc, rfl⟩ | ⟨-, rfl⟩ | ⟨-, rfl⟩⟩ |
    ⟨-, -, rfl⟩ | ⟨_, rfl, -⟩ | ⟨-, -, v, u, hu, rfl⟩ | ⟨⟨-, hphase, -⟩, data, hx, a, u, hu, rfl⟩
  iterate 4 exact .inl rfl
  · exact .inr (.inl ⟨hx, hc, rfl⟩)
  iterate 4 exact .inl rfl
  · have hread := readPath_answer_keeps hu
    exact .inl hread.2.2
  · have hwrite := writePath_answer_ctr hu
    exact hwrite.imp_right fun ⟨hzero, hpos, hd⟩ => .inr ⟨hzero, hphase, hpos, data, hd, hx⟩

/-- Settles O46: each of the two writers of `CTR` lowers it. -/
theorem countdownNeverRises : Obligations.CountdownNeverRises := by
  intro s t ht
  rcases step_next ht with ⟨-, rfl⟩ | ⟨x, rest, hi, hx⟩
  · exact ⟨le_refl _, fun hne => absurd rfl hne⟩
  · rcases exec_input_ctr hx with hsame | htick | hop
    · exact ⟨hsame.le, fun hne => absurd hsame hne⟩
    · exact ⟨htick.2.2.trans_le (Nat.sub_le _ _), fun _ => ⟨x, rest, hi, .inl htick⟩⟩
    · exact ⟨hop.1.trans_le (Nat.zero_le _), fun _ => ⟨x, rest, hi, .inr hop⟩⟩

/-! ### The events that read `CMD` -/

/-- The read path answers where its address check raises no fault (42_memory_backend.md R208, R210). -/
theorem readPath_answers {s : State} (hflash : s.cmd = .flash → s.addr.toNat < s.cfg.flashSize ∨ s.cfg.flashOor = .wrap)
    (hee : s.cmd = .eeprom → s.addr.toNat < s.cfg.eeSize ∨ s.cfg.eeOor = .wrap) : ∃ v u, readPath s = .answer v u := by
  cases hr : readPath s with
  | answer v u => exact ⟨v, u, rfl⟩
  | raise r =>
    rcases readPath_raise hr with ⟨-, hc, hout, hfault⟩ | ⟨-, hc, hout, hfault⟩
    · rcases hflash hc with hin | hwrap
      · omega
      · rw [hwrap] at hfault; cases hfault
    · rcases hee hc with hin | hwrap
      · omega
      · rw [hwrap] at hfault; cases hfault

/-- While transmitting, `EV_TX_REQ` transmits what the read path answers and advances `RPOS`. -/
theorem exec_evTxReq_answer {s u : State} {v : Byte} (h : s.Transmitting)
    (hr : readPath { s with out := Outputs.quiet } = .answer v u) :
    exec .evTxReq s = .next { u with rpos := u.rpos + 1, out := { Outputs.quiet with txd := some v } } := by
  show onRequest s _ = _
  rw [onRequest_transmitting h, hr]
  rfl

/-- Settles O15: an answer of the read path changes at most `ADDR`. -/
theorem requestedByteAnswered : Obligations.RequestedByteAnswered := by
  intro s h hflash hee
  obtain ⟨v, u, hr⟩ := readPath_answers (s := { s with out := Outputs.quiet }) hflash hee
  obtain ⟨⟨-, hfaults, -⟩, hphase, -⟩ := id h
  refine ⟨v, _, exec_evTxReq_answer h hr, rfl, ?_⟩
  have hrpos : (s.rpos + 1).toNat = (s.rpos.toNat + 1) % 256 := BitVec.toNat_add _ _
  rcases readPath_answer hr with rfl | ⟨-, rfl⟩ <;> exact ⟨hfaults, hrpos, rfl, rfl, rfl, hphase⟩

/-- Settles O13: the guards of both events check the phase first, then `CMD` = 7. -/
theorem unreachableCommandRecorded : Obligations.UnreachableCommandRecorded := by
  refine fun s hr hc => ⟨fun data => ?_, ?_⟩
  · by_cases hp : s.phase = .rx
    · rw [if_pos hp]; exact onReceive_cmdUnreachable hr hp hc _
    · rw [if_neg hp]; exact onReceive_outOfPhase hr hp _
  · by_cases hp : s.phase = .tx
    · rw [if_pos hp]; exact onRequest_cmdUnreachable hr hp hc _
    · rw [if_neg hp]; exact onRequest_outOfPhase hr hp _

/-- Settles O35: in a ready state the hand-off asks for `boot_now` alone. -/
theorem handOffNeedsBootNow : Obligations.HandOffNeedsBootNow := by
  intro s hr
  have hexec : exec .handOff s =
      if s.bootNow then .next { s with handedOff := true, out := Outputs.quiet } else .fault .handOffNotEnabled :=
    agentStep_ready hr fun s => if s.bootNow then .next { s with handedOff := true } else .fault .handOffNotEnabled
  refine ⟨fun hc => ?_, fun hc => ?_⟩
  · rw [hexec, if_pos (by simp [State.bootNow, hc])]
  · rw [hexec, if_neg (by simp [State.bootNow, hc])]

end Sys2Proof.Machine

/-! PROOFS. Positions that nothing observes (10_state.md R49): outside `RX` the guard of `EV_RX` hides `POS` from the write
path, and outside `TX` the guard of `EV_TX_REQ` hides `RPOS` from the read path; the write path does not read `RPOS`, nor
the read path `POS`. -/

namespace Sys2Proof.Machine

/-! ### Updates that the guards do not see -/

/-- An update of the state that no guard of a step sees and that commutes with what the guards write. -/
structure UnseenByGuards (f : State → State) : Prop where
  cfg : ∀ s, (f s).cfg = s.cfg
  cmd : ∀ s, (f s).cmd = s.cmd
  phase : ∀ s, (f s).phase = s.phase
  faults : ∀ s, (f s).faults = s.faults
  handedOff : ∀ s, (f s).handedOff = s.handedOff
  quiet : ∀ s, { f s with out := Outputs.quiet } = f { s with out := Outputs.quiet }
  raise : ∀ s r, (f s).raise r = f (s.raise r)

/-- `POS` replaced. -/
def State.withPos (p : Nat) (s : State) : State := { s with pos := p }

/-- `RPOS` replaced. -/
def State.withRpos (p : BitVec 8) (s : State) : State := { s with rpos := p }

theorem withPos_unseen (p : Nat) : UnseenByGuards (State.withPos p) :=
  ⟨fun _ => rfl, fun _ => rfl, fun _ => rfl, fun _ => rfl, fun _ => rfl, fun _ => rfl, fun _ _ => rfl⟩

theorem withRpos_unseen (p : BitVec 8) : UnseenByGuards (State.withRpos p) :=
  ⟨fun _ => rfl, fun _ => rfl, fun _ => rfl, fun _ => rfl, fun _ => rfl, fun _ => rfl, fun _ _ => rfl⟩

/-- The update `f` before the body gives what the update `g` after it gives, from `s`. -/
def Carries (f g : State → State) (body : State → Host.Outcome State Fault Refusal) (s : State) : Prop :=
  nextState (body (f s)) = (nextState (body s)).map g

/-- A path's result with its state updated; a model fault carries no state. -/
def PathResult.mapState {α : Type} (f : State → State) : PathResult α → PathResult α
  | .answer a s => .answer a (f s)
  | .raise r => .raise r

/-- An effect of a path carries the update `f` along and is the same otherwise. -/
def EffectCarries {α : Type} (f : State → State) (effect : State → PathResult α) : Prop :=
  ∀ s, effect (f s) = (effect s).mapState f

section
variable {f : State → State} (hf : UnseenByGuards f)
include hf

/-- An agent's step carries along what its body does. -/
theorem agentStep_carries {s : State} {body : State → Host.Outcome State Fault Refusal}
    {g : State → State} (hbody : Carries f g body { s with out := Outputs.quiet }) :
    Carries f g (fun s => agentStep s body) s := by
  dsimp only [Carries, agentStep]
  rw [hf.quiet, hf.cfg, hf.faults, hf.handedOff]
  split_ifs
  · rfl
  · rfl
  · exact hbody
  · rfl

/-- `EV_RX` carries along what its body does, which runs in `RX` only. -/
theorem onReceive_carries {s : State} {body : State → Host.Outcome State Fault Refusal}
    (hbody : s.phase = .rx → Carries f f body { s with out := Outputs.quiet }) :
    Carries f f (fun s => onReceive s body) s := by
  refine agentStep_carries hf ?_
  dsimp only [Carries]
  rw [hf.phase, hf.cmd, hf.raise, hf.raise]
  split_ifs with hphase
  · rfl
  · rfl
  · exact hbody (not_not.1 hphase)

/-- `EV_TX_REQ` carries along what its body does, which runs in `TX` only. -/
theorem onRequest_carries {s : State} {body : State → Host.Outcome State Fault Refusal}
    (hbody : s.phase = .tx → Carries f f body { s with out := Outputs.quiet }) :
    Carries f f (fun s => onRequest s body) s := by
  refine agentStep_carries hf ?_
  dsimp only [Carries]
  rw [hf.phase, hf.cmd, hf.raise, hf.raise]
  split_ifs with hphase
  · rfl
  · rfl
  · exact hbody (not_not.1 hphase)

end

/-! ### `POS` -/

/-- The end of an `EV_TX_REQ` step does not read `POS`. -/
theorem finishRequest_carries_pos {p : Nat} {effect : State → PathResult Byte}
    (he : EffectCarries (State.withPos p) effect) (s : State) :
    Carries (State.withPos p) (State.withPos p) (fun s => finishRequest (effect s) s) s := by
  dsimp only [Carries]
  rw [he]
  cases effect s <;> rfl

/-- A read row carries `POS` along where its effect does. -/
theorem readRow_carries_pos {p : Nat} {selected : State → Bool} {effect : State → PathResult Byte}
    (hs : ∀ s, selected (s.withPos p) = selected s) (he : EffectCarries (State.withPos p) effect) (s : State) :
    Carries (State.withPos p) (State.withPos p) (readRow selected effect) s := by
  refine onRequest_carries (withPos_unseen p) fun _ => ?_
  dsimp only [Carries]
  rw [hs]
  split_ifs
  · exact finishRequest_carries_pos he _
  · rfl

theorem readFlashEffect_carries_pos (p : Nat) : EffectCarries (State.withPos p) readFlashEffect := by
  intro s
  dsimp only [readFlashEffect, State.withPos]
  split <;> rfl

theorem readEepromEffect_carries_pos (p : Nat) : EffectCarries (State.withPos p) readEepromEffect := by
  intro s
  dsimp only [readEepromEffect, State.withPos]
  split <;> rfl

theorem readPath_carries_pos (p : Nat) : EffectCarries (State.withPos p) readPath := by
  intro s
  unfold readPath
  rw [show (s.withPos p).cmd = s.cmd from rfl]
  split
  · rfl
  · rfl
  · exact readFlashEffect_carries_pos p s
  · exact readEepromEffect_carries_pos p s
  · rfl

/-! ### `RPOS` -/

/-- The end of an `EV_RX` step does not read `RPOS`. -/
theorem finishReceive_carries_rpos {p : BitVec 8} {effect : State → PathResult Ack}
    (he : EffectCarries (State.withRpos p) effect) (s : State) :
    Carries (State.withRpos p) (State.withRpos p) (fun s => finishReceive (effect s) s) s := by
  dsimp only [Carries]
  rw [he]
  cases effect s <;> rfl

/-- A frame row carries `RPOS` along where its effect does. -/
theorem frameRow_carries_rpos {p : BitVec 8} {selected : State → Bool} {effect : State → PathResult Ack}
    (hs : ∀ s, selected (s.withRpos p) = selected s) (he : EffectCarries (State.withRpos p) effect) (s : State) :
    Carries (State.withRpos p) (State.withRpos p) (frameRow selected effect) s := by
  refine onReceive_carries (withRpos_unseen p) fun _ => ?_
  dsimp only [Carries]
  rw [hs]
  split_ifs
  · exact finishReceive_carries_rpos he _
  · rfl

section
variable (p : BitVec 8) (data : Byte)

theorem switchAppEffect_carries_rpos : EffectCarries (State.withRpos p) (switchAppEffect data) := by
  intro s
  unfold switchAppEffect
  split_ifs <;> rfl

theorem kindEepromEffect_carries_rpos : EffectCarries (State.withRpos p) kindEepromEffect := by
  intro s
  dsimp only [kindEepromEffect, State.withRpos]
  split_ifs <;> rfl

theorem addrByteEffect_carries_rpos : EffectCarries (State.withRpos p) (addrByteEffect data) := by
  intro s
  dsimp only [addrByteEffect, State.withRpos]
  split_ifs <;> rfl

theorem writeFlashByteEffect_carries_rpos : EffectCarries (State.withRpos p) (writeFlashByteEffect data) := by
  intro s
  dsimp only [writeFlashByteEffect, State.withRpos]
  split_ifs <;> rfl

theorem writeEeByteEffect_carries_rpos : EffectCarries (State.withRpos p) (writeEeByteEffect data) := by
  intro s
  dsimp only [writeEeByteEffect, State.withRpos]
  split <;> rfl

theorem writeChipinfoByteEffect_carries_rpos : EffectCarries (State.withRpos p) (writeChipinfoByteEffect data) := by
  intro s
  dsimp only [writeChipinfoByteEffect, State.withRpos]
  split <;> rfl

theorem posZero_carries_rpos : EffectCarries (State.withRpos p) (posZero data) := by
  intro s
  unfold posZero
  split_ifs <;> rfl

theorem posOne_carries_rpos : EffectCarries (State.withRpos p) (posOne data) := by
  intro s
  unfold posOne
  rw [show (s.withRpos p).cmd = s.cmd from rfl]
  split
  · exact switchAppEffect_carries_rpos p data s
  · split_ifs
    · rfl
    · rfl
    · exact kindEepromEffect_carries_rpos p s
    · rfl
  · rfl

theorem posPayload_carries_rpos : EffectCarries (State.withRpos p) (posPayload data) := by
  intro s
  unfold posPayload
  rw [show (s.withRpos p).cmd = s.cmd from rfl]
  split
  · exact writeFlashByteEffect_carries_rpos p data s
  · exact writeEeByteEffect_carries_rpos p data s
  · exact writeChipinfoByteEffect_carries_rpos p data s
  · rfl

theorem writePath_carries_rpos : EffectCarries (State.withRpos p) (writePath data) := by
  intro s
  unfold writePath
  rw [show (s.withRpos p).pos = s.pos from rfl]
  split
  · exact posZero_carries_rpos p data s
  · exact posOne_carries_rpos p data s
  · exact addrByteEffect_carries_rpos p data s
  · exact addrByteEffect_carries_rpos p data s
  · exact posPayload_carries_rpos p data s

end

/-! ### Every instruction -/

/-- Outside `RX` every instruction but `EV_ADDR_W` carries `POS` along. -/
theorem exec_carries_pos {i : Instr} (hi : i ≠ .evAddrW) {s : State} (p : Nat) (hs : s.phase ≠ .rx) :
    Carries (State.withPos p) (State.withPos p) (exec i) s := by
  have hf := withPos_unseen p
  have hreceive (body) : Carries (State.withPos p) (State.withPos p) (fun s => onReceive s body) s :=
    onReceive_carries hf fun hrx => absurd hrx hs
  cases i with
  | evAddrW => exact absurd rfl hi
  | evAddrR =>
    show Carries _ _ execEvAddrR s
    refine agentStep_carries hf ?_
    dsimp only [Carries, State.withPos, State.endOpenTransaction]
    split_ifs <;> rfl
  | evTxReq => exact onRequest_carries hf fun _ => finishRequest_carries_pos (readPath_carries_pos p) _
  | evStop =>
    show Carries _ _ execEvStop s
    exact agentStep_carries hf rfl
  | evBusError =>
    show Carries _ _ execEvBusError s
    exact agentStep_carries hf rfl
  | evTick =>
    show Carries _ _ execEvTick s
    refine agentStep_carries hf ?_
    dsimp only [Carries, State.withPos]
    split_ifs <;> rfl
  | evReserved7 =>
    show Carries _ _ reservedEvent s
    exact agentStep_carries hf rfl
  | evReserved8F =>
    show Carries _ _ reservedEvent s
    exact agentStep_carries hf rfl
  | handOff =>
    show Carries _ _ execHandOff s
    refine agentStep_carries hf ?_
    by_cases hb : s.cmd = .bootApplication <;> simp [Carries, State.withPos, State.bootNow, nextState, hb]
  | readVersion =>
    show Carries _ _ execReadVersion s
    exact readRow_carries_pos (fun _ => rfl) (fun _ => rfl) s
  | readChipinfo =>
    show Carries _ _ execReadChipinfo s
    exact readRow_carries_pos (fun _ => rfl) (fun _ => rfl) s
  | readFlash =>
    show Carries _ _ execReadFlash s
    exact readRow_carries_pos (fun _ => rfl) (readFlashEffect_carries_pos p) s
  | readEeprom =>
    show Carries _ _ execReadEeprom s
    exact readRow_carries_pos (fun _ => rfl) (readEepromEffect_carries_pos p) s
  | readFiller =>
    show Carries _ _ execReadFiller s
    exact readRow_carries_pos (fun _ => rfl) (fun _ => rfl) s
  | _ =>
    simp only [Carries, exec, execEvRx, execOpWait, execOpVersion, execOpMemory, execOpUnknown, execSwitchApp,
      execKindChipinfo, execKindFlash, execKindEeprom, execKindBad, execPos1Other, execAddrByte, execWriteFlashByte,
      execWriteEeByte, execWriteChipinfoByte, execPayloadOther, frameRow]
    exact hreceive _

/-- `EV_ADDR_W` clears `POS`, whatever it was. -/
theorem execEvAddrW_carries_pos (p : Nat) (s : State) :
    Carries (State.withPos p) (State.withPos 0) (exec .evAddrW) s := by
  show Carries _ _ execEvAddrW s
  refine agentStep_carries (withPos_unseen p) ?_
  dsimp only [Carries, State.withPos, State.endOpenTransaction]
  split_ifs <;> rfl

/-- Outside `TX` every instruction but `EV_ADDR_R` carries `RPOS` along. -/
theorem exec_carries_rpos {i : Instr} (hi : i ≠ .evAddrR) {s : State} (p : BitVec 8) (hs : s.phase ≠ .tx) :
    Carries (State.withRpos p) (State.withRpos p) (exec i) s := by
  have hf := withRpos_unseen p
  have hrequest (body) : Carries (State.withRpos p) (State.withRpos p) (fun s => onRequest s body) s :=
    onRequest_carries hf fun htx => absurd htx hs
  cases i with
  | evAddrW =>
    show Carries _ _ execEvAddrW s
    refine agentStep_carries hf ?_
    dsimp only [Carries, State.withRpos, State.endOpenTransaction]
    split_ifs <;> rfl
  | evAddrR => exact absurd rfl hi
  | evRx data => exact onReceive_carries hf fun _ => finishReceive_carries_rpos (writePath_carries_rpos p data) _
  | evStop =>
    show Carries _ _ execEvStop s
    exact agentStep_carries hf rfl
  | evBusError =>
    show Carries _ _ execEvBusError s
    exact agentStep_carries hf rfl
  | evTick =>
    show Carries _ _ execEvTick s
    refine agentStep_carries hf ?_
    dsimp only [Carries, State.withRpos]
    split_ifs <;> rfl
  | evReserved7 =>
    show Carries _ _ reservedEvent s
    exact agentStep_carries hf rfl
  | evReserved8F =>
    show Carries _ _ reservedEvent s
    exact agentStep_carries hf rfl
  | handOff =>
    show Carries _ _ execHandOff s
    refine agentStep_carries hf ?_
    by_cases hb : s.cmd = .bootApplication <;> simp [Carries, State.withRpos, State.bootNow, nextState, hb]
  | switchApp data =>
    show Carries _ _ (execSwitchApp data) s
    exact frameRow_carries_rpos (fun _ => rfl) (switchAppEffect_carries_rpos p data) s
  | kindEeprom =>
    show Carries _ _ execKindEeprom s
    exact frameRow_carries_rpos (fun _ => rfl) (kindEepromEffect_carries_rpos p) s
  | addrByte data =>
    show Carries _ _ (execAddrByte data) s
    exact frameRow_carries_rpos (fun _ => rfl) (addrByteEffect_carries_rpos p data) s
  | writeFlashByte data =>
    show Carries _ _ (execWriteFlashByte data) s
    exact frameRow_carries_rpos (fun _ => rfl) (writeFlashByteEffect_carries_rpos p data) s
  | writeEeByte data =>
    show Carries _ _ (execWriteEeByte data) s
    exact frameRow_carries_rpos (fun _ => rfl) (writeEeByteEffect_carries_rpos p data) s
  | writeChipinfoByte data =>
    show Carries _ _ (execWriteChipinfoByte data) s
    exact frameRow_carries_rpos (fun _ => rfl) (writeChipinfoByteEffect_carries_rpos p data) s
  | opWait | opVersion | opMemory | opUnknown | kindChipinfo | kindFlash | kindBad | pos1Other | payloadOther =>
    simp only [Carries, exec, execOpWait, execOpVersion, execOpMemory, execOpUnknown, execKindChipinfo, execKindFlash,
      execKindBad, execPos1Other, execPayloadOther]
    exact frameRow_carries_rpos (fun _ => rfl) (fun _ => rfl) s
  | evTxReq | readVersion | readChipinfo | readFlash | readEeprom | readFiller =>
    simp only [Carries, exec, execEvTxReq, execReadVersion, execReadChipinfo, execReadFlash, execReadEeprom,
      execReadFiller, readRow]
    exact hrequest _

/-- `EV_ADDR_R` clears `RPOS`, whatever it was. -/
theorem execEvAddrR_carries_rpos (p : BitVec 8) (s : State) :
    Carries (State.withRpos p) (State.withRpos 0) (exec .evAddrR) s := by
  show Carries _ _ execEvAddrR s
  refine agentStep_carries (withRpos_unseen p) ?_
  dsimp only [Carries, State.withRpos, State.endOpenTransaction]
  split_ifs <;> rfl

/-- Settles O51: each instruction carries the unused position along, but the addressing event that clears it. -/
theorem positionsUnobservable : Obligations.PositionsUnobservable := by
  refine ⟨fun i s p hs => ?_, fun i s p hs => ?_⟩
  · by_cases hi : i = .evAddrW
    · subst hi
      exact execEvAddrW_carries_pos p s
    · rw [if_neg hi]
      exact exec_carries_pos hi p hs
  · by_cases hi : i = .evAddrR
    · subst hi
      exact execEvAddrR_carries_rpos p s
    · rw [if_neg hi]
      exact exec_carries_rpos hi p hs

end Sys2Proof.Machine

/-! PROOFS. Transaction scripts (30_encoding.md R106, R107) run from a ready state: the runs of single input items and their
composition, the frame header, the bytes of a payload, and the bytes read back. -/

namespace Sys2Proof.Machine

/-! ### Runs that take their input -/

/-- From `s` the items are taken one by one, whatever input follows them, and the run ends in `t` with these outputs. -/
def State.Takes (s : State) (items : List Input) (t : State) (outs : List Outputs) : Prop :=
  ∀ rest, observe items.length { s with inputs := items ++ rest } = some ({ t with inputs := rest }, outs)

theorem State.Takes.nil (s : State) : s.Takes [] s [] := fun _ => rfl

/-- Two runs in a row are one. -/
theorem State.Takes.append {s t u : State} {xs ys : List Input} {o p : List Outputs} (h : s.Takes xs t o)
    (h2 : t.Takes ys u p) : s.Takes (xs ++ ys) u (o ++ p) := by
  intro rest
  rw [List.append_assoc, List.length_append, Nat.add_comm]
  exact observe_trans (h _) (h2 rest)

/-- One item taken is one step. -/
theorem State.Takes.one {s t : State} {x : Input}
    (h : ∀ rest, step { s with inputs := x :: rest } = .next { t with inputs := rest }) : s.Takes [x] t [t.out] :=
  fun rest => observe_one (h rest)

/-- A script whose expansion is taken runs to its end. -/
theorem State.Takes.runScript {s t : State} {script : List Token} {outs : List Outputs}
    (h : s.Takes (expand script) t outs) : runScript script s = some ({ t with inputs := [] }, outs) := by
  have hrun := h []
  rwa [List.append_nil] at hrun

/-! ### Single items -/

/-- The outputs of a decision. -/
def ackOut (a : Ack) : Outputs := { Outputs.quiet with ack := some a }

/-- The outputs of a transmitted byte. -/
def txdOut (v : Byte) : Outputs := { Outputs.quiet with txd := some v }

theorem takes_addrW {s : State} (h : s.Ready) :
    s.Takes [addrWInput] { s with phase := .rx, pos := 0, out := Outputs.quiet } [Outputs.quiet] :=
  .one fun rest => step_addrW (s := { s with inputs := addrWInput :: rest }) h rfl

theorem takes_addrR {s : State} (h : s.Ready) :
    s.Takes [addrRInput] { s with phase := .tx, rpos := 0, out := Outputs.quiet } [Outputs.quiet] :=
  .one fun rest => step_addrR (s := { s with inputs := addrRInput :: rest }) h rfl

theorem takes_stop {s : State} (h : s.Ready) :
    s.Takes [stopInput] { s with phase := .idle, out := Outputs.quiet } [Outputs.quiet] :=
  .one fun rest => step_stop (s := { s with inputs := stopInput :: rest }) h rfl

/-- A received byte is taken where the write path, which does not read the outputs or the input, answers. -/
theorem takes_rx {s u : State} {data : Byte} {a : Ack} (h : s.Receiving)
    (hw : ∀ out inputs, writePath data { s with out := out, inputs := inputs } =
      .answer a { u with out := out, inputs := inputs }) :
    s.Takes [rxInput data] { u with pos := posAfter u.cfg u.pos a, out := ackOut a } [ackOut a] :=
  .one fun rest => step_rx (s := { s with inputs := rxInput data :: rest }) h rfl (hw Outputs.quiet rest)

/-- A requested byte is taken where the read path, which does not read the outputs or the input, answers. -/
theorem takes_txReq {s u : State} {v : Byte} (h : s.Transmitting)
    (hr : ∀ out inputs, readPath { s with out := out, inputs := inputs } =
      .answer v { u with out := out, inputs := inputs }) :
    s.Takes [txReqInput] { u with rpos := u.rpos + 1, out := txdOut v } [txdOut v] :=
  .one fun rest => step_txReq (s := { s with inputs := txReqInput :: rest }) h rfl (hr Outputs.quiet rest)

/-- The repeated start of a read script: the stop, then addressed as reader. -/
theorem takes_repeatedStart {s : State} (h : s.Ready) :
    s.Takes [stopInput, addrRInput] { s with phase := .tx, rpos := 0, out := Outputs.quiet }
      [Outputs.quiet, Outputs.quiet] :=
  (takes_stop h).append (takes_addrR (s := { s with phase := .idle, out := Outputs.quiet }) h)

/-! ### Outputs -/

theorem acks_append (o p : List Outputs) : acks (o ++ p) = acks o ++ acks p := List.filterMap_append
theorem txds_append (o p : List Outputs) : txds (o ++ p) = txds o ++ txds p := List.filterMap_append

theorem acks_replicate_ackOut (n : Nat) (a : Ack) : acks (List.replicate n (ackOut a)) = List.replicate n a :=
  List.filterMap_replicate_of_some rfl

/-- The outputs of the bytes `f 0` to `f (n - 1)`, requested one by one. -/
def txdOuts (n : Nat) (f : Nat → Byte) : List Outputs := (List.range n).map fun k => txdOut (f k)

theorem acks_txdOuts (n : Nat) (f : Nat → Byte) : acks (txdOuts n f) = [] := by
  rw [acks, txdOuts, List.filterMap_map]
  exact List.filterMap_eq_nil_iff.2 fun _ _ => rfl

theorem txds_txdOuts (n : Nat) (f : Nat → Byte) : txds (txdOuts n f) = (List.range n).map f := by
  rw [txds, txdOuts, List.filterMap_map]
  exact congrFun (List.filterMap_eq_map (f := f)) _

/-- One byte more in front. -/
theorem txdOuts_succ (n : Nat) (f : Nat → Byte) :
    txdOuts (n + 1) f = txdOut (f 0) :: txdOuts n fun k => f (k + 1) := by
  rw [txdOuts, List.range_succ_eq_map, List.map_cons, List.map_map]
  rfl

/-! ### The reading part of a script -/

/-- The inputs of a script's reading part: the repeated start, `n` requests, the stop. -/
def readingInputs (n : Nat) : List Input := [stopInput, addrRInput] ++ (List.replicate n txReqInput ++ [stopInput])

/-- The outputs of a script's reading part. -/
def readingOuts (n : Nat) (f : Nat → Byte) : List Outputs :=
  [Outputs.quiet, Outputs.quiet] ++ (txdOuts n f ++ [Outputs.quiet])

theorem acks_readingOuts (n : Nat) (f : Nat → Byte) : acks (readingOuts n f) = [] := by
  rw [readingOuts, acks_append, acks_append, acks_txdOuts]
  rfl

theorem txds_readingOuts (n : Nat) (f : Nat → Byte) : txds (readingOuts n f) = (List.range n).map f := by
  rw [readingOuts, txds_append, txds_append, txds_txdOuts]
  exact List.append_nil _

/-- Requests that are answered make the reading part of a script. -/
theorem takes_reading {s t : State} {n : Nat} {f : Nat → Byte} (h : s.Ready) (ht : t.Ready)
    (hbytes : State.Takes { s with phase := .tx, rpos := 0, out := Outputs.quiet } (List.replicate n txReqInput) t
      (txdOuts n f)) :
    s.Takes (readingInputs n) { t with phase := .idle, out := Outputs.quiet } (readingOuts n f) :=
  (takes_repeatedStart h).append (hbytes.append (takes_stop ht))

/-! ### The frame header -/

/-- Before the last byte of a page an accepted byte advances the position by one. -/
theorem posAfter_ack_inPage {c : Config} (h : c.wf) {p : Nat} (hp : p < c.pageSize + 3) :
    posAfter c p .ack = p + 1 :=
  advancePos_inPage h hp

/-- A recognized opcode (R121-R124). -/
theorem takes_opcode {s : State} (h : s.Receiving) (hp : s.pos = 0) {data : Byte} {c : Cmd}
    (hd : ∀ u, posZero data u = recognizedOpcode c u) :
    s.Takes [rxInput data] { s with ctr := 0, cmd := c, pos := 1, out := ackOut .ack } [ackOut .ack] := by
  have htakes := takes_rx (u := { s with ctr := 0, cmd := c }) (data := data) (a := .ack) h fun out inputs => by
    simp only [writePath, hp, hd]
    rfl
  rwa [show posAfter s.cfg s.pos .ack = 1 by rw [posAfter_ack_inPage h.1.1 (by omega), hp]] at htakes

/-- Addressed as writer, then a recognized opcode. -/
theorem takes_opening {s : State} (h : s.Ready) (hc : s.cmd ≠ .unreachable) {data : Byte} {c : Cmd}
    (hd : ∀ u, posZero data u = recognizedOpcode c u) :
    s.Takes [addrWInput, rxInput data]
      { s with ctr := 0, cmd := c, pos := 1, phase := .rx, out := ackOut .ack } [Outputs.quiet, ackOut .ack] :=
  have hreceiving : State.Receiving { s with phase := .rx, pos := 0, out := Outputs.quiet } := ⟨h, rfl, hc⟩
  (takes_addrW h).append (takes_opcode hreceiving rfl hd)

/-- The data-memory kind on a configuration with data memory (R129). -/
theorem takes_kindEeprom {s : State} (h : s.Receiving) (hp : s.pos = 1) (hc : s.cmd = .memory)
    (he : s.cfg.eepromSupport = true) :
    s.Takes [rxInput 0x02] { s with cmd := .eeprom, pos := 2, out := ackOut .ack } [ackOut .ack] := by
  have htakes := takes_rx (u := { s with cmd := .eeprom }) (data := 0x02) (a := .ack) h fun out inputs => by
    simp [writePath, hp, posOne, hc, kindEepromEffect, he]
  rwa [show posAfter s.cfg s.pos .ack = 2 by rw [posAfter_ack_inPage h.1.1 (by omega), hp]] at htakes

/-- An address byte under `EEPROM` (R132). -/
theorem takes_addrByte {s : State} (h : s.Receiving) (hp : s.pos = 2 ∨ s.pos = 3) (hc : s.cmd = .eeprom) (data : Byte) :
    s.Takes [rxInput data] { s with addr := shiftIn s.addr data, pos := s.pos + 1, out := ackOut .ack }
      [ackOut .ack] := by
  have hpage := pageSize_bounds h.1.1.1
  have htakes := takes_rx (u := { s with addr := shiftIn s.addr data }) (data := data) (a := .ack) h fun out inputs => by
    rcases hp with hp | hp <;> simp [writePath, hp, addrByteEffect, hc]
  rwa [show posAfter s.cfg s.pos .ack = s.pos + 1 from posAfter_ack_inPage h.1.1 (by omega)] at htakes

/-- The two address bytes under `EEPROM`, whatever `ADDR` held before (30_encoding.md R99). -/
theorem takes_address {s : State} (h : s.Receiving) (hp : s.pos = 2) (hc : s.cmd = .eeprom) (hi lo : Byte) :
    s.Takes [rxInput hi, rxInput lo] { s with addr := hi ++ lo, pos := 4, out := ackOut .ack }
      [ackOut .ack, ackOut .ack] := by
  have hhigh := takes_addrByte h (.inl hp) hc hi
  have hlow := takes_addrByte (s := { s with addr := shiftIn s.addr hi, pos := s.pos + 1, out := ackOut .ack }) h
    (.inr (congrArg Nat.succ hp)) hc lo
  have hboth := hhigh.append hlow
  rwa [shiftIn_twice, hp] at hboth

/-- The header of a data-memory frame: opcode, memory kind and the two address bytes. -/
def eeHeader (hi lo : Byte) : List Input :=
  [addrWInput, rxInput 0x02, rxInput 0x02, rxInput hi, rxInput lo]

/-- After the header of a data-memory frame the Address is the two bytes, and payload is next (30_encoding.md R99). -/
theorem takes_eeHeader {s : State} (h : s.Ready) (hc : s.cmd ≠ .unreachable) (he : s.cfg.eepromSupport = true)
    (hi lo : Byte) :
    s.Takes (eeHeader hi lo)
      { s with cmd := .eeprom, addr := hi ++ lo, pos := 4, ctr := 0, phase := .rx, out := ackOut .ack }
      (Outputs.quiet :: List.replicate 4 (ackOut .ack)) := by
  have hopcode := takes_opening h hc (data := 0x02) (c := .memory) fun _ => rfl
  have hkind := hopcode.append (takes_kindEeprom ⟨h, rfl, nofun⟩ rfl rfl he)
  exact hkind.append (takes_address (s := { s with
    cmd := .eeprom, pos := 2, ctr := 0, phase := .rx, out := ackOut .ack }) ⟨h, rfl, nofun⟩ rfl rfl hi lo)

/-! ### The identity read -/

/-- The identity's bytes at positions that agree modulo 256 are the same, since `ID_LEN` divides 256 (00_scope.md R10). -/
theorem identityByte_mod {c : Config} (h : c.identOk) (k : Nat) : identityByte c (k % 256) = identityByte c k := by
  obtain ⟨-, -, hdvd⟩ := h
  rw [identityByte, identityByte, Nat.mod_mod_of_dvd _ (Nat.dvd_of_mod_eq_zero hdvd)]

/-- A byte requested under `VERSION` is the identity's byte at `RPOS` (R141). -/
theorem takes_readVersion {s : State} (h : s.Transmitting) (hc : s.cmd = .version) :
    s.Takes [txReqInput] { s with rpos := s.rpos + 1, out := txdOut (identityByte s.cfg s.rpos.toNat) }
      [txdOut (identityByte s.cfg s.rpos.toNat)] :=
  takes_txReq h fun out inputs => by simp only [readPath, hc, readVersionEffect]

/-- `n` bytes requested under `VERSION` are the identity's bytes from `RPOS` on, across the wrap of `RPOS`. -/
theorem takes_identityBytes {s : State} (h : s.Transmitting) (hc : s.cmd = .version) (n : Nat) :
    ∃ t, t.Ready ∧ s.Takes (List.replicate n txReqInput) t
      (txdOuts n fun k => identityByte s.cfg (s.rpos.toNat + k)) := by
  induction n generalizing s with
  | zero => exact ⟨s, h.1, .nil s⟩
  | succ n ih =>
    obtain ⟨t, hready, htakes⟩ :=
      ih (s := { s with rpos := s.rpos + 1, out := txdOut (identityByte s.cfg s.rpos.toNat) }) h hc
    refine ⟨t, hready, ?_⟩
    obtain ⟨-, -, -, hident, -⟩ : s.cfg.wf := h.1.1
    have hwrap : (s.rpos + 1).toNat = (s.rpos.toNat + 1) % 256 := BitVec.toNat_add _ _
    have hshift (k : Nat) :
        identityByte s.cfg ((s.rpos + 1).toNat + k) = identityByte s.cfg (s.rpos.toNat + k.succ) := by
      rw [← identityByte_mod hident, ← identityByte_mod hident (s.rpos.toNat + k.succ), hwrap]
      congr 1
      omega
    simp only [hshift] at htakes
    rw [txdOuts_succ]
    exact (takes_readVersion h hc).append htakes

/-- Settles O55: the opcode byte is the only one received, and the reads start with `RPOS` = 0. -/
theorem identityReadCyclically : Obligations.IdentityReadCyclically := by
  intro s n h hc
  have hopcode := takes_opening h hc (data := 0x01) (c := .version) fun _ => rfl
  obtain ⟨t, ht, hbytes⟩ := takes_identityBytes (s := { s with
    ctr := 0, cmd := .version, pos := 1, phase := .tx, rpos := 0, out := Outputs.quiet }) ⟨h, rfl, nofun⟩ rfl n
  have hall := hopcode.append (takes_reading h ht hbytes)
  refine ⟨_, _, State.Takes.runScript (script := readIdentityScript n) hall, ?_, ?_⟩
  · rw [acks_append, acks_readingOuts]
    rfl
  · rw [txds_append, txds_readingOuts]
    show (List.range n).map (fun k => identityByte s.cfg (0 + k)) = _
    simp only [Nat.zero_add, identityByte]

/-! ### Data memory -/

/-- Bytes written in order from an address on. -/
def Memory.writeBytes : Memory → Nat → List Byte → Memory
  | m, _, [] => m
  | m, a, v :: vs => Memory.writeBytes (Memory.write m a v) (a + 1) vs

/-- Bytes written from an address on leave every byte below it. -/
theorem Memory.read_writeBytes_below {m : Memory} {a b : Nat} (vs : List Byte) (h : b < a) :
    Memory.read (Memory.writeBytes m a vs) b = Memory.read m b := by
  induction vs generalizing m a with
  | nil => rfl
  | cons v vs ih =>
    rw [Memory.writeBytes, ih (by omega), Memory.read_write_other v (by omega)]

/-- Bytes written in order read back in order. -/
theorem Memory.read_writeBytes {m : Memory} (h : Memory.wf m) (a : Nat) (vs : List Byte) :
    (List.range vs.length).map (fun k => Memory.read (Memory.writeBytes m a vs) (a + k)) = vs := by
  induction vs generalizing m a with
  | nil => rfl
  | cons v vs ih =>
    have hfirst : Memory.read (Memory.writeBytes m a (v :: vs)) a = v := by
      rw [Memory.writeBytes, Memory.read_writeBytes_below vs (Nat.lt_succ_self a), Memory.read_write_same a v h]
    have hrest := ih (Memory.write_wf a v h) (a + 1)
    simp only [Nat.add_assoc, Nat.add_comm 1] at hrest
    rw [List.length_cons, List.range_succ_eq_map, List.map_cons, List.map_map, Nat.add_zero, hfirst]
    exact congrArg (v :: ·) hrest

/-- An Address inside data memory is its own checked address (42_memory_backend.md R210). -/
theorem eeAddr_inside {c : Config} {a : Addr} (h : a.toNat < c.eeSize) : eeAddr c a = .ok a.toNat := if_pos h

/-- From position 4 on a received byte is payload (40_command_decoder.md R120). -/
theorem writePath_payload {s : State} (h4 : 4 ≤ s.pos) (data : Byte) : writePath data s = posPayload data s := by
  unfold writePath
  split
  · omega
  · omega
  · omega
  · omega
  · rfl

/-- A payload byte under `EEPROM` inside data memory is written and accepted (R134). -/
theorem writePath_eeprom {s : State} (hc : s.cmd = .eeprom) (h4 : 4 ≤ s.pos) (ha : s.addr.toNat < s.cfg.eeSize)
    (data : Byte) : writePath data s = .answer .ack ((s.writeEe s.addr.toNat data).advanceAddr) := by
  rw [writePath_payload h4]
  simp only [posPayload, hc, writeEeByteEffect, eeAddr_inside ha]

/-- A byte requested under `EEPROM` inside data memory is the byte at `ADDR` (R144). -/
theorem readPath_eeprom {s : State} (hc : s.cmd = .eeprom) (ha : s.addr.toNat < s.cfg.eeSize) :
    readPath s = .answer (Memory.read s.ee s.addr.toNat) s.advanceAddr := by
  simp only [readPath, hc, readEepromEffect, eeAddr_inside ha]

/-- A payload byte under `EEPROM` at an Address inside data memory (R134). -/
theorem takes_eeByte {s : State} (h : s.Receiving) (hc : s.cmd = .eeprom) (h4 : 4 ≤ s.pos)
    (ha : s.addr.toNat < s.cfg.eeSize) (data : Byte) :
    s.Takes [rxInput data]
      { s with
        ee := Memory.write s.ee s.addr.toNat data, addr := s.addr + 1, pos := advancePos s.cfg s.pos,
        out := ackOut .ack }
      [ackOut .ack] :=
  takes_rx (u := (s.writeEe s.addr.toNat data).advanceAddr) (a := .ack) h fun out inputs =>
    writePath_eeprom (s := { s with out := out, inputs := inputs }) hc h4 ha data

/-- Between two payload bytes the position stays a payload position: it saturates, or the frame does not outrun it
(10_state.md R36). -/
theorem advancePos_payload_fits {c : Config} (h : c.wf) {p n : Nat} (h4 : 4 ≤ p)
    (hfit : c.posOverflow = .saturate ∨ p + (n + 1) ≤ 2 ^ c.posWidth) :
    (0 < n → 4 ≤ advancePos c p) ∧ (c.posOverflow = .saturate ∨ advancePos c p + n ≤ 2 ^ c.posWidth) := by
  have hlast := lastPosition_fits h
  have hpage := pageSize_bounds h.1
  clear h
  unfold advancePos
  split
  · exact ⟨fun _ => by omega, .inl ‹_›⟩
  · rename_i hwrap
    have hfit : p + (n + 1) ≤ 2 ^ c.posWidth := hfit.resolve_left (by rw [hwrap]; nofun)
    have hle := Nat.mod_le (p + 1) (2 ^ c.posWidth)
    refine ⟨fun hn => ?_, .inr (by omega)⟩
    rw [Nat.mod_eq_of_lt (by omega)]
    omega

/-- An Address that stays inside data memory advances without a wrap (10_state.md R34). -/
theorem addr_succ_toNat {c : Config} (h : c.wf) {a : Addr} (ha : a.toNat < c.eeSize) : (a + 1).toNat = a.toNat + 1 := by
  have hsize : c.eeSize ≤ 65535 := by
    obtain ⟨-, -, hee, -⟩ := h
    unfold Config.eeOk at hee
    split at hee <;> omega
  have hadd : (a + 1).toNat = (a.toNat + 1) % 65536 := BitVec.toNat_add _ _
  omega

/-- Payload bytes under `EEPROM` that fit data memory are all accepted and written in order. -/
theorem takes_eeBytes {s : State} (h : s.Receiving) (hc : s.cmd = .eeprom) {bytes : List Byte}
    (h4 : 0 < bytes.length → 4 ≤ s.pos) (ha : s.addr.toNat + bytes.length ≤ s.cfg.eeSize)
    (hfit : s.cfg.posOverflow = .saturate ∨ s.pos + bytes.length ≤ 2 ^ s.cfg.posWidth) :
    ∃ t, t.Ready ∧ t.cmd = .eeprom ∧ t.cfg = s.cfg ∧ t.ee = Memory.writeBytes s.ee s.addr.toNat bytes ∧
      t.addr.toNat = s.addr.toNat + bytes.length ∧
      s.Takes (bytes.map rxInput) t (List.replicate bytes.length (ackOut .ack)) := by
  induction bytes generalizing s with
  | nil => exact ⟨s, h.1, hc, rfl, rfl, rfl, .nil s⟩
  | cons v vs ih =>
    rw [List.length_cons] at h4 ha hfit
    have h4 := h4 (Nat.succ_pos _)
    have hfirst := takes_eeByte h hc h4 (by omega) v
    have hnext := addr_succ_toNat h.1.1 (a := s.addr) (by omega)
    obtain ⟨hpos, hfit⟩ := advancePos_payload_fits h.1.1 h4 hfit
    obtain ⟨t, hready, hcmd, hcfg, hee, haddr, htakes⟩ := ih (s := { s with
        ee := Memory.write s.ee s.addr.toNat v, addr := s.addr + 1, pos := advancePos s.cfg s.pos,
        out := ackOut .ack }) h hc hpos (by show (s.addr + 1).toNat + vs.length ≤ s.cfg.eeSize; omega) hfit
    refine ⟨t, hready, hcmd, hcfg, ?_, ?_, hfirst.append htakes⟩
    · rw [hee, hnext, Memory.writeBytes]
    · rw [haddr, hnext, List.length_cons]
      omega

/-- A byte requested under `EEPROM` at an Address inside data memory (R144). -/
theorem takes_readEeprom {s : State} (h : s.Transmitting) (hc : s.cmd = .eeprom) (ha : s.addr.toNat < s.cfg.eeSize) :
    s.Takes [txReqInput]
      { s with addr := s.addr + 1, rpos := s.rpos + 1, out := txdOut (Memory.read s.ee s.addr.toNat) }
      [txdOut (Memory.read s.ee s.addr.toNat)] :=
  takes_txReq (u := s.advanceAddr) h fun out inputs =>
    readPath_eeprom (s := { s with out := out, inputs := inputs }) hc ha

/-- `n` bytes requested under `EEPROM` inside data memory are its bytes from `ADDR` on. -/
theorem takes_readEeBytes {s : State} (h : s.Transmitting) (hc : s.cmd = .eeprom) {n : Nat}
    (ha : s.addr.toNat + n ≤ s.cfg.eeSize) :
    ∃ t, t.Ready ∧ t.addr.toNat = s.addr.toNat + n ∧ s.Takes (List.replicate n txReqInput) t
      (txdOuts n fun k => Memory.read s.ee (s.addr.toNat + k)) := by
  induction n generalizing s with
  | zero => exact ⟨s, h.1, rfl, .nil s⟩
  | succ n ih =>
    have hfirst := takes_readEeprom h hc (by omega)
    have hnext := addr_succ_toNat h.1.1 (a := s.addr) (by omega)
    obtain ⟨t, hready, haddr, htakes⟩ := ih (s := { s with
        addr := s.addr + 1, rpos := s.rpos + 1, out := txdOut (Memory.read s.ee s.addr.toNat) }) h hc
        (by show (s.addr + 1).toNat + n ≤ s.cfg.eeSize; omega)
    refine ⟨t, hready, by rw [haddr, hnext]; omega, ?_⟩
    simp only [hnext, Nat.add_assoc, Nat.add_comm 1] at htakes
    rw [txdOuts_succ]
    exact hfirst.append htakes

/-- A data-memory write script completes: every byte is accepted and written in order from the Address on. -/
theorem runScript_writeEe {s : State} {hi lo : Byte} {bytes : List Byte} (h : s.Ready) (hc : s.cmd ≠ .unreachable)
    (he : s.cfg.eepromSupport = true) (ha : (hi ++ lo : Addr).toNat + bytes.length ≤ s.cfg.eeSize)
    (hfit : s.cfg.posOverflow = .saturate ∨ 4 + bytes.length ≤ 2 ^ s.cfg.posWidth) :
    ∃ t outs, runScript (writeEeScript hi lo bytes) s = some (t, outs) ∧
      acks outs = List.replicate (bytes.length + 4) .ack ∧ t.Ready ∧ t.cmd = .eeprom ∧ t.cfg = s.cfg ∧
      t.ee = Memory.writeBytes s.ee (hi ++ lo : Addr).toNat bytes ∧
      t.addr.toNat = (hi ++ lo : Addr).toNat + bytes.length := by
  obtain ⟨t, ht, hcmd, hcfg, hee, haddr, hbytes⟩ := takes_eeBytes (s := { s with
    cmd := .eeprom, addr := hi ++ lo, pos := 4, ctr := 0, phase := .rx, out := ackOut .ack })
    ⟨h, rfl, nofun⟩ rfl (fun _ => le_refl 4) ha hfit
  have hall := (takes_eeHeader h hc he hi lo).append (hbytes.append (takes_stop ht))
  refine ⟨_, _, State.Takes.runScript (script := writeEeScript hi lo bytes) hall, ?_, ht, hcmd, hcfg, hee, haddr⟩
  rw [acks_append, acks_append, acks_replicate_ackOut, Nat.add_comm, List.replicate_add]
  exact congrArg (List.replicate 4 Ack.ack ++ ·) (List.append_nil _)

/-- A data-memory read script inside data memory completes: the bytes from the Address on are transmitted. -/
theorem runScript_readEe {s : State} {hi lo : Byte} {n : Nat} (h : s.Ready) (hc : s.cmd ≠ .unreachable)
    (he : s.cfg.eepromSupport = true) (ha : (hi ++ lo : Addr).toNat + n ≤ s.cfg.eeSize) :
    ∃ t outs, runScript (readEeScript hi lo n) s = some (t, outs) ∧
      txds outs = (List.range n).map (fun k => Memory.read s.ee ((hi ++ lo : Addr).toNat + k)) ∧
      t.addr.toNat = (hi ++ lo : Addr).toNat + n := by
  obtain ⟨t, ht, haddr, hbytes⟩ := takes_readEeBytes (s := { s with
    cmd := .eeprom, addr := hi ++ lo, pos := 4, ctr := 0, phase := .tx, rpos := 0, out := Outputs.quiet })
    ⟨h, rfl, nofun⟩ rfl ha
  have hall := (takes_eeHeader h hc he hi lo).append (takes_reading h ht hbytes)
  refine ⟨_, _, State.Takes.runScript (script := readEeScript hi lo n) hall, ?_, haddr⟩
  rw [txds_append, txds_readingOuts]
  rfl

/-- The Address of two bytes by arithmetic (30_encoding.md R99). -/
theorem address_toNat (hi lo : Byte) : (hi ++ lo : Addr).toNat = hi.toNat * 256 + lo.toNat := by
  rw [BitVec.toNat_append, ← Nat.shiftLeft_add_eq_or_of_lt lo.isLt, Nat.shiftLeft_eq]

/-- Settles O54: the write script writes the bytes in order, and the read script reads them there. -/
theorem dataMemoryRoundTrip : Obligations.DataMemoryRoundTrip := by
  intro s hi lo bytes h hc hwf he ha hfit
  rw [← address_toNat] at ha ⊢
  obtain ⟨t, writes, hwrite, hacks, ht, htcmd, htcfg, htee, htaddr⟩ :=
    runScript_writeEe h hc he ha (hfit.imp_right (Nat.add_comm 4 _).trans_le)
  obtain ⟨u, reads, hread, htxds, huaddr⟩ :=
    runScript_readEe ht (by rw [htcmd]; nofun) (by rw [htcfg]; exact he) (htcfg ▸ ha)
  refine ⟨t, writes, u, reads, hwrite, hacks, htaddr, hread, ?_, huaddr⟩
  rw [htxds, htee]
  exact Memory.read_writeBytes hwf _ bytes

end Sys2Proof.Machine

/-! PROOFS. Data memory (20_memory.md R62): the one row that writes it; then what the read rows and `EV_TX_REQ` leave
unchanged (40_command_decoder.md R140-R146). -/

namespace Sys2Proof.Machine

/-! ### The writer of data memory -/

/-- An answer of the write path changes data memory only by a payload byte under `EEPROM`, at the checked address. -/
theorem writePath_answer_ee {data : Byte} {s u : State} {a : Ack} (h : writePath data s = .answer a u) :
    u.ee = s.ee ∨
      (s.cmd = .eeprom ∧ 4 ≤ s.pos ∧ ∃ i, eeAddr s.cfg s.addr = .ok i ∧ u.ee = Memory.write s.ee i data) := by
  rcases writePath_answer h with
    ⟨-, -, -, _, -, rfl⟩ | ⟨-, -, -, rfl⟩ | ⟨-, -, -, -, rfl⟩ | ⟨-, -, -, _, -, rfl⟩ | ⟨-, -, -, rfl⟩ |
    ⟨-, -, -, rfl⟩ | ⟨-, -, -, -, -, rfl⟩ | ⟨-, -, -, -, -, rfl⟩ | ⟨h4, hc, -, i, hi, rfl⟩ | ⟨-, -, -, -, rfl⟩
  iterate 8 exact .inl rfl
  · exact .inr ⟨hc, h4, i, hi, rfl⟩
  · exact .inl rfl

/-- An input item changes data memory only by a payload byte received under `EEPROM`, at the checked address. -/
theorem exec_input_ee {s t : State} {x : Input} (h : exec (decodeInput x) s = .next t) :
    t.ee = s.ee ∨
      ∃ data i, decodeInput x = .evRx data ∧ s.phase = .rx ∧ s.cmd = .eeprom ∧ 4 ≤ s.pos ∧
        eeAddr s.cfg s.addr = .ok i ∧ t.ee = Memory.write s.ee i data := by
  rcases exec_input_next h with ⟨-, rfl⟩ | ⟨-, rfl⟩ | ⟨-, rfl⟩ | ⟨-, rfl⟩ | ⟨-, ⟨-, rfl⟩ | ⟨-, rfl⟩ | ⟨-, rfl⟩⟩ |
    ⟨-, -, rfl⟩ | ⟨_, rfl, -⟩ | ⟨-, -, v, u, hu, rfl⟩ | ⟨⟨-, hphase, -⟩, data, hx, a, u, hu, rfl⟩
  iterate 9 exact .inl rfl
  · rcases readPath_answer hu with rfl | ⟨-, rfl⟩ <;> exact .inl rfl
  · have hwrite := writePath_answer_ee hu
    exact hwrite.imp_right fun ⟨hc, h4, i, hi, hee⟩ => ⟨data, i, hx, hphase, hc, h4, hi, hee⟩

/-- Settles O45: the only writer of data memory is the payload byte under `EEPROM`, and a write changes no byte but the one
at its address. -/
theorem eeChangesOnlyByPayloadByte : Obligations.EeChangesOnlyByPayloadByte := by
  intro s t a ht hne
  rcases step_next ht with ⟨-, rfl⟩ | ⟨x, rest, hinputs, hx⟩
  · exact absurd rfl hne
  · rcases exec_input_ee hx with hsame | ⟨data, i, hd, hphase, hcmd, hpos, hi, hee⟩
    · exact absurd (by rw [hsame]) hne
    · rw [hee] at hne ⊢
      obtain rfl : a = i := not_imp_comm.1 (Memory.read_write_other data) hne
      exact ⟨⟨data, rest, x, hinputs, hd, Memory.read_write_same a data⟩, hphase, hcmd, hpos, hi⟩

/-! ### The frame of the read rows -/

/-- All that `EV_TX_REQ` writes: `RPOS`, `FAULTS`, `txd`, and `ADDR` under `FLASH` and `EEPROM` only. -/
theorem execEvTxReq_frame {s t : State} (h : exec .evTxReq s = .next t) :
    ∃ addr rpos faults txd,
      t = { s with
        addr := addr, rpos := rpos, faults := faults, out := { ack := none, txd := txd, busReset := false } } ∧
      (s.cmd ≠ .flash → s.cmd ≠ .eeprom → addr = s.addr) := by
  obtain ⟨-, ⟨r, rfl, -⟩ | ⟨-, v, u, hu, rfl⟩⟩ := execEvTxReq_next h
  · exact ⟨s.addr, s.rpos, [r], none, rfl, fun _ _ => rfl⟩
  · rcases readPath_answer hu with rfl | ⟨hc, rfl⟩
    · exact ⟨s.addr, _, _, _, rfl, fun _ _ => rfl⟩
    · exact ⟨s.addr + 1, _, _, _, rfl, fun hf he => (hc.elim hf he).elim⟩

theorem exec_readVersion (s : State) :
    exec .readVersion s = readRow (fun s => s.cmd == .version) readVersionEffect s := rfl

theorem exec_readChipinfo (s : State) :
    exec .readChipinfo s = readRow (fun s => s.cmd == .chipinfo) readChipinfoEffect s := rfl

theorem exec_readFlash (s : State) :
    exec .readFlash s = readRow (fun s => s.cmd == .flash) readFlashEffect s := rfl

theorem exec_readEeprom (s : State) :
    exec .readEeprom s = readRow (fun s => s.cmd == .eeprom) readEepromEffect s := rfl

theorem exec_readFiller (s : State) :
    exec .readFiller s =
      readRow (fun s => s.cmd == .wait || s.cmd == .memory || s.cmd == .bootApplication) readFillerEffect s := rfl

/-- Where a read row has a next state, `EV_TX_REQ` has the same one: its condition makes the read path take its effect. -/
theorem exec_readByte_evTxReq {i : Instr} {s t : State}
    (hi : i ∈ [.readVersion, .readChipinfo, .readFlash, .readEeprom, .readFiller, .evTxReq])
    (h : exec i s = .next t) : exec .evTxReq s = .next t := by
  simp only [List.mem_cons, List.not_mem_nil, or_false] at hi
  rcases hi with rfl | rfl | rfl | rfl | rfl | rfl
  · rw [exec_readVersion] at h
    refine readRow_next_evTxReq h fun hs => ?_
    have hc : s.cmd = .version := eq_of_beq hs
    simp only [readPath, hc]
  · rw [exec_readChipinfo] at h
    refine readRow_next_evTxReq h fun hs => ?_
    have hc : s.cmd = .chipinfo := eq_of_beq hs
    simp only [readPath, hc]
  · rw [exec_readFlash] at h
    refine readRow_next_evTxReq h fun hs => ?_
    have hc : s.cmd = .flash := eq_of_beq hs
    simp only [readPath, hc]
  · rw [exec_readEeprom] at h
    refine readRow_next_evTxReq h fun hs => ?_
    have hc : s.cmd = .eeprom := eq_of_beq hs
    simp only [readPath, hc]
  · rw [exec_readFiller] at h
    refine readRow_next_evTxReq h fun hs => ?_
    simp only [Bool.or_eq_true, beq_iff_eq] at hs
    rcases hs with (hc | hc) | hc <;> simp only [readPath, hc]
  · exact h

/-- A read row whose effect answers with the state as it was leaves `ADDR`, also where it records a model fault. -/
theorem readRow_addr {s t : State} {selected : State → Bool} {effect : State → PathResult Byte}
    (heffect : ∀ s v u, effect s = .answer v u → u = s) (h : readRow selected effect s = .next t) :
    t.addr = s.addr := by
  obtain ⟨-, ⟨r, rfl⟩ | ⟨-, -, v, u, hu, rfl⟩⟩ := readRow_next h
  · rfl
  · rw [heffect _ v u hu]

/-- The read rows of the constants leave `ADDR` (40_command_decoder.md R141, R142, R145). -/
theorem exec_constantRead_addr {i : Instr} {s t : State} (hi : i ∈ [.readVersion, .readChipinfo, .readFiller])
    (h : exec i s = .next t) : t.addr = s.addr := by
  simp only [List.mem_cons, List.not_mem_nil, or_false] at hi
  rcases hi with rfl | rfl | rfl
  · rw [exec_readVersion] at h
    exact readRow_addr (fun _ _ _ hu => by cases hu; rfl) h
  · rw [exec_readChipinfo] at h
    exact readRow_addr (fun _ _ _ hu => by cases hu; rfl) h
  · rw [exec_readFiller] at h
    exact readRow_addr (fun _ _ _ hu => by cases hu; rfl) h

/-- Settles O59: each read row is the `EV_TX_REQ` step, which writes `RPOS`, `FAULTS`, `txd` and `ADDR` alone; the rows of
the constants leave `ADDR` too. -/
theorem frameOfReadBytes : Obligations.FrameOfReadBytes := by
  intro i s t hi h
  have hconstant := fun hi' => exec_constantRead_addr (i := i) hi' h
  obtain ⟨addr, rpos, faults, txd, rfl, haddr⟩ := execEvTxReq_frame (exec_readByte_evTxReq hi h)
  exact ⟨fun _ => rfl, fun _ => rfl, rfl, rfl, rfl, rfl, rfl, rfl, rfl, rfl, rfl, rfl, hconstant, haddr⟩

end Sys2Proof.Machine

/-! PROOFS. The decoders and the encoder (30_encoding.md R90-R101): which rows each decoder reads, and that it reads the
encoder's word back as its row. -/

namespace Sys2Proof

/-! ### Event words -/

/-- A word with a known code is that code and its own data byte. -/
theorem eq_eventWord_of_code {w : EventWord} {code : BitVec 4} (h : eventCode w = code) :
    w = eventWord code (eventData w) := by
  rw [← h, eventWord_fields]

/-- Two event words are the same exactly when their fields are. -/
theorem eventWord_inj {c c' : BitVec 4} {d d' : Byte} : eventWord c d = eventWord c' d' ↔ c = c' ∧ d = d' := by
  refine ⟨fun h => ⟨?_, ?_⟩, fun ⟨hc, hd⟩ => by rw [hc, hd]⟩
  · simpa using congrArg eventCode h
  · simpa using congrArg eventData h

/-- The data byte of a received byte's word is no other's. -/
theorem eventData_unique {d d' : Byte} (h : some (eventWord 0x2 d) = some (eventWord 0x2 d')) : d = d' :=
  (eventWord_inj.1 (Option.some.inj h)).2

/-- The code 0x2 is `EV_RX` of the data byte (R91). -/
theorem decodeEvent_of_rx {w : EventWord} (h : eventCode w = 0x2) : decodeEvent w = .evRx (eventData w) := by
  simp [decodeEvent, h]

/-- The code 0x3 is `EV_TX_REQ` (R91). -/
theorem decodeEvent_of_txReq {w : EventWord} (h : eventCode w = 0x3) : decodeEvent w = .evTxReq := by
  simp [decodeEvent, h]

/-- But for `EV_RX` the event decoder sees the code alone (R93). -/
theorem decodeEvent_congr {w w' : EventWord} (h : eventCode w = eventCode w') (hrx : eventCode w ≠ 0x2) :
    decodeEvent w = decodeEvent w' := by
  unfold decodeEvent
  rw [← h]
  split
  case h_3 h2 => exact absurd (BitVec.eq_of_toNat_eq h2) hrx
  all_goals rfl

/-- The reserved codes are 0x7 to 0xF (R92). -/
theorem decodeEvent_reserved_iff (w : EventWord) :
    7 ≤ (eventCode w).toNat ↔ decodeEvent w = .evReserved7 ∨ decodeEvent w = .evReserved8F := by
  unfold decodeEvent
  split
  case h_9 =>
    refine ⟨fun _ => .inr rfl, fun _ => ?_⟩
    simp only [imp_false] at *
    omega
  all_goals simp [*]

/-- The encoder writes a received byte's word, the byte request's, or a word that the event decoder reads back; only a
received byte's holds a data byte (R91, R93). -/
theorem encode_cases {i : Instr} {w : EventWord} (h : encode i = some w) :
    (∃ data, w = eventWord 0x2 data) ∨ w = eventWord 0x3 0x00 ∨
      ∃ code, w = eventWord code 0x00 ∧ decodeEvent w = i := by
  cases i with
  | evAddrW | evAddrR | evStop | evBusError | evTick | evReserved7 | evReserved8F =>
    cases h
    exact .inr (.inr ⟨_, rfl, by simp [decodeEvent]⟩)
  | evTxReq | readVersion | readChipinfo | readFlash | readEeprom | readFiller =>
    cases h
    exact .inr (.inl rfl)
  | handOff => cases h
  | _ =>
    cases h
    exact .inl ⟨_, rfl⟩

/-- Outside a received byte the encoder writes the data byte 0x00 (R93). -/
theorem eventData_of_encode {i : Instr} {w : EventWord} (h : encode i = some w) (hrx : eventCode w ≠ 0x2) :
    eventData w = 0x00 := by
  obtain ⟨data, rfl⟩ | rfl | ⟨code, rfl, -⟩ := encode_cases h
  · exact absurd (eventCode_eventWord _ _) hrx
  · exact eventData_eventWord _ _
  · exact eventData_eventWord _ _

/-- `HANDOFF` alone has no word (43_boot_arbiter.md R240). -/
theorem encode_eq_none_iff {i : Instr} : encode i = none ↔ i = .handOff := by
  cases i <;> simp [encode]

/-! ### The frame decoder -/

/-- The row is the one that a received byte is at a position under a Command (R94): its condition holds there, for the
byte too, and its word is the byte's. -/
structure Instr.IsFrameRow (cmd : Cmd) (pos : Nat) (data : Byte) (i : Instr) : Prop where
  wf : i.wf = true
  selected : i.selectedAt cmd pos = true
  word : encode i = some (eventWord 0x2 data)

/-- A byte that is no recognized opcode is an unknown one (R96). -/
theorem decodeOpcode_unrecognized {data : Byte} (h : unrecognizedByte data) : decodeOpcode data = .opUnknown data := by
  rw [decodeOpcode, if_neg, if_neg, if_neg] <;> rintro rfl <;> exact absurd h (by decide)

/-- A byte that is no memory kind is a bad one (R98). -/
theorem decodeKind_unrecognized {data : Byte} (h : unrecognizedByte data) : decodeKind data = .kindBad data := by
  rw [decodeKind, if_neg, if_neg, if_neg] <;> rintro rfl <;> exact absurd h (by decide)

/-- Position 1 under a Command that gives the byte no meaning (R94). -/
theorem decodeArg_other {cmd : Cmd} (hversion : cmd ≠ .version) (hmemory : cmd ≠ .memory) (data : Byte) :
    decodeArg cmd data = .pos1Other data := by
  unfold decodeArg
  split
  · exact absurd rfl hversion
  · exact absurd rfl hmemory
  · rfl

/-- Payload under a Command that takes none (R100). -/
theorem decodePayload_other {cmd : Cmd} (hflash : cmd ≠ .flash) (heeprom : cmd ≠ .eeprom)
    (hchipinfo : cmd ≠ .chipinfo) (data : Byte) : decodePayload cmd data = .payloadOther data := by
  unfold decodePayload
  split
  · exact absurd rfl hflash
  · exact absurd rfl heeprom
  · exact absurd rfl hchipinfo
  · rfl

section
variable {cmd : Cmd} {pos : Nat} {data : Byte}

theorem decodeFrame_zero (h : cmd ≠ .unreachable) : decodeFrame cmd 0 data = .ok (decodeOpcode data) := if_neg h

theorem decodeFrame_one (h : cmd ≠ .unreachable) : decodeFrame cmd 1 data = .ok (decodeArg cmd data) := if_neg h

theorem decodeFrame_address (h : cmd ≠ .unreachable) (hp : pos = 2 ∨ pos = 3) :
    decodeFrame cmd pos data = .ok (.addrByte data) := by
  rcases hp with rfl | rfl <;> exact if_neg h

theorem decodeFrame_payload (h : cmd ≠ .unreachable) (hp : 4 ≤ pos) :
    decodeFrame cmd pos data = .ok (decodePayload cmd data) := by
  obtain ⟨n, rfl⟩ := Nat.exists_eq_add_of_le' hp
  exact if_neg h

/-- The frame decoder by its position: the four maps of R94, each under a written Command. -/
theorem decodeFrame_ok {i : Instr} (h : decodeFrame cmd pos data = .ok i) :
    cmd ≠ .unreachable ∧ (pos = 0 ∧ i = decodeOpcode data ∨ pos = 1 ∧ i = decodeArg cmd data ∨
      (pos = 2 ∨ pos = 3) ∧ i = .addrByte data ∨ 4 ≤ pos ∧ i = decodePayload cmd data) := by
  have hc : cmd ≠ .unreachable := by
    rintro rfl
    cases h
  refine ⟨hc, ?_⟩
  match pos with
  | 0 =>
    rw [decodeFrame_zero hc] at h
    cases h
    exact .inl ⟨rfl, rfl⟩
  | 1 =>
    rw [decodeFrame_one hc] at h
    cases h
    exact .inr (.inl ⟨rfl, rfl⟩)
  | 2 | 3 =>
    rw [decodeFrame_address hc (by decide)] at h
    cases h
    exact .inr (.inr (.inl ⟨by decide, rfl⟩))
  | n + 4 =>
    rw [decodeFrame_payload hc (by omega)] at h
    cases h
    exact .inr (.inr (.inr ⟨by omega, rfl⟩))

/-- The opcode map reads the byte as a row of position 0 (R96). -/
theorem decodeOpcode_isFrameRow (h : cmd ≠ .unreachable) : (decodeOpcode data).IsFrameRow cmd 0 data := by
  unfold decodeOpcode
  split_ifs with h0 h1 h2
  · exact ⟨rfl, by simp [Instr.selectedAt, h], by rw [h0]; rfl⟩
  · exact ⟨rfl, by simp [Instr.selectedAt, h], by rw [h1]; rfl⟩
  · exact ⟨rfl, by simp [Instr.selectedAt, h], by rw [h2]; rfl⟩
  · exact ⟨decide_eq_true (Machine.three_le_of_ne h0 h1 h2), by simp [Instr.selectedAt, h], rfl⟩

/-- The memory-kind map reads the byte as a row of position 1 under `MEMORY` (R98). -/
theorem decodeKind_isFrameRow : (decodeKind data).IsFrameRow .memory 1 data := by
  unfold decodeKind
  split_ifs with h0 h1 h2
  · exact ⟨rfl, rfl, by rw [h0]; rfl⟩
  · exact ⟨rfl, rfl, by rw [h1]; rfl⟩
  · exact ⟨rfl, rfl, by rw [h2]; rfl⟩
  · exact ⟨decide_eq_true (Machine.three_le_of_ne h0 h1 h2), rfl, rfl⟩

/-- The map of position 1 (R94, R97, R98). -/
theorem decodeArg_isFrameRow (h : cmd ≠ .unreachable) : (decodeArg cmd data).IsFrameRow cmd 1 data := by
  cases cmd with
  | unreachable => exact absurd rfl h
  | memory => exact decodeKind_isFrameRow
  | _ => exact ⟨rfl, rfl, rfl⟩

/-- The payload map (R100). -/
theorem decodePayload_isFrameRow (h : cmd ≠ .unreachable) (hp : 4 ≤ pos) :
    (decodePayload cmd data).IsFrameRow cmd pos data := by
  cases cmd with
  | unreachable => exact absurd rfl h
  | _ => exact ⟨rfl, by simp [decodePayload, Instr.selectedAt, hp], rfl⟩

/-- Whatever the frame decoder reads stands where its condition holds, and its word is the byte's. -/
theorem decodeFrame_isFrameRow {i : Instr} (h : decodeFrame cmd pos data = .ok i) : i.IsFrameRow cmd pos data := by
  obtain ⟨hc, ⟨rfl, rfl⟩ | ⟨rfl, rfl⟩ | ⟨hp, rfl⟩ | ⟨hp, rfl⟩⟩ := decodeFrame_ok h
  · exact decodeOpcode_isFrameRow hc
  · exact decodeArg_isFrameRow hc
  · exact ⟨rfl, by simp [Instr.selectedAt, hc, hp], rfl⟩
  · exact decodePayload_isFrameRow hc hp

/-- The frame decoder reads a received byte's word, where a row's condition holds, as that row. -/
theorem decodeFrame_of_isFrameRow {i : Instr} (h : i.IsFrameRow cmd pos data) : decodeFrame cmd pos data = .ok i := by
  obtain ⟨hwf, hsel, hword⟩ := h
  cases i with
  | opWait | opVersion | opMemory =>
    obtain rfl := eventData_unique hword
    simp only [Instr.selectedAt, Bool.and_eq_true, bne_iff_ne, beq_iff_eq] at hsel
    obtain ⟨hc, rfl⟩ := hsel
    exact decodeFrame_zero hc
  | opUnknown byte =>
    obtain rfl := eventData_unique hword
    simp only [Instr.selectedAt, Bool.and_eq_true, bne_iff_ne, beq_iff_eq] at hsel
    obtain ⟨hc, rfl⟩ := hsel
    rw [decodeFrame_zero hc, decodeOpcode_unrecognized (of_decide_eq_true hwf)]
  | switchApp byte | kindChipinfo | kindFlash | kindEeprom =>
    obtain rfl := eventData_unique hword
    simp only [Instr.selectedAt, Bool.and_eq_true, beq_iff_eq] at hsel
    obtain ⟨rfl, rfl⟩ := hsel
    exact decodeFrame_one (by decide)
  | kindBad byte =>
    obtain rfl := eventData_unique hword
    simp only [Instr.selectedAt, Bool.and_eq_true, beq_iff_eq] at hsel
    obtain ⟨rfl, rfl⟩ := hsel
    rw [decodeFrame_one (by decide), decodeArg, decodeKind_unrecognized (of_decide_eq_true hwf)]
  | pos1Other byte =>
    obtain rfl := eventData_unique hword
    simp only [Instr.selectedAt, Bool.and_eq_true, bne_iff_ne, beq_iff_eq] at hsel
    obtain ⟨⟨⟨hc, hversion⟩, hmemory⟩, rfl⟩ := hsel
    rw [decodeFrame_one hc, decodeArg_other hversion hmemory]
  | addrByte byte =>
    obtain rfl := eventData_unique hword
    simp only [Instr.selectedAt, Bool.and_eq_true, Bool.or_eq_true, bne_iff_ne, beq_iff_eq] at hsel
    obtain ⟨hc, hp⟩ := hsel
    exact decodeFrame_address hc hp
  | writeFlashByte byte | writeEeByte byte | writeChipinfoByte byte =>
    obtain rfl := eventData_unique hword
    simp only [Instr.selectedAt, Bool.and_eq_true, beq_iff_eq, decide_eq_true_eq] at hsel
    obtain ⟨rfl, hp⟩ := hsel
    exact decodeFrame_payload (by decide) hp
  | payloadOther byte =>
    obtain rfl := eventData_unique hword
    simp only [Instr.selectedAt, Bool.and_eq_true, bne_iff_ne, decide_eq_true_eq] at hsel
    obtain ⟨⟨⟨⟨hc, hflash⟩, heeprom⟩, hchipinfo⟩, hp⟩ := hsel
    rw [decodeFrame_payload hc hp, decodePayload_other hflash heeprom hchipinfo]
  | evRx | evTxReq => cases hsel
  | _ => simp [encode, eventWord_inj] at hword

/-- Under every written Command the frame decoder reads every byte at every position (R105). -/
theorem decodeFrame_total (h : cmd ≠ .unreachable) (pos : Nat) (data : Byte) :
    ∃ i, decodeFrame cmd pos data = .ok i := by
  match pos with
  | 0 => exact ⟨_, decodeFrame_zero h⟩
  | 1 => exact ⟨_, decodeFrame_one h⟩
  | 2 | 3 => exact ⟨_, decodeFrame_address h (by decide)⟩
  | n + 4 => exact ⟨_, decodeFrame_payload h (by omega)⟩

end

/-! ### The read decoder -/

/-- The read decoder reads a row where its condition holds (R101). -/
theorem decodeRead_selectedAt {cmd : Cmd} {i : Instr} (h : decodeRead cmd = .ok i) (pos : Nat) :
    i.wf = true ∧ i.selectedAt cmd pos = true := by
  cases cmd <;> cases h <;> exact ⟨rfl, rfl⟩

/-- Under every written Command the read decoder answers (R101, R105). -/
theorem decodeRead_total {cmd : Cmd} (h : cmd ≠ .unreachable) : ∃ i, decodeRead cmd = .ok i := by
  cases cmd with
  | unreachable => exact absurd rfl h
  | _ => exact ⟨_, rfl⟩

/-- The read decoder reads a row as itself from the word of a byte request, wherever its condition holds (R101). -/
theorem decodeRead_of_selectedAt {cmd : Cmd} {pos : Nat} {i : Instr} (hsel : i.selectedAt cmd pos = true)
    (hword : encode i = some (eventWord 0x3 0x00)) : decodeRead cmd = .ok i := by
  cases i with
  | readVersion | readChipinfo | readFlash | readEeprom =>
    obtain rfl := eq_of_beq hsel
    rfl
  | readFiller =>
    simp only [Instr.selectedAt, Bool.or_eq_true, beq_iff_eq] at hsel
    obtain (rfl | rfl) | rfl := hsel <;> rfl
  | evTxReq => cases hsel
  | _ => simp [encode, eventWord_inj] at hword

/-! ### Both levels -/

section
variable (cmd : Cmd) (pos : Nat) {w : EventWord}

theorem decodeRow_of_rx (h : eventCode w = 0x2) : decodeRow cmd pos w = decodeFrame cmd pos (eventData w) := if_pos h

theorem decodeRow_of_txReq (h : eventCode w = 0x3) : decodeRow cmd pos w = decodeRead cmd := by
  rw [decodeRow, if_neg (by simp [h]), if_pos h]

theorem decodeRow_of_other (hrx : eventCode w ≠ 0x2) (htx : eventCode w ≠ 0x3) :
    decodeRow cmd pos w = .ok (decodeEvent w) := by
  rw [decodeRow, if_neg hrx, if_neg htx]

end

/-- An event without a refinement is well formed and stands everywhere (R91, R92). -/
theorem decodeEvent_selectedAt {w : EventWord} (hrx : eventCode w ≠ 0x2) (htx : eventCode w ≠ 0x3) (cmd : Cmd)
    (pos : Nat) : (decodeEvent w).wf = true ∧ (decodeEvent w).selectedAt cmd pos = true := by
  unfold decodeEvent
  split
  case h_3 h2 => exact absurd (BitVec.eq_of_toNat_eq h2) hrx
  case h_4 h3 => exact absurd (BitVec.eq_of_toNat_eq h3) htx
  all_goals exact ⟨rfl, rfl⟩

/-- The decoders read the encoder's word back as the row, wherever the row's condition holds: a received byte by the
frame decoder, a byte request by the read decoder, another event by the event decoder. -/
theorem decodeRow_encode {i : Instr} {cmd : Cmd} {pos : Nat} {w : EventWord} (hwf : i.wf = true)
    (hsel : i.selectedAt cmd pos = true) (h : encode i = some w) : decodeRow cmd pos w = .ok i := by
  by_cases hrx : eventCode w = 0x2
  · rw [decodeRow_of_rx cmd pos hrx]
    exact decodeFrame_of_isFrameRow ⟨hwf, hsel, by rw [h, ← eq_eventWord_of_code hrx]⟩
  by_cases htx : eventCode w = 0x3
  · rw [decodeRow_of_txReq cmd pos htx]
    refine decodeRead_of_selectedAt hsel ?_
    rw [h, eq_eventWord_of_code htx, eventData_of_encode h hrx]
  · rw [decodeRow_of_other cmd pos hrx htx]
    obtain ⟨data, rfl⟩ | rfl | ⟨code, rfl, hevent⟩ := encode_cases h
    · exact absurd (eventCode_eventWord _ _) hrx
    · exact absurd (eventCode_eventWord _ _) htx
    · rw [hevent]

/-- Settles O5: the rows by the three decoders, and the two refined events by the event decoder. -/
theorem decodeOfEncode : Obligations.DecodeOfEncode :=
  ⟨fun _ _ _ _ hwf hsel h => decodeRow_encode hwf hsel h,
    fun data w h => by cases h; exact decodeEvent_rx data,
    fun w h => by cases h; exact decodeEvent_of_txReq (eventCode_eventWord _ _),
    fun _ => encode_eq_none_iff⟩

/-- Settles O6: what each decoder reads from its words, and that both refining decoders answer for every word. -/
theorem decodedRowIsSelected : Obligations.DecodedRowIsSelected := by
  refine ⟨fun cmd pos w i h => ?_, fun cmd pos w hc => ?_⟩
  · by_cases hrx : eventCode w = 0x2
    · rw [decodeRow_of_rx cmd pos hrx] at h
      obtain ⟨hwf, hsel, hword⟩ := decodeFrame_isFrameRow h
      exact ⟨hwf, hsel, fun _ => by rw [hword, ← eq_eventWord_of_code hrx]⟩
    by_cases htx : eventCode w = 0x3
    · rw [decodeRow_of_txReq cmd pos htx] at h
      obtain ⟨hwf, hsel⟩ := decodeRead_selectedAt h pos
      exact ⟨hwf, hsel, fun hrx' => absurd hrx' hrx⟩
    · rw [decodeRow_of_other cmd pos hrx htx] at h
      cases h
      obtain ⟨hwf, hsel⟩ := decodeEvent_selectedAt hrx htx cmd pos
      exact ⟨hwf, hsel, fun hrx' => absurd hrx' hrx⟩
  · by_cases hrx : eventCode w = 0x2
    · rw [decodeRow_of_rx cmd pos hrx]
      exact decodeFrame_total hc pos _
    by_cases htx : eventCode w = 0x3
    · rw [decodeRow_of_txReq cmd pos htx]
      exact decodeRead_total hc
    · exact ⟨_, decodeRow_of_other cmd pos hrx htx⟩

/-- Settles O3: each word's fields select its row. -/
theorem sampleWordsDecode : Obligations.SampleWordsDecode :=
  ⟨rfl, rfl, rfl, rfl, rfl, rfl, rfl, rfl, rfl, rfl, rfl, rfl, rfl, rfl, rfl, rfl, rfl, rfl, rfl, rfl⟩

end Sys2Proof

/-! PROOFS. Inputs as rows (30_encoding.md R93, R94, R101): a step runs the row that the decoders select. Then what the
two address bytes (R99), a chip-info byte (R104), a reserved code (R92) and the other events do. -/

namespace Sys2Proof.Machine

/-! ### Steps -/

/-- In a ready state without input a step is the wait, which leaves the state (70_reset_and_hazards.md R281). -/
theorem step_waits {s : State} (h : s.Ready) (hi : s.inputs = []) : step s = .next s := by
  rw [step_nil hi, waitForEvent, agentStep_ready h]

/-- Settles O1: the step's two cases, an input and none. -/
theorem stepRunsNextInput : Obligations.StepRunsNextInput :=
  ⟨fun _ _ _ hi => step_cons hi, fun _ => rfl, rfl, fun _ => step_waits⟩

/-- Settles O4: the event decoder sees the data byte of `EV_RX` only, and the encoder writes no other. -/
theorem dataByteReadByRxOnly : Obligations.DataByteReadByRxOnly := by
  refine ⟨fun s rest w w' hcode hrx => ?_, fun i w => eventData_of_encode⟩
  have hevent : decodeInput (.event w) = decodeInput (.event w') := decodeEvent_congr hcode hrx
  rw [step_cons (s := { s with inputs := .event w :: rest }) rfl,
    step_cons (s := { s with inputs := .event w' :: rest }) rfl, hevent]

/-! ### The frame rows as instructions -/

theorem exec_opWait (s : State) :
    exec .opWait s = frameRow (fun s => s.pos == 0) opWaitEffect s := rfl

theorem exec_opVersion (s : State) :
    exec .opVersion s = frameRow (fun s => s.pos == 0) opVersionEffect s := rfl

theorem exec_opMemory (s : State) :
    exec .opMemory s = frameRow (fun s => s.pos == 0) opMemoryEffect s := rfl

theorem exec_opUnknown (data : Byte) (s : State) :
    exec (.opUnknown data) s =
      frameRow (fun s => s.pos == 0 && decide (unrecognizedByte data))
        (opUnknownEffect data) s := rfl

theorem exec_switchApp (data : Byte) (s : State) :
    exec (.switchApp data) s = frameRow (fun s => s.pos == 1 && s.cmd == .version) (switchAppEffect data) s := rfl

theorem exec_kindChipinfo (s : State) :
    exec .kindChipinfo s = frameRow (fun s => s.pos == 1 && s.cmd == .memory) kindChipinfoEffect s := rfl

theorem exec_kindFlash (s : State) :
    exec .kindFlash s = frameRow (fun s => s.pos == 1 && s.cmd == .memory) kindFlashEffect s := rfl

theorem exec_kindEeprom (s : State) :
    exec .kindEeprom s = frameRow (fun s => s.pos == 1 && s.cmd == .memory) kindEepromEffect s := rfl

theorem exec_kindBad (data : Byte) (s : State) :
    exec (.kindBad data) s =
      frameRow (fun s => s.pos == 1 && s.cmd == .memory && decide (unrecognizedByte data))
        (kindBadEffect data) s := rfl

theorem exec_pos1Other (data : Byte) (s : State) :
    exec (.pos1Other data) s =
      frameRow (fun s => s.pos == 1 && s.cmd != .version && s.cmd != .memory)
        (pos1OtherEffect data) s := rfl

theorem exec_addrByte (data : Byte) (s : State) :
    exec (.addrByte data) s = frameRow (fun s => s.pos == 2 || s.pos == 3) (addrByteEffect data) s := rfl

theorem exec_writeFlashByte (data : Byte) (s : State) :
    exec (.writeFlashByte data) s =
      frameRow (fun s => decide (4 ≤ s.pos) && s.cmd == .flash)
        (writeFlashByteEffect data) s := rfl

theorem exec_writeEeByte (data : Byte) (s : State) :
    exec (.writeEeByte data) s =
      frameRow (fun s => decide (4 ≤ s.pos) && s.cmd == .eeprom)
        (writeEeByteEffect data) s := rfl

theorem exec_writeChipinfoByte (data : Byte) (s : State) :
    exec (.writeChipinfoByte data) s =
      frameRow (fun s => decide (4 ≤ s.pos) && s.cmd == .chipinfo)
        (writeChipinfoByteEffect data) s := rfl

theorem exec_payloadOther (data : Byte) (s : State) :
    exec (.payloadOther data) s =
      frameRow (fun s => decide (4 ≤ s.pos) && s.cmd != .flash && s.cmd != .eeprom && s.cmd != .chipinfo)
        (payloadOtherEffect data) s := rfl

/-! ### An event is its row -/

section
variable {s : State} {data : Byte}

/-- A frame row whose condition holds and whose effect the write path takes is the `EV_RX` step. -/
theorem exec_evRx_eq_exec {i : Instr} {selected : State → Bool} {effect : State → PathResult Ack}
    (hi : exec i s = frameRow selected effect s) (hs : selected { s with out := Outputs.quiet } = true)
    (he : effect { s with out := Outputs.quiet } = writePath data { s with out := Outputs.quiet }) :
    exec (.evRx data) s = exec i s :=
  (execEvRx_eq_frameRow selected effect (fun _ => hs) fun _ => he).trans hi.symm

/-- At position 0 a received byte is the row of the opcode map (40_command_decoder.md R121). -/
theorem exec_evRx_opcode (hp : s.pos = 0) : exec (.evRx data) s = exec (decodeOpcode data) s := by
  unfold decodeOpcode
  split_ifs with h0 h1 h2
  · exact exec_evRx_eq_exec (exec_opWait s) (by simp [hp]) (by simp [writePath, hp, posZero, h0])
  · exact exec_evRx_eq_exec (exec_opVersion s) (by simp [hp]) (by simp [writePath, hp, posZero, h1])
  · exact exec_evRx_eq_exec (exec_opMemory s) (by simp [hp]) (by simp [writePath, hp, posZero, h2])
  · have h3 : 3 ≤ data.toNat := three_le_of_ne h0 h1 h2
    exact exec_evRx_eq_exec (exec_opUnknown data s) (by simp [hp, h3])
      (by simp only [writePath, hp, posZero, if_neg h0, if_neg h1, if_neg h2])

/-- At position 1 under `MEMORY` a received byte is the row of the memory-kind map (40_command_decoder.md R127-R130). -/
theorem exec_evRx_kind (hp : s.pos = 1) (hc : s.cmd = .memory) : exec (.evRx data) s = exec (decodeKind data) s := by
  unfold decodeKind
  split_ifs with h0 h1 h2
  · exact exec_evRx_eq_exec (exec_kindChipinfo s) (by simp [hp, hc]) (by simp [writePath, hp, posOne, hc, h0])
  · exact exec_evRx_eq_exec (exec_kindFlash s) (by simp [hp, hc]) (by simp [writePath, hp, posOne, hc, h1])
  · exact exec_evRx_eq_exec (exec_kindEeprom s) (by simp [hp, hc]) (by simp [writePath, hp, posOne, hc, h2])
  · have h3 : 3 ≤ data.toNat := three_le_of_ne h0 h1 h2
    exact exec_evRx_eq_exec (exec_kindBad data s) (by simp [hp, hc, h3])
      (by simp only [writePath, hp, posOne, hc, if_neg h0, if_neg h1, if_neg h2])

/-- At position 1 a received byte is the row that the Command selects (40_command_decoder.md R126-R131). -/
theorem exec_evRx_arg (hp : s.pos = 1) : exec (.evRx data) s = exec (decodeArg s.cmd data) s := by
  cases hc : s.cmd with
  | memory => exact exec_evRx_kind hp hc
  | version =>
    exact exec_evRx_eq_exec (exec_switchApp data s) (by simp [hp, hc]) (by simp [writePath, hp, posOne, hc])
  | _ => exact exec_evRx_eq_exec (exec_pos1Other data s) (by simp [hp, hc]) (by simp [writePath, hp, posOne, hc])

/-- At position 2 or 3 a received byte is an address byte (40_command_decoder.md R132). -/
theorem exec_evRx_address (hp : s.pos = 2 ∨ s.pos = 3) : exec (.evRx data) s = exec (.addrByte data) s :=
  exec_evRx_eq_exec (exec_addrByte data s) (by simpa using hp) (by rcases hp with hp | hp <;> simp [writePath, hp])

/-- From position 4 on a received byte is the payload row that the Command selects (40_command_decoder.md R133-R136). -/
theorem exec_evRx_payload (hp : 4 ≤ s.pos) : exec (.evRx data) s = exec (decodePayload s.cmd data) s := by
  cases hc : s.cmd with
  | flash =>
    exact exec_evRx_eq_exec (exec_writeFlashByte data s) (by simp [hp, hc])
      (by simp [writePath_payload, hp, posPayload, hc])
  | eeprom =>
    exact exec_evRx_eq_exec (exec_writeEeByte data s) (by simp [hp, hc])
      (by simp [writePath_payload, hp, posPayload, hc])
  | chipinfo =>
    exact exec_evRx_eq_exec (exec_writeChipinfoByte data s) (by simp [hp, hc])
      (by simp [writePath_payload, hp, posPayload, hc])
  | _ =>
    exact exec_evRx_eq_exec (exec_payloadOther data s) (by simp [hp, hc])
      (by simp [writePath_payload, hp, posPayload, hc])

/-- `EV_RX` is the row that the frame decoder selects. -/
theorem exec_evRx_eq_row {i : Instr} (h : decodeFrame s.cmd s.pos data = .ok i) : exec (.evRx data) s = exec i s := by
  obtain ⟨-, ⟨hp, rfl⟩ | ⟨hp, rfl⟩ | ⟨hp, rfl⟩ | ⟨hp, rfl⟩⟩ := decodeFrame_ok h
  · exact exec_evRx_opcode hp
  · exact exec_evRx_arg hp
  · exact exec_evRx_address hp
  · exact exec_evRx_payload hp

/-- A read row whose condition holds and whose effect the read path takes is the `EV_TX_REQ` step. -/
theorem exec_evTxReq_eq_exec {i : Instr} {selected : State → Bool} {effect : State → PathResult Byte}
    (hi : exec i s = readRow selected effect s) (hs : selected { s with out := Outputs.quiet } = true)
    (he : effect { s with out := Outputs.quiet } = readPath { s with out := Outputs.quiet }) :
    exec .evTxReq s = exec i s :=
  (execEvTxReq_eq_readRow selected effect (fun _ => hs) fun _ => he).trans hi.symm

/-- `EV_TX_REQ` is the row that the read decoder selects. -/
theorem exec_evTxReq_eq_row {i : Instr} (h : decodeRead s.cmd = .ok i) : exec .evTxReq s = exec i s := by
  cases hc : s.cmd with
  | version =>
    obtain rfl := Except.ok.inj (hc ▸ h)
    exact exec_evTxReq_eq_exec (exec_readVersion s) (by simp [hc]) (by simp [readPath, hc])
  | chipinfo =>
    obtain rfl := Except.ok.inj (hc ▸ h)
    exact exec_evTxReq_eq_exec (exec_readChipinfo s) (by simp [hc]) (by simp [readPath, hc])
  | flash =>
    obtain rfl := Except.ok.inj (hc ▸ h)
    exact exec_evTxReq_eq_exec (exec_readFlash s) (by simp [hc]) (by simp [readPath, hc])
  | eeprom =>
    obtain rfl := Except.ok.inj (hc ▸ h)
    exact exec_evTxReq_eq_exec (exec_readEeprom s) (by simp [hc]) (by simp [readPath, hc])
  | wait | memory | bootApplication =>
    obtain rfl := Except.ok.inj (hc ▸ h)
    exact exec_evTxReq_eq_exec (exec_readFiller s) (by simp [hc]) (by simp [readPath, hc])
  | unreachable => cases hc ▸ h

end

/-- Settles O16: by the frame decoder's positions and the read decoder's Commands. -/
theorem eventIsItsRow : Obligations.EventIsItsRow :=
  ⟨fun _ _ _ => exec_evRx_eq_row, fun _ _ => exec_evTxReq_eq_row⟩

/-- Settles O2: a received byte and a byte request are their rows, and another event is its own row. -/
theorem stepRunsSelectedRow : Obligations.StepRunsSelectedRow := by
  intro s w rest i hi h
  rw [step_cons hi, decodeInput]
  by_cases hrx : eventCode w = 0x2
  · rw [decodeRow_of_rx _ _ hrx] at h
    rw [decodeEvent_of_rx hrx]
    exact exec_evRx_eq_row h
  by_cases htx : eventCode w = 0x3
  · rw [decodeRow_of_txReq _ _ htx] at h
    rw [decodeEvent_of_txReq htx]
    exact exec_evTxReq_eq_row h
  · rw [decodeRow_of_other _ _ hrx htx] at h
    cases h
    rfl

/-! ### The address -/

/-- An address byte under a Command that takes an address shifts into `ADDR` and is accepted (40_command_decoder.md
R132). -/
theorem exec_evRx_addrByte {s : State} (h : s.Receiving) (hp : s.pos = 2 ∨ s.pos = 3)
    (hc : s.cmd = .chipinfo ∨ s.cmd = .flash ∨ s.cmd = .eeprom) (data : Byte) :
    exec (.evRx data) s =
      .next { s with addr := shiftIn s.addr data, pos := s.pos + 1, out := ackOut .ack } := by
  have hpage := pageSize_bounds h.1.1.1
  rw [← posAfter_ack_inPage h.1.1 (p := s.pos) (by omega), exec_evRx_address hp]
  rw [exec_addrByte, frameRow_selected _ h (by simpa using hp), addrByteEffect, if_pos hc]
  rfl

/-- Settles O23: the second byte shifts what `ADDR` held before out of it. -/
theorem addressAssembled : Obligations.AddressAssembled := by
  intro s hi lo h hp hc
  refine ⟨_, _, exec_evRx_addrByte h (.inl hp) hc hi,
    exec_evRx_addrByte (s := { s with addr := shiftIn s.addr hi, pos := s.pos + 1, out := ackOut .ack }) h
      (.inr (congrArg Nat.succ hp)) hc lo, ?_, congrArg (· + 2) hp, rfl⟩
  show (shiftIn (shiftIn s.addr hi) lo).toNat = _
  rw [shiftIn_twice, address_toNat]

/-! ### The chip-info record -/

theorem highByte_toNat (v : Addr) : (highByte v).toNat = v.toNat / 256 := by
  have := v.isLt
  simp only [highByte, BitVec.extractLsb'_toNat, Nat.shiftRight_eq_div_pow]
  omega

theorem lowByte_toNat (v : Addr) : (lowByte v).toNat = v.toNat % 256 := by
  simp [lowByte, BitVec.extractLsb'_toNat]

/-- The data-memory size of the record, 0 without data memory (30_encoding.md R104). -/
theorem eeSizeField_toNat {c : Config} (h : c.wf) :
    (if c.eepromSupport then BitVec.ofNat 16 c.eeSize else 0).toNat = if c.eepromSupport then c.eeSize else 0 := by
  obtain ⟨-, -, hee, -⟩ := h
  unfold Config.eeOk at hee
  split_ifs at hee ⊢
  · exact Nat.mod_eq_of_lt (by omega)
  · rfl

/-- A byte requested under `CHIPINFO` is the record's byte at `RPOS` (40_command_decoder.md R142). -/
theorem exec_readChipinfo_answer {s : State} (h : s.Transmitting) (hc : s.cmd = .chipinfo) :
    exec .readChipinfo s =
      .next { s with rpos := s.rpos + 1, out := txdOut (chipInfoByte s.cfg s.rpos.toNat) } := by
  rw [exec_readChipinfo, readRow_selected _ h (by simp [hc])]
  rfl

/-- Settles O30: the fields of the record in order, each in range in a legal configuration. -/
theorem chipInfoByteRead : Obligations.ChipInfoByteRead := by
  intro s h hc
  refine ⟨_, ?_, exec_readChipinfo_answer h hc⟩
  have hsize := eeSizeField_toNat h.1.1
  obtain ⟨hpageOk, ⟨-, -, -, -, -, hbootFits⟩, -⟩ : s.cfg.wf := h.1.1
  have hpage := pageSize_bounds hpageOk
  have hboot : (BitVec.ofNat 16 s.cfg.bootStart).toNat = s.cfg.bootStart := Nat.mod_eq_of_lt hbootFits
  have hk := Nat.mod_lt s.rpos.toNat (show 0 < 8 by decide)
  unfold chipInfoByte chipInfo
  split
  case h_1 e | h_2 e | h_3 e => rw [e]; rfl
  case h_4 e => rw [e]; exact Nat.mod_eq_of_lt (by omega)
  case h_5 e => rw [e]; exact (highByte_toNat _).trans (by rw [hboot])
  case h_6 e => rw [e]; exact (lowByte_toNat _).trans (by rw [hboot])
  case h_7 e => rw [e]; exact (highByte_toNat _).trans (by rw [hsize]; split_ifs <;> rfl)
  case h_8 =>
    have e : s.rpos.toNat % 8 = 7 := by simp only [imp_false] at *; omega
    rw [e]; exact (lowByte_toNat _).trans (by rw [hsize]; split_ifs <;> rfl)

/-! ### Reserved codes -/

/-- A reserved code records its model fault and nothing else (30_encoding.md R92). -/
theorem reservedEvent_ready {s : State} (h : s.Ready) :
    reservedEvent s = .next { s with faults := [.reservedEvent], out := Outputs.quiet } := by
  rw [reservedEvent, agentStep_ready h, raise_ready (s := { s with out := Outputs.quiet }) h.2.1]

/-- Settles O11: both rows record the model fault, and the event decoder reads them from the codes 0x7 to 0xF. -/
theorem reservedEventRecorded : Obligations.ReservedEventRecorded :=
  ⟨fun _ h => ⟨reservedEvent_ready h, reservedEvent_ready h⟩, decodeEvent_reserved_iff⟩

/-! ### The frame of the events -/

/-- Settles O56: each row's next state names the fields that it writes. -/
theorem frameOfEvents : Obligations.FrameOfEvents := by
  intro i s t hi h
  simp only [List.mem_cons, List.not_mem_nil, or_false] at hi
  rcases hi with rfl | rfl | rfl | rfl | rfl | rfl | rfl | rfl
  · obtain ⟨-, rfl⟩ := execEvAddrW_next h
    simp [Outputs.quiet]
  · obtain ⟨-, rfl⟩ := execEvAddrR_next h
    simp [Outputs.quiet]
  · obtain ⟨-, rfl⟩ := execEvStop_next h
    simp [Outputs.quiet]
  · obtain ⟨-, rfl⟩ := execEvBusError_next h
    simp [Outputs.quiet]
  · obtain ⟨-, ⟨-, rfl⟩ | ⟨-, rfl⟩ | ⟨-, rfl⟩⟩ := execEvTick_next h <;> simp [Outputs.quiet]
  · obtain ⟨-, rfl⟩ := execEvReserved7_next h
    simp [Outputs.quiet]
  · obtain ⟨-, rfl⟩ := execEvReserved8F_next h
    simp [Outputs.quiet]
  · obtain ⟨-, -, rfl⟩ := execHandOff_next h
    simp [Outputs.quiet]

end Sys2Proof.Machine

/-! PROOFS. The command decoder, row by row (40_command_decoder.md): the answers and the model faults of the received bytes
and of the requested bytes. -/

namespace Sys2Proof.Machine

/-! ### The ends of the two paths -/

/-- The first model fault of the write path is recorded, and nothing else changes (R120). -/
theorem finishReceive_raise {s : State} (h : s.faults = []) (r : ModelFault) :
    finishReceive (.raise r) { s with out := Outputs.quiet } =
      .next { s with faults := [r], out := Outputs.quiet } := by
  rw [finishReceive, raise_ready (s := { s with out := Outputs.quiet }) h]

/-- The first model fault of the read path is recorded, and nothing else changes (R140). -/
theorem finishRequest_raise {s : State} (h : s.faults = []) (r : ModelFault) :
    finishRequest (.raise r) { s with out := Outputs.quiet } =
      .next { s with faults := [r], out := Outputs.quiet } := by
  rw [finishRequest, raise_ready (s := { s with out := Outputs.quiet }) h]

/-! ### The answer to a received byte -/

/-- The write path answers where its two model faults are excluded (R133, R134). -/
theorem writePath_answers {s : State} {data : Byte} (hpage : s.cmd = .flash → s.pos < s.cfg.pageSize + 4)
    (hee : s.cmd = .eeprom → 4 ≤ s.pos → s.addr.toNat < s.cfg.eeSize ∨ s.cfg.eeOor = .wrap) :
    ∃ a u, writePath data s = .answer a u := by
  cases hw : writePath data s with
  | answer a u => exact ⟨a, u, rfl⟩
  | raise r =>
    rcases writePath_raise hw with ⟨-, hc, -, hbeyond⟩ | ⟨-, hc, h4, hout, hfault⟩
    · exact absurd (hpage hc) (Nat.not_lt_of_le hbeyond)
    · rcases hee hc h4 with hin | hwrap
      · omega
      · rw [hwrap] at hfault; cases hfault

/-- What no answer of the write path changes: the position, which follows the decision afterwards, and every register that
belongs to the protocol or to the run. -/
theorem writePath_answer_keeps {data : Byte} {s u : State} {a : Ack} (h : writePath data s = .answer a u) :
    u.cfg = s.cfg ∧ u.pos = s.pos ∧ u.rpos = s.rpos ∧ u.phase = s.phase ∧ u.handedOff = s.handedOff ∧
      u.inputs = s.inputs := by
  rcases writePath_answer h with
    ⟨-, -, -, _, -, rfl⟩ | ⟨-, -, -, rfl⟩ | ⟨-, -, -, -, rfl⟩ | ⟨-, -, -, _, -, rfl⟩ | ⟨-, -, -, rfl⟩ |
    ⟨-, -, -, rfl⟩ | ⟨-, -, -, -, -, rfl⟩ | ⟨-, -, -, -, -, rfl⟩ | ⟨-, -, -, _, -, rfl⟩ | ⟨-, -, -, -, rfl⟩ <;>
    exact ⟨rfl, rfl, rfl, rfl, rfl, rfl⟩

/-- While receiving, `EV_RX` drives the write path's decision, and `POS` follows it (R137). -/
theorem exec_evRx_answer {s u : State} {data : Byte} {a : Ack} (h : s.Receiving)
    (hw : writePath data { s with out := Outputs.quiet } = .answer a u) :
    exec (.evRx data) s = .next { u with pos := posAfter u.cfg u.pos a, out := ackOut a } := by
  show onReceive s _ = _
  rw [onReceive_receiving h, hw]
  rfl

/-- Settles O14: the write path answers, and its answer keeps what the statement names but `POS`. -/
theorem receivedByteAnswered : Obligations.ReceivedByteAnswered := by
  intro s data h hpage hee
  obtain ⟨a, u, hw⟩ := writePath_answers (s := { s with out := Outputs.quiet }) (data := data) hpage hee
  obtain ⟨hcfg, hpos, -, hphase, -⟩ := writePath_answer_keeps hw
  obtain ⟨⟨-, hfaults, -⟩, hrx, -⟩ := id h
  refine ⟨a, _, exec_evRx_answer h hw, rfl, (writePath_answer_faults hw).trans hfaults, hphase.trans hrx, ?_⟩
  show posAfter u.cfg u.pos a = _
  rw [hcfg, hpos]
  cases a <;> rfl

/-! ### Position 0 -/

/-- A recognized opcode cancels the countdown, sets the Command and is accepted (R121). -/
theorem frameRow_recognizedOpcode {s : State} (h : s.Receiving) (hp : s.pos = 0) (c : Cmd) :
    frameRow (fun s => s.pos == 0) (recognizedOpcode c) s =
      .next { s with ctr := 0, cmd := c, pos := 1, out := ackOut .ack } := by
  have hpos : posAfter s.cfg s.pos .ack = 1 := by rw [posAfter_ack_inPage h.1.1 (by omega), hp]
  rw [frameRow_selected _ h (by simpa using hp), ← hpos]
  rfl

/-- Settles O17: the three rows are the recognized opcode of three Commands. -/
theorem recognizedOpcodeRows : Obligations.RecognizedOpcode := fun _ h hp =>
  ⟨frameRow_recognizedOpcode h hp .wait, frameRow_recognizedOpcode h hp .version,
    frameRow_recognizedOpcode h hp .memory⟩

/-- Settles O18: the row's effect writes `CMD` alone. -/
theorem unknownOpcodeRequestsBoot : Obligations.UnknownOpcodeRequestsBoot := by
  intro s data h hp hd
  rw [exec_opUnknown, frameRow_selected _ h (by simp [hp, hd])]
  rfl

/-! ### Position 1 -/

/-- Settles O19: 0x80 writes `CMD`, every other boot type nothing. -/
theorem bootType : Obligations.BootType := by
  intro s data h hp hc
  rw [exec_switchApp, frameRow_selected _ h (by simp [hp, hc]), switchAppEffect]
  split_ifs
  · rfl
  · rw [← hc]
    rfl

/-- A memory kind that is accepted refines the Command (R127-R129). -/
theorem frameRow_kind {s : State} (h : s.Receiving) (hp : s.pos = 1) (hc : s.cmd = .memory) {c : Cmd}
    {effect : State → PathResult Ack}
    (he : effect { s with out := Outputs.quiet } = .answer .ack { s with out := Outputs.quiet, cmd := c }) :
    frameRow (fun s => s.pos == 1 && s.cmd == .memory) effect s =
      .next { s with cmd := c, pos := 2, out := ackOut .ack } := by
  have hpos : posAfter s.cfg s.pos .ack = 2 := by rw [posAfter_ack_inPage h.1.1 (by omega), hp]
  rw [frameRow_selected _ h (by simp [hp, hc]), he, ← hpos]
  rfl

/-- Settles O20: `KIND_EEPROM` alone asks the configuration. -/
theorem memoryKind : Obligations.MemoryKind := by
  intro s h hp hc
  refine ⟨frameRow_kind h hp hc rfl, frameRow_kind h hp hc rfl, fun he => frameRow_kind h hp hc (if_pos he),
    fun he => ?_⟩
  rw [exec_kindEeprom, frameRow_selected _ h (by simp [hp, hc]), kindEepromEffect, if_neg (by simp [he]), ← hc]
  rfl

/-- Settles O21: the three rows have the same effect, a rejection. -/
theorem meaninglessByteRejected : Obligations.MeaninglessByteRejected := by
  intro s data h
  refine ⟨fun hp hc hd => ?_, fun hp hmemory hversion => ?_, fun hp hflash heeprom hchipinfo => ?_⟩
  · rw [exec_kindBad, frameRow_selected _ h (by simp [hp, hc, hd])]
    rfl
  · rw [exec_pos1Other, frameRow_selected _ h (by simp [hp, hmemory, hversion])]
    rfl
  · rw [exec_payloadOther, frameRow_selected _ h (by simp [hp, hflash, heeprom, hchipinfo])]
    rfl

/-! ### Positions 2 and 3 -/

/-- Settles O22: the shift by arithmetic under the three Commands that take an address, else a rejection. -/
theorem addressByte : Obligations.AddressByte := by
  refine fun s data h hp => ⟨fun hc => ?_, fun hc => ?_⟩
  · rw [← shiftIn_eq, ← exec_evRx_address hp]
    exact exec_evRx_addrByte h hp hc data
  · rw [exec_addrByte, frameRow_selected _ h (by simpa using hp), addrByteEffect, if_neg hc]
    rfl

/-! ### Payload -/

/-- Settles O24: below the last byte of the page the row buffers, beyond the page it raises. -/
theorem flashByteBuffered : Obligations.FlashByteBuffered := by
  intro s data h hc h4
  rw [exec_writeFlashByte, frameRow_selected _ h (by simp [hc, h4]), writeFlashByteEffect]
  refine ⟨fun hlt => ?_, fun hbeyond => ?_⟩
  · rw [if_neg (show ¬ s.cfg.pageSize ≤ s.pos - 4 by omega),
      if_neg (show ¬ s.pos - 4 = s.cfg.pageSize - 1 by omega), ← posAfter_ack_inPage h.1.1 hlt]
    rfl
  · rw [if_pos (show s.cfg.pageSize ≤ s.pos - 4 by omega)]
    exact finishReceive_raise h.1.2.1 _

/-- Settles O28: neither decision of `CHIPINFO_WRITE_PAYLOAD` stores the byte. -/
theorem chipinfoPayloadDiscarded : Obligations.ChipinfoPayloadDiscarded := by
  intro s data h hc h4
  rw [exec_writeChipinfoByte, frameRow_selected _ h (by simp [hc, h4])]
  refine ⟨fun hdiscard => ?_, fun hnack => ?_⟩
  · simp only [writeChipinfoByteEffect, hdiscard]
    rfl
  · simp only [writeChipinfoByteEffect, hnack]
    rfl

/-! ### The checked addresses -/

section
variable {c : Config} {a : Addr}

/-- An Address inside program memory is its own checked address (42_memory_backend.md R208). -/
theorem flashAddr_inside (h : a.toNat < c.flashSize) : flashAddr c a = .ok a.toNat := if_pos h

theorem flashAddr_wrap (h : c.flashSize ≤ a.toNat) (hw : c.flashOor = .wrap) :
    flashAddr c a = .ok (a.toNat % c.flashSize) := by
  rw [flashAddr, if_neg (Nat.not_lt_of_le h), hw]

theorem flashAddr_fault (h : c.flashSize ≤ a.toNat) (hf : c.flashOor = .fault) :
    flashAddr c a = .error .flashOutOfRange := by
  rw [flashAddr, if_neg (Nat.not_lt_of_le h), hf]

theorem eeAddr_wrap (h : c.eeSize ≤ a.toNat) (hw : c.eeOor = .wrap) : eeAddr c a = .ok (a.toNat % c.eeSize) := by
  rw [eeAddr, if_neg (Nat.not_lt_of_le h), hw]

theorem eeAddr_fault (h : c.eeSize ≤ a.toNat) (hf : c.eeOor = .fault) : eeAddr c a = .error .eeOutOfRange := by
  rw [eeAddr, if_neg (Nat.not_lt_of_le h), hf]

end

/-! ### Requested bytes -/

/-- Settles O27: the address check comes before the write and before the read. -/
theorem eeOutOfRangeRecorded : Obligations.EeOutOfRangeRecorded := by
  intro s hc hout hfault
  have haddr := eeAddr_fault hout hfault
  refine ⟨fun data h h4 => ?_, fun h => ?_⟩
  · rw [exec_writeEeByte, frameRow_selected _ h (by simp [hc, h4])]
    simp only [writeEeByteEffect, haddr]
    exact finishReceive_raise h.1.2.1 _
  · rw [exec_readEeprom, readRow_selected _ h (by simp [hc])]
    simp only [readEepromEffect, haddr]
    exact finishRequest_raise h.1.2.1 _

/-- In a legal configuration the identity has a byte at every position modulo its length (30_encoding.md R102). -/
theorem getElem?_ident {c : Config} (h : c.identOk) (k : Nat) :
    c.ident[k % c.ident.length]? = some (identityByte c k) := by
  have hk : k % c.ident.length < c.ident.length := Nat.mod_lt _ h.1
  rw [identityByte, List.getD_eq_getElem?_getD, List.getElem?_eq_getElem hk, Option.getD_some]

/-- Settles O29: the legal `ID_LEN` puts the index inside the identity. -/
theorem identityByteRead : Obligations.IdentityByteRead := by
  intro s h hc
  obtain ⟨-, -, -, hident, -⟩ : s.cfg.wf := h.1.1
  refine ⟨_, getElem?_ident hident _, ?_⟩
  rw [exec_readVersion, readRow_selected _ h (by simp [hc])]
  rfl

/-- A byte requested under `FLASH` is the byte at the checked address, and `ADDR` advances (R143). -/
theorem exec_readFlash_answer {s : State} (h : s.Transmitting) (hc : s.cmd = .flash) {a : Nat}
    (ha : flashAddr s.cfg s.addr = .ok a) :
    exec .readFlash s =
      .next { s with addr := s.addr + 1, rpos := s.rpos + 1, out := txdOut (Memory.read s.flash a) } := by
  rw [exec_readFlash, readRow_selected _ h (by simp [hc])]
  simp only [readFlashEffect, ha]
  rfl

/-- Settles O31: the three outcomes of the address check. -/
theorem flashByteRead : Obligations.FlashByteRead := by
  intro s h hc
  refine ⟨fun hin => exec_readFlash_answer h hc (flashAddr_inside hin),
    fun hout hwrap => exec_readFlash_answer h hc (flashAddr_wrap hout hwrap), fun hout hfault => ?_⟩
  rw [exec_readFlash, readRow_selected _ h (by simp [hc])]
  simp only [readFlashEffect, flashAddr_fault hout hfault]
  exact finishRequest_raise h.1.2.1 _

/-- A byte requested under `EEPROM` is the byte at the checked address, and `ADDR` advances (R144). -/
theorem exec_readEeprom_answer {s : State} (h : s.Transmitting) (hc : s.cmd = .eeprom) {a : Nat}
    (ha : eeAddr s.cfg s.addr = .ok a) :
    exec .readEeprom s =
      .next { s with addr := s.addr + 1, rpos := s.rpos + 1, out := txdOut (Memory.read s.ee a) } := by
  rw [exec_readEeprom, readRow_selected _ h (by simp [hc])]
  simp only [readEepromEffect, ha]
  rfl

/-- Settles O32: the two answers of the address check. -/
theorem eeByteRead : Obligations.EeByteRead := fun _ h hc =>
  ⟨fun hin => exec_readEeprom_answer h hc (eeAddr_inside hin),
    fun hout hwrap => exec_readEeprom_answer h hc (eeAddr_wrap hout hwrap)⟩

/-- Settles O33: the row's condition is the statement's, and its effect the filler. -/
theorem fillerByteRead : Obligations.FillerByteRead := by
  intro s h hc
  rw [exec_readFiller, readRow_selected _ h (by simpa [or_assoc] using hc)]
  rfl

end Sys2Proof.Machine

/-! PROOFS. What the frame rows and `EV_RX` leave unchanged (40_command_decoder.md R120-R137): the rows that store nothing,
then the rows that store. -/

namespace Sys2Proof.Machine

/-! ### The rows that store nothing -/

section
variable {data : Byte} {i : Instr} {s t : State}

/-- The row `i` writes no more of these three registers than it may: `ADDR` in `ADDR_BYTE`, `CTR` in the recognized
opcodes, `CMD` not in the five rows that write none. -/
def RowWrites (data : Byte) (i : Instr) (s : State) (cmd : Cmd) (ctr : Nat) (addr : Addr) : Prop :=
  (i ≠ .addrByte data → addr = s.addr) ∧
  (i ∉ [.opWait, .opVersion, .opMemory] → ctr = s.ctr) ∧
  (i ∈ [.kindBad data, .pos1Other data, .addrByte data, .writeChipinfoByte data, .payloadOther data] → cmd = s.cmd)

/-- The row `i` answers in the state `s`, and writes what it may. -/
def AnswersAsRow (data : Byte) (i : Instr) (s : State) (p : PathResult Ack) : Prop :=
  ∃ a cmd ctr addr, p = .answer a { s with cmd := cmd, ctr := ctr, addr := addr } ∧
    RowWrites data i s cmd ctr addr

/-- A decision alone is within what every row may write. -/
theorem AnswersAsRow.same (a : Ack) : AnswersAsRow data i s (.answer a s) :=
  ⟨a, s.cmd, s.ctr, s.addr, rfl, fun _ => rfl, fun _ => rfl, fun _ => rfl⟩

theorem AnswersAsRow.command (a : Ack) (cmd : Cmd)
    (hi : i ∉ [.kindBad data, .pos1Other data, .addrByte data, .writeChipinfoByte data, .payloadOther data]) :
    AnswersAsRow data i s (.answer a { s with cmd := cmd }) :=
  ⟨a, cmd, s.ctr, s.addr, rfl, fun _ => rfl, fun _ => rfl, fun h => (hi h).elim⟩

theorem AnswersAsRow.opcode (cmd : Cmd) (hi : i ∈ [.opWait, .opVersion, .opMemory]) :
    AnswersAsRow data i s (recognizedOpcode cmd s) := by
  refine ⟨.ack, cmd, 0, s.addr, rfl, fun _ => rfl, fun h => (h hi).elim, fun h => ?_⟩
  simp only [List.mem_cons, List.not_mem_nil, or_false] at hi
  rcases hi with rfl | rfl | rfl <;> simp at h

theorem AnswersAsRow.switchApp : AnswersAsRow data (.switchApp data) s (switchAppEffect data s) := by
  unfold switchAppEffect
  split_ifs
  · exact .command _ _ (by simp)
  · exact .same _

theorem AnswersAsRow.kindEeprom : AnswersAsRow data .kindEeprom s (kindEepromEffect s) := by
  unfold kindEepromEffect
  split_ifs
  · exact .command _ _ (by simp)
  · exact .same _

theorem AnswersAsRow.addrByte : AnswersAsRow data (.addrByte data) s (addrByteEffect data s) := by
  unfold addrByteEffect
  split_ifs
  · exact ⟨_, s.cmd, s.ctr, _, rfl, fun h => (h rfl).elim, fun _ => rfl, fun _ => rfl⟩
  · exact .same _

theorem AnswersAsRow.writeChipinfoByte :
    AnswersAsRow data (.writeChipinfoByte data) s (writeChipinfoByteEffect data s) := by
  unfold writeChipinfoByteEffect
  split <;> exact .same _

/-- A next state of the row `i`: no more than `CMD`, `CTR`, `ADDR`, `POS`, `FAULTS` and `ack` are written, the first three
as the row may, and a model fault is one of the guards of `EV_RX`. -/
def NextAsRow (data : Byte) (i : Instr) (s t : State) : Prop :=
  ∃ cmd ctr addr pos faults ack,
    t = { s with
      cmd := cmd, ctr := ctr, addr := addr, pos := pos, faults := faults,
      out := { ack := ack, txd := none, busReset := false } } ∧
    RowWrites data i s cmd ctr addr ∧
    (faults = s.faults ∨ faults = [.outOfPhaseEvent] ∨ faults = [.cmdUnreachable])

/-- A frame row whose effect always answers raises the model faults of the guards of `EV_RX` only. -/
theorem frameRow_nextAsRow {selected : State → Bool} {effect : State → PathResult Ack}
    (heffect : ∀ s, AnswersAsRow data i s (effect s)) (h : frameRow selected effect s = .next t) :
    NextAsRow data i s t := by
  obtain ⟨-, ⟨r, hr, rfl⟩ | ⟨-, hbody⟩⟩ := onReceive_next h
  · refine ⟨s.cmd, s.ctr, s.addr, s.pos, [r], none, rfl, ⟨fun _ => rfl, fun _ => rfl, fun _ => rfl⟩, .inr ?_⟩
    exact hr.imp (fun ⟨hr, _⟩ => hr ▸ rfl) fun ⟨hr, _⟩ => hr ▸ rfl
  · split at hbody
    · obtain ⟨a, cmd, ctr, addr, he, hwrites⟩ := heffect { s with out := Outputs.quiet }
      rw [he] at hbody
      cases hbody
      exact ⟨cmd, ctr, addr, _, _, _, rfl, hwrites, .inl rfl⟩
    · cases hbody

end

/-- Every row that stores nothing has an effect that always answers. -/
theorem exec_nextAsRow {data : Byte} {i : Instr} {s t : State}
    (hi : i ∈ [.opWait, .opVersion, .opMemory, .opUnknown data, .switchApp data, .kindChipinfo, .kindFlash, .kindEeprom,
      .kindBad data, .pos1Other data, .addrByte data, .writeChipinfoByte data, .payloadOther data])
    (h : exec i s = .next t) : NextAsRow data i s t := by
  simp only [List.mem_cons, List.not_mem_nil, or_false] at hi
  rcases hi with rfl | rfl | rfl | rfl | rfl | rfl | rfl | rfl | rfl | rfl | rfl | rfl | rfl
  · exact frameRow_nextAsRow (fun _ => .opcode .wait (by simp)) (exec_opWait s ▸ h)
  · exact frameRow_nextAsRow (fun _ => .opcode .version (by simp)) (exec_opVersion s ▸ h)
  · exact frameRow_nextAsRow (fun _ => .opcode .memory (by simp)) (exec_opMemory s ▸ h)
  · exact frameRow_nextAsRow (fun _ => .command .nack .bootApplication (by simp)) (exec_opUnknown data s ▸ h)
  · exact frameRow_nextAsRow (fun _ => .switchApp) (exec_switchApp data s ▸ h)
  · exact frameRow_nextAsRow (fun _ => .command .ack .chipinfo (by simp)) (exec_kindChipinfo s ▸ h)
  · exact frameRow_nextAsRow (fun _ => .command .ack .flash (by simp)) (exec_kindFlash s ▸ h)
  · exact frameRow_nextAsRow (fun _ => .kindEeprom) (exec_kindEeprom s ▸ h)
  · exact frameRow_nextAsRow (fun _ => .same .nack) (exec_kindBad data s ▸ h)
  · exact frameRow_nextAsRow (fun _ => .same .nack) (exec_pos1Other data s ▸ h)
  · exact frameRow_nextAsRow (fun _ => .addrByte) (exec_addrByte data s ▸ h)
  · exact frameRow_nextAsRow (fun _ => .writeChipinfoByte) (exec_writeChipinfoByte data s ▸ h)
  · exact frameRow_nextAsRow (fun _ => .same .nack) (exec_payloadOther data s ▸ h)

/-- Settles O57: each of the rows always answers, and its effect writes at most `CMD`, `CTR` and `ADDR`, as it may. -/
theorem frameOfFrameBytes : Obligations.FrameOfFrameBytes := by
  intro data i s t hi h
  obtain ⟨cmd, ctr, addr, pos, faults, ack, rfl, ⟨haddr, hctr, hcmd⟩, hfaults⟩ := exec_nextAsRow hi h
  exact ⟨fun _ => rfl, fun _ => rfl, rfl, rfl, rfl, rfl, rfl, rfl, rfl, rfl, haddr, hctr, hcmd, hfaults⟩

/-! ### The rows that store -/

/-- `EV_RX` changes program memory by the commit at the last byte of a page only, and data memory at the checked address
only (R133, R134). -/
theorem execEvRx_memories {data : Byte} {s t : State} (h : exec (.evRx data) s = .next t) :
    (t.flash = s.flash ∨ s.pos = s.cfg.pageSize + 3 ∧ ∃ buf, t.flash = flashAfterCommit s.cfg s.addr buf s.flash) ∧
      (t.ee = s.ee ∨ ∃ index, eeAddr s.cfg s.addr = .ok index ∧ t.ee = Memory.write s.ee index data) := by
  obtain ⟨-, ⟨r, rfl, -⟩ | ⟨-, a, u, hu, rfl⟩⟩ := execEvRx_next h
  · exact ⟨.inl rfl, .inl rfl⟩
  · exact ⟨(writePath_answer_flash hu).imp_right fun ⟨_, hlast⟩ => hlast,
      (writePath_answer_ee hu).imp_right fun ⟨_, _, hwrite⟩ => hwrite⟩

/-- `EV_RX` leaves the configuration, the input and the registers that no frame row writes, and drives `ack` alone. -/
theorem execEvRx_keeps {data : Byte} {s t : State} (h : exec (.evRx data) s = .next t) :
    t.cfg = s.cfg ∧ t.rpos = s.rpos ∧ t.phase = s.phase ∧ t.handedOff = s.handedOff ∧ t.inputs = s.inputs ∧
      t.out.txd = none ∧ t.out.busReset = false := by
  obtain ⟨-, ⟨r, rfl, -⟩ | ⟨-, a, u, hu, rfl⟩⟩ := execEvRx_next h
  · exact ⟨rfl, rfl, rfl, rfl, rfl, rfl, rfl⟩
  · obtain ⟨hcfg, -, hrpos, hphase, hhandedOff, hinputs⟩ := writePath_answer_keeps hu
    exact ⟨hcfg, hrpos, hphase, hhandedOff, hinputs, rfl, rfl⟩

/-- Where a row that stores has a next state, `EV_RX` of its byte has the same one. -/
theorem exec_storingByte_evRx {data : Byte} {i : Instr} {s t : State}
    (hi : i ∈ [.writeFlashByte data, .writeEeByte data, .evRx data]) (h : exec i s = .next t) :
    exec (.evRx data) s = .next t := by
  simp only [List.mem_cons, List.not_mem_nil, or_false] at hi
  rcases hi with rfl | rfl | rfl
  · rw [exec_writeFlashByte] at h
    refine frameRow_next_evRx h fun hs => ?_
    obtain ⟨h4, hc⟩ : 4 ≤ s.pos ∧ s.cmd = .flash := by simpa using hs
    simp [writePath_payload, h4, posPayload, hc]
  · rw [exec_writeEeByte] at h
    refine frameRow_next_evRx h fun hs => ?_
    obtain ⟨h4, hc⟩ : 4 ≤ s.pos ∧ s.cmd = .eeprom := by simpa using hs
    simp [writePath_payload, h4, posPayload, hc]
  · exact h

/-- `WRITE_FLASH_BYTE` writes the buffer, and at the last byte of a page program memory and `ADDR` (R133). -/
theorem writeFlashByteEffect_answer {data : Byte} {s u : State} {a : Ack} (h4 : 4 ≤ s.pos)
    (h : writeFlashByteEffect data s = .answer a u) :
    ∃ buf flash addr, u = { s with buf := buf, flash := flash, addr := addr } ∧
      (s.pos ≠ s.cfg.pageSize + 3 → addr = s.addr) := by
  unfold writeFlashByteEffect at h
  split_ifs at h
  · cases h
    exact ⟨_, _, _, rfl, fun hpos => by omega⟩
  · cases h
    exact ⟨_, s.flash, s.addr, rfl, fun _ => rfl⟩

/-- `WRITE_EE_BYTE` writes data memory and `ADDR` (R134). -/
theorem writeEeByteEffect_answer {data : Byte} {s u : State} {a : Ack} (h : writeEeByteEffect data s = .answer a u) :
    ∃ ee addr, u = { s with ee := ee, addr := addr } := by
  unfold writeEeByteEffect at h
  split at h <;> cases h
  exact ⟨_, _, rfl⟩

/-- `WRITE_FLASH_BYTE` leaves data memory, `CMD`, `CTR` and, before the last byte of a page, `ADDR`. -/
theorem exec_writeFlashByte_frame {data : Byte} {s t : State} (h : exec (.writeFlashByte data) s = .next t) :
    t.ee = s.ee ∧ (s.pos ≠ s.cfg.pageSize + 3 → t.addr = s.addr) ∧ t.cmd = s.cmd ∧ t.ctr = s.ctr := by
  rw [exec_writeFlashByte] at h
  obtain ⟨-, ⟨r, rfl⟩ | ⟨-, hs, a, u, hu, rfl⟩⟩ := frameRow_next h
  · exact ⟨rfl, fun _ => rfl, rfl, rfl⟩
  · obtain ⟨h4, -⟩ : 4 ≤ s.pos ∧ s.cmd = .flash := by simpa using hs
    obtain ⟨buf, flash, addr, rfl, haddr⟩ := writeFlashByteEffect_answer (s := { s with out := Outputs.quiet }) h4 hu
    exact ⟨rfl, haddr, rfl, rfl⟩

/-- `WRITE_EE_BYTE` leaves program memory, the buffer, `CMD` and `CTR`. -/
theorem exec_writeEeByte_frame {data : Byte} {s t : State} (h : exec (.writeEeByte data) s = .next t) :
    t.flash = s.flash ∧ t.buf = s.buf ∧ t.cmd = s.cmd ∧ t.ctr = s.ctr := by
  rw [exec_writeEeByte] at h
  obtain ⟨-, ⟨r, rfl⟩ | ⟨-, -, a, u, hu, rfl⟩⟩ := frameRow_next h
  · exact ⟨rfl, rfl, rfl, rfl⟩
  · obtain ⟨ee, addr, rfl⟩ := writeEeByteEffect_answer hu
    exact ⟨rfl, rfl, rfl, rfl⟩

/-- What each of the two rows leaves beyond what `EV_RX` leaves. -/
theorem exec_storingRow_frame {data : Byte} {i : Instr} {s t : State} (h : exec i s = .next t)
    (hi : i ∈ [.writeFlashByte data, .writeEeByte data, .evRx data]) :
    (i = .writeFlashByte data → t.ee = s.ee ∧ (s.pos ≠ s.cfg.pageSize + 3 → t.addr = s.addr)) ∧
      (i = .writeEeByte data → t.flash = s.flash ∧ t.buf = s.buf) ∧
      (i ≠ .evRx data → t.cmd = s.cmd ∧ t.ctr = s.ctr) := by
  simp only [List.mem_cons, List.not_mem_nil, or_false] at hi
  rcases hi with rfl | rfl | rfl
  · obtain ⟨hee, haddr, hcmd, hctr⟩ := exec_writeFlashByte_frame h
    exact ⟨fun _ => ⟨hee, haddr⟩, nofun, fun _ => ⟨hcmd, hctr⟩⟩
  · obtain ⟨hflash, hbuf, hcmd, hctr⟩ := exec_writeEeByte_frame h
    exact ⟨nofun, fun _ => ⟨hflash, hbuf⟩, fun _ => ⟨hcmd, hctr⟩⟩
  · exact ⟨nofun, nofun, fun hne => (hne rfl).elim⟩

/-- Settles O58: each row is an `EV_RX` step, whose commit stays in its page and whose data-memory write at its address. -/
theorem frameOfStoringBytes : Obligations.FrameOfStoringBytes := by
  intro data i s t hi h
  have hevent := exec_storingByte_evRx hi h
  obtain ⟨hflashRow, heeRow, hboth⟩ := exec_storingRow_frame h hi
  obtain ⟨hflash, hee⟩ := execEvRx_memories hevent
  have hpage := (exec_ready h).1.1
  refine ⟨fun a hout => ?_, fun hno a => ?_, fun a ha => ?_, fun hrow => ?_, fun hrow => ?_, hboth,
    execEvRx_keeps hevent⟩
  · rcases hflash with hsame | ⟨-, buf, hcommit⟩
    · rw [hsame]
    · rw [hcommit, read_flashAfterCommit_other hpage _ _ _ hout]
  · rcases hflash with hsame | ⟨hlast, buf, hcommit⟩
    · rw [hsame]
    · rw [hcommit, flashAfterCommit_discarded (hno.resolve_left (not_not.2 hlast))]
  · rcases hee with hsame | ⟨index, hindex, hwrite⟩
    · rw [hsame]
    · have hne : a ≠ index := fun heq => ha (heq ▸ hindex)
      rw [hwrite, Memory.read_write_other data hne]
  · obtain ⟨hsame, haddr⟩ := hflashRow hrow
    exact ⟨fun a => by rw [hsame], haddr⟩
  · obtain ⟨hsame, hbuf⟩ := heeRow hrow
    exact ⟨fun a => by rw [hsame], hbuf⟩

end Sys2Proof.Machine

/-! PROOFS. The bus events of the protocol state machine (41_protocol_fsm.md) in a ready state; then where an instruction or a
step stops (41_protocol_fsm.md R170, 43_boot_arbiter.md R242, 60_exceptions.md R256): every event word has a next state, so
only the hand-off can stop a ready block. -/

namespace Sys2Proof.Machine

/-! ### The bus events -/

/-- Ending an open transaction leaves no trace but the phase `IDLE`, whether one was open or not (R175, R176). -/
theorem endOpenTransaction_eq (s : State) : s.endOpenTransaction = { s with phase := .idle } := by
  unfold State.endOpenTransaction
  split_ifs with hopen
  · rfl
  · rw [← not_not.1 hopen]

theorem exec_evAddrW_ready {s : State} (h : s.Ready) :
    exec .evAddrW s = .next { s with phase := .rx, pos := 0, out := Outputs.quiet } := by
  show execEvAddrW s = _
  rw [execEvAddrW, agentStep_ready h, endOpenTransaction_eq]

theorem exec_evAddrR_ready {s : State} (h : s.Ready) :
    exec .evAddrR s = .next { s with phase := .tx, rpos := 0, out := Outputs.quiet } := by
  show execEvAddrR s = _
  rw [execEvAddrR, agentStep_ready h, endOpenTransaction_eq]

theorem exec_evStop_ready {s : State} (h : s.Ready) :
    exec .evStop s = .next { s with phase := .idle, out := Outputs.quiet } :=
  agentStep_ready h fun s => .next s.endTransaction

theorem exec_evBusError_ready {s : State} (h : s.Ready) :
    exec .evBusError s = .next { s with phase := .idle, out := { ack := none, txd := none, busReset := true } } :=
  agentStep_ready h fun s => .next { s with out := { Outputs.quiet with busReset := true }, phase := .idle }

/-- Settles O7: in a ready state either addressing event ends what is open, then writes its two registers. -/
theorem addressingOpensTransaction : Obligations.AddressingOpensTransaction :=
  fun _ h => ⟨exec_evAddrW_ready h, exec_evAddrR_ready h⟩

/-- Settles O8: in a ready state the step is the end of the transaction. -/
theorem stopEndsTransaction : Obligations.StopEndsTransaction := fun _ => exec_evStop_ready

/-- Settles O9: the stop changes `PHASE` and the outputs, and both addressing events overwrite these. -/
theorem repeatedAddressingIsStopFirst : Obligations.RepeatedAddressingIsStopFirst := by
  intro s t h
  obtain ⟨hs, rfl⟩ := execEvStop_next h
  have ht : State.Ready { s with phase := .idle, out := Outputs.quiet } := hs
  constructor
  · rw [exec_evAddrW_ready hs, exec_evAddrW_ready ht]
  · rw [exec_evAddrR_ready hs, exec_evAddrR_ready ht]

/-- Settles O10: in a ready state the step is the pulse with the phase `IDLE`. -/
theorem busErrorPulsesReset : Obligations.BusErrorPulsesReset := fun _ => exec_evBusError_ready

/-- Settles O12: in a ready state the phase is the first check of either event. -/
theorem outOfPhaseRecorded : Obligations.OutOfPhaseRecorded :=
  fun _ h => ⟨fun _ hp => onReceive_outOfPhase h hp _, fun hp => onRequest_outOfPhase h hp _⟩

/-! ### Every event word has a next state -/

/-- In a ready state `EV_RX` has a next state wherever its body has one: its two guards answer a model fault. -/
theorem onReceive_has_next {s : State} (h : s.Ready) {body : State → Host.Outcome State Fault Refusal}
    (hbody : ∃ t, body { s with out := Outputs.quiet } = .next t) : ∃ t, onReceive s body = .next t := by
  by_cases hp : s.phase = .rx
  · by_cases hc : s.cmd = .unreachable
    · exact ⟨_, onReceive_cmdUnreachable h hp hc _⟩
    · rwa [onReceive_receiving ⟨h, hp, hc⟩]
  · exact ⟨_, onReceive_outOfPhase h hp _⟩

/-- In a ready state `EV_TX_REQ` has a next state wherever its body has one. -/
theorem onRequest_has_next {s : State} (h : s.Ready) {body : State → Host.Outcome State Fault Refusal}
    (hbody : ∃ t, body { s with out := Outputs.quiet } = .next t) : ∃ t, onRequest s body = .next t := by
  by_cases hp : s.phase = .tx
  · by_cases hc : s.cmd = .unreachable
    · exact ⟨_, onRequest_cmdUnreachable h hp hc _⟩
    · rwa [onRequest_transmitting ⟨h, hp, hc⟩]
  · exact ⟨_, onRequest_outOfPhase h hp _⟩

theorem finishReceive_has_next (p : PathResult Ack) (s : State) : ∃ t, finishReceive p s = .next t := by
  cases p <;> exact ⟨_, rfl⟩

theorem finishRequest_has_next (p : PathResult Byte) (s : State) : ∃ t, finishRequest p s = .next t := by
  cases p <;> exact ⟨_, rfl⟩

/-- A tick has a next state whatever the countdown (43_boot_arbiter.md R231). -/
theorem exec_evTick_has_next {s : State} (h : s.Ready) : ∃ t, exec .evTick s = .next t := by
  show ∃ t, execEvTick s = .next t
  rw [execEvTick, agentStep_ready h]
  dsimp only
  split_ifs <;> exact ⟨_, rfl⟩

/-- In a ready state every event word has a next state. -/
theorem exec_event_has_next {s : State} (h : s.Ready) (w : EventWord) : ∃ t, exec (decodeEvent w) s = .next t := by
  unfold decodeEvent
  split
  · exact ⟨_, exec_evAddrW_ready h⟩
  · exact ⟨_, exec_evAddrR_ready h⟩
  · exact onReceive_has_next h (finishReceive_has_next _ _)
  · exact onRequest_has_next h (finishRequest_has_next _ _)
  · exact ⟨_, exec_evStop_ready h⟩
  · exact ⟨_, exec_evBusError_ready h⟩
  · exact exec_evTick_has_next h
  · exact ⟨_, reservedEvent_ready h⟩
  · exact ⟨_, reservedEvent_ready h⟩

/-! ### Where a step stops -/

theorem step_faulted {s : State} (hc : s.cfg.wf) (hf : s.faults ≠ []) : step s = .fault .stoppedByModelFault := by
  cases hi : s.inputs with
  | nil => rw [step_nil hi, waitForEvent, agentStep, if_neg (not_not.2 hc), if_pos hf]
  | cons x rest => rw [step_cons hi, exec_faulted (s := { s with inputs := rest }) hc hf]

theorem step_handedOff {s : State} (hc : s.cfg.wf) (hf : s.faults = []) (hh : s.handedOff = true) :
    step s = .fault .stoppedByHandOff := by
  cases hi : s.inputs with
  | nil => rw [step_nil hi, waitForEvent, agentStep, if_neg (not_not.2 hc), if_neg (not_not.2 hf), if_pos hh]
  | cons x rest => rw [step_cons hi, exec_handedOff (s := { s with inputs := rest }) hc hf hh]

/-- Settles O36: every instruction and the wait are an agent's step, whose guard stops before its body. -/
theorem noStepAfterTheEnd : Obligations.NoStepAfterTheEnd := fun _ hc =>
  ⟨fun hf => ⟨exec_faulted hc hf, step_faulted hc hf⟩,
    fun hf hh => ⟨exec_handedOff hc hf hh, step_handedOff hc hf hh⟩⟩

/-- A ready block stops at a hand-off that is not enabled and nowhere else (43_boot_arbiter.md R240). -/
theorem step_stops_iff_of_ready {s : State} (h : s.Ready) :
    (∃ f, step s = .fault f) ↔ (∃ rest, s.inputs = .handOff :: rest) ∧ s.cmd ≠ .bootApplication := by
  cases hi : s.inputs with
  | nil => simp [step_waits h hi]
  | cons x rest =>
    have hrest : State.Ready { s with inputs := rest } := h
    rw [step_cons hi]
    cases x with
    | event w =>
      obtain ⟨t, ht⟩ := exec_event_has_next hrest w
      simp [decodeInput, ht]
    | handOff =>
      obtain ⟨henabled, hdisabled⟩ := handOffNeedsBootNow _ hrest
      rw [show decodeInput .handOff = .handOff from rfl]
      by_cases hc : s.cmd = .bootApplication
      · rw [henabled hc]
        simp [hc]
      · rw [hdisabled hc]
        simp [hc]

/-- Settles O37: past the two ends of a run the block is ready, and stops at a hand-off that is not enabled. -/
theorem stepStopsExactlyThen : Obligations.StepStopsExactlyThen := by
  intro s hc
  by_cases hf : s.faults = []
  · by_cases hh : s.handedOff = true
    · exact iff_of_true ⟨_, step_handedOff hc hf hh⟩ (.inr (.inl hh))
    · rw [step_stops_iff_of_ready ⟨hc, hf, Bool.eq_false_of_not_eq_true hh⟩]
      simp [hf, hh]
  · exact iff_of_true ⟨_, step_faulted hc hf⟩ (.inl hf)

end Sys2Proof.Machine

/-! PROOFS. Endless runs without received bytes (43_boot_arbiter.md R241): nothing withdraws the countdown or the boot request,
so the fair ticks force the boot, and the fair platform takes it. -/

namespace Sys2Proof.Machine

/-! ### What no event but a received byte undoes -/

/-- From `s` to `t` the parameters stand, the countdown has not risen and is live if it was, and a boot request stands. -/
structure State.SilentTo (s t : State) : Prop where
  cfg : t.cfg = s.cfg
  ctrLe : t.ctr ≤ s.ctr
  ctrLive : 1 ≤ s.ctr → 1 ≤ t.ctr
  bootNow : s.bootNow = true → t.bootNow = true

theorem State.SilentTo.refl (s : State) : s.SilentTo s := ⟨rfl, le_rfl, id, id⟩

theorem State.SilentTo.trans {s t u : State} (h : s.SilentTo t) (h' : t.SilentTo u) : s.SilentTo u where
  cfg := h'.cfg.trans h.cfg
  ctrLe := h'.ctrLe.trans h.ctrLe
  ctrLive := h'.ctrLive ∘ h.ctrLive
  bootNow := h'.bootNow ∘ h.bootNow

/-- A step that writes neither the parameters nor `CTR` nor `CMD`. -/
theorem State.SilentTo.of_eq {s t : State} (hcfg : t.cfg = s.cfg) (hctr : t.ctr = s.ctr) (hcmd : t.cmd = s.cmd) :
    s.SilentTo t :=
  ⟨hcfg, hctr.le, hctr.symm ▸ id, fun h => by rwa [State.bootNow, hcmd]⟩

/-- Of the items that are no received byte only a tick writes `CTR` or `CMD`: it counts down to 1, then requests the boot. -/
theorem exec_input_silentTo {s t : State} {x : Input} (h : exec (decodeInput x) s = .next t)
    (hx : ∀ data, decodeInput x ≠ .evRx data) : s.SilentTo t := by
  rcases exec_input_next h with ⟨-, rfl⟩ | ⟨-, rfl⟩ | ⟨-, rfl⟩ | ⟨-, rfl⟩ | ⟨-, ⟨hc, rfl⟩ | ⟨-, rfl⟩ | ⟨-, rfl⟩⟩ |
    ⟨-, -, rfl⟩ | ⟨_, rfl, -⟩ | ⟨-, -, v, u, hu, rfl⟩ | ⟨-, data, hrx, -⟩
  iterate 4 exact .of_eq rfl rfl rfl
  · exact ⟨rfl, Nat.sub_le _ _, fun _ => Nat.le_sub_one_of_lt hc, id⟩
  · exact ⟨rfl, le_rfl, id, fun _ => rfl⟩
  iterate 3 exact .of_eq rfl rfl rfl
  · rcases readPath_answer hu with rfl | ⟨-, rfl⟩ <;> exact .of_eq rfl rfl rfl
  · exact absurd hrx (hx data)

/-! ### Silent runs -/

section
variable {states : Nat → State} {items : Nat → Input} (hrun : IsRun states items)
include hrun

/-- Along a run without received bytes, from each moment to every later one. -/
theorem IsRun.silentTo (hsilent : ∀ n data, decodeInput (items n) ≠ .evRx data) {n m : Nat} (hnm : n ≤ m) :
    (states n).SilentTo (states m) := by
  induction m, hnm using Nat.le_induction with
  | base => exact .refl _
  | succ m _ ih =>
    refine ih.trans ?_
    rcases hrun m with hstep | ⟨-, hstands⟩
    · exact exec_input_silentTo hstep (hsilent m)
    · rw [hstands]
      exact .refl _

/-- A tick offered in a ready state of a run is a step of it. -/
theorem IsRun.tick {n : Nat} (hready : (states n).Ready) (htick : decodeInput (items n) = .evTick) :
    exec .evTick (states n) = .next (states (n + 1)) := by
  rcases hrun n with hstep | ⟨hnone, -⟩
  · rwa [htick] at hstep
  · obtain ⟨t, ht⟩ := exec_evTick_has_next hready
    rw [htick, ht] at hnone
    cases hnone

/-- While the block stays ready and ticks keep coming, a live countdown ends in a boot request: by induction on a bound of
`CTR`, which the next tick lowers or finds at 1. -/
theorem IsRun.exists_bootNow (hsilent : ∀ n data, decodeInput (items n) ≠ .evRx data)
    (hready : ∀ n, (states n).Ready) (hticks : ∀ n, ∃ m, n ≤ m ∧ decodeInput (items m) = .evTick) (bound n : Nat)
    (hlive : 1 ≤ (states n).ctr) (hbound : (states n).ctr ≤ bound) : ∃ m, (states m).bootNow = true := by
  induction bound generalizing n with
  | zero => omega
  | succ bound ih =>
    obtain ⟨m, hnm, htick⟩ := hticks n
    have hsofar := hrun.silentTo hsilent hnm
    have hlive' := hsofar.ctrLive hlive
    have hle := hsofar.ctrLe
    obtain ⟨-, ⟨hc, ht⟩ | ⟨-, ht⟩ | ⟨hc, -⟩⟩ := execEvTick_next (hrun.tick (hready m) htick)
    · have hctr : (states (m + 1)).ctr = (states m).ctr - 1 := by rw [ht]
      exact ih (m + 1) (by omega) (by omega)
    · exact ⟨m + 1, by rw [ht]; rfl⟩
    · omega

end

/-- Settles O49: were there no hand-off, the block would stay ready, so the fair ticks would force the boot; the request
stands, and the fair platform hands off. -/
theorem silenceHandsOff : Obligations.SilenceHandsOff := by
  intro states items hrun htickFair hhandOffFair hready0 hlive hfaults hsilent
  by_contra hno
  have hserving (n : Nat) : (states n).handedOff = false := Bool.eq_false_of_not_eq_true fun hh => hno ⟨n, hh⟩
  have hready (n : Nat) : (states n).Ready :=
    ⟨(hrun.silentTo hsilent n.zero_le).cfg ▸ hready0.1, hfaults n, hserving n⟩
  have hticks (n : Nat) := htickFair n fun m _ => ⟨hserving m, hfaults m⟩
  obtain ⟨b, hboot⟩ := hrun.exists_bootNow hsilent hready hticks _ 0 hlive le_rfl
  obtain ⟨m, -, hh⟩ := hhandOffFair b fun m hbm => ⟨(hrun.silentTo hsilent hbm).bootNow hboot, hfaults m⟩
  exact hno ⟨m, hh⟩

end Sys2Proof.Machine

/-! PROOFS. The memory backend (42_memory_backend.md): the bootloader region, what the page commit leaves in program memory
and in `ADDR`, the two rows that store; then the page-write script and the page read back. -/

namespace Sys2Proof.Machine

/-! ### The bootloader region -/

/-- `BOOT_START` is a multiple of `PAGE_SIZE`, so a page that starts below it lies below it (00_scope.md R7). -/
theorem lt_bootStart_of_same_page {c : Config} (h : c.wf) {a b : Nat} (hb : b < c.bootStart)
    (hpage : a / c.pageSize = b / c.pageSize) : a < c.bootStart := by
  have hpos : 0 < c.pageSize := by have := pageSize_bounds h.1; omega
  obtain ⟨-, ⟨-, -, -, haligned, -⟩, -⟩ := h
  obtain ⟨k, hk⟩ := Nat.dvd_of_mod_eq_zero haligned
  rw [hk, Nat.mul_comm] at hb ⊢
  rw [← Nat.div_lt_iff_lt_mul hpos] at hb ⊢
  rwa [hpage]

/-- Settles O43: the only writer of program memory is the commit, whose page lies wholly below the boundary. -/
theorem bootloaderRegionNeverWritten : Obligations.BootloaderRegionNeverWritten := by
  intro s t a ht ha
  by_contra hne
  obtain ⟨-, -, -, -, hbelow, hpage⟩ := flashChangesOnlyByCommit s t a ht hne
  exact absurd (lt_bootStart_of_same_page (step_ready ht).1 hbelow hpage) (Nat.not_lt_of_le ha)

/-! ### The page commit -/

/-- A commit below the boundary puts byte `k` of the buffer at its slot of the page (R203, R204). -/
theorem read_flashAfterCommit_slot {c : Config} (h : c.wf) {start : Addr} (hstart : start.toNat < c.bootStart)
    (buf : List Byte) {m : Memory} (hm : Memory.wf m) {k : Nat} (hk : k < c.pageSize) :
    Memory.read (flashAfterCommit c start buf m) (start.toNat - start.toNat % c.pageSize + slot c start k) =
      buf.getD k 0 := by
  rw [flashAfterCommit, if_pos ((commitAllowed_iff h start).2 hstart), ← pageBase_toNat h.1]
  exact read_placeBytes_same c start buf _ hm (fun i hi j hj => slot_injective c start hi hj) k hk

/-- The page of a start Address below `BOOT_START` lies wholly below it (R203). -/
theorem page_below_bootStart {c : Config} (h : c.wf) {start : Addr} (hstart : start.toNat < c.bootStart) :
    start.toNat - start.toNat % c.pageSize + c.pageSize ≤ c.bootStart := by
  obtain ⟨hpage, ⟨-, -, -, haligned, -⟩, -⟩ := h
  rw [← pageBase_toNat hpage]
  exact page_below hpage start haligned (by rw [pageBase_toNat hpage]; omega)

/-- A commit at or above the boundary leaves program memory (R202). -/
theorem flashAfterCommit_above {c : Config} (h : c.wf) {start : Addr} (hstart : c.bootStart ≤ start.toNat)
    (buf : List Byte) (m : Memory) : flashAfterCommit c start buf m = m :=
  flashAfterCommit_discarded (Bool.eq_false_of_not_eq_true fun hallowed =>
    Nat.not_lt_of_le hstart ((commitAllowed_iff h start).1 hallowed)) buf m

/-- `ADDR` advanced by a page, by arithmetic (10_state.md R34). -/
theorem nextPage_toNat {c : Config} (h : c.pageOk) (a : Addr) : (nextPage c a).toNat = (a.toNat + c.pageSize) % 65536 := by
  have hsize := pageSize_bounds h
  rw [nextPage, BitVec.toNat_add, BitVec.toNat_ofNat]
  omega

/-- `ADDR` after a page write, by arithmetic (R205). -/
theorem addrAfterPage_toNat {c : Config} (h : c.wf) (a : Addr) :
    (addrAfterPage c a).toNat = match c.flashWriteAddr with
      | .hold => a.toNat
      | .pageOnCommit => (a.toNat + c.pageSize) % 65536
      | .pageOnWrite => if a.toNat < c.bootStart then (a.toNat + c.pageSize) % 65536 else a.toNat := by
  simp only [addrAfterPage, commitAllowed_iff h]
  cases c.flashWriteAddr with
  | hold => rfl
  | pageOnCommit => exact nextPage_toNat h.1 a
  | pageOnWrite => simp only [apply_ite BitVec.toNat, nextPage_toNat h.1]

/-- The state after a page write whose payload filled the buffer with `buf` (40_command_decoder.md R133). -/
def State.afterPage (s : State) (buf : List Byte) : State :=
  { s with
    buf := buf
    flash := flashAfterCommit s.cfg s.addr buf s.flash
    addr := addrAfterPage s.cfg s.addr
    pos := 0
    out := ackOut .nack }

/-- The last byte of a page joins the buffer, which is committed, and is rejected (40_command_decoder.md R133). -/
theorem exec_writeFlashByte_last {s : State} (h : s.Receiving) (hc : s.cmd = .flash)
    (hp : s.pos = s.cfg.pageSize + 3) (data : Byte) :
    exec (.writeFlashByte data) s = .next (s.afterPage (s.buf.set (s.cfg.pageSize - 1) data)) := by
  have hsize := pageSize_bounds h.1.1.1
  have h4 : 4 ≤ s.pos := by omega
  have hlast : s.pos - 4 = s.cfg.pageSize - 1 := by omega
  rw [exec_writeFlashByte, frameRow_selected _ h (by simp [hc, h4]), writeFlashByteEffect,
    if_neg (show ¬ s.cfg.pageSize ≤ s.pos - 4 by omega), if_pos hlast, ← hlast]
  rfl

/-- Settles O25: the page's slots hold the buffer, and a byte elsewhere or above the boundary stands. -/
theorem lastFlashByteCommits : Obligations.LastFlashByteCommits := by
  intro s data h hc hp hlength hwf
  have hlegal : s.cfg.wf := h.1.1
  have hsize := pageSize_bounds hlegal.1
  refine ⟨_, exec_writeFlashByte_last h hc hp data, rfl, ?_, fun hbelow i hi => ?_, fun a ha => ?_,
    addrAfterPage_toNat hlegal s.addr, rfl⟩
  · exact List.getElem?_set_self (by omega)
  · have hread := read_flashAfterCommit_slot hlegal hbelow (s.buf.set (s.cfg.pageSize - 1) data) hwf hi
    have hin : i < (s.buf.set (s.cfg.pageSize - 1) data).length := by rw [List.length_set, hlength]; exact hi
    rw [List.getD_eq_getElem _ _ hin] at hread
    exact (congrArg some hread).trans (List.getElem?_eq_getElem hin).symm
  · rcases ha with habove | hout
    · exact congrArg (Memory.read · a) (flashAfterCommit_above hlegal habove _ _)
    · rw [← pageBase_toNat hlegal.1] at hout
      exact read_flashAfterCommit_other hlegal.1 _ _ _ hout

/-! ### A data-memory byte -/

/-- `WRITE_EE_BYTE` at a checked address: the byte is written, `ADDR` advances, the byte is accepted
(40_command_decoder.md R134). -/
theorem exec_writeEeByte_answer {s : State} (h : s.Receiving) (hc : s.cmd = .eeprom) (h4 : 4 ≤ s.pos) {index : Nat}
    (hindex : eeAddr s.cfg s.addr = .ok index) (data : Byte) :
    exec (.writeEeByte data) s = .next { s with
      ee := Memory.write s.ee index data, addr := s.addr + 1, pos := advancePos s.cfg s.pos, out := ackOut .ack } := by
  rw [exec_writeEeByte, frameRow_selected _ h (by simp [hc, h4])]
  simp only [writeEeByteEffect, hindex]
  rfl

/-- Settles O26: in both clauses the index is the checked address. -/
theorem eeByteWritten : Obligations.EeByteWritten := by
  intro s data index h hc h4 hwf hin
  have hindex : eeAddr s.cfg s.addr = .ok index := by
    rcases hin with ⟨hlt, rfl⟩ | ⟨hout, hwrap, rfl⟩
    · exact eeAddr_inside hlt
    · exact eeAddr_wrap hout hwrap
  exact ⟨_, exec_writeEeByte_answer h hc h4 hindex data, Memory.read_write_same index data hwf,
    fun a ha => Memory.read_write_other data ha, BitVec.toNat_add _ _, rfl, rfl⟩

/-! ### The header of a program-memory frame -/

/-- A received byte is taken where `EV_RX`, which does not read the input, has a next state. -/
theorem takes_evRx {s t : State} {data : Byte}
    (h : ∀ inputs, exec (.evRx data) { s with inputs := inputs } = .next { t with inputs := inputs }) :
    s.Takes [rxInput data] t [t.out] :=
  .one fun rest => by
    rw [step_cons rfl, rxInput, decodeInput, decodeEvent_rx]
    exact h rest

/-- The program-memory kind (40_command_decoder.md R128). -/
theorem takes_kindFlash {s : State} (h : s.Receiving) (hp : s.pos = 1) (hc : s.cmd = .memory) :
    s.Takes [rxInput 0x01] { s with cmd := .flash, pos := 2, out := ackOut .ack } [ackOut .ack] :=
  takes_evRx (t := { s with cmd := .flash, pos := 2, out := ackOut .ack }) fun inputs =>
    (exec_evRx_kind (s := { s with inputs := inputs }) hp hc).trans (memoryKind { s with inputs := inputs } h hp hc).2.1

/-- An address byte under a Command that takes an address (40_command_decoder.md R132). -/
theorem takes_addressByte {s : State} (h : s.Receiving) (hp : s.pos = 2 ∨ s.pos = 3)
    (hc : s.cmd = .chipinfo ∨ s.cmd = .flash ∨ s.cmd = .eeprom) (data : Byte) :
    s.Takes [rxInput data] { s with addr := shiftIn s.addr data, pos := s.pos + 1, out := ackOut .ack }
      [ackOut .ack] :=
  takes_evRx (t := { s with addr := shiftIn s.addr data, pos := s.pos + 1, out := ackOut .ack }) fun inputs =>
    exec_evRx_addrByte (s := { s with inputs := inputs }) h hp hc data

/-- The two address bytes under a Command that takes an address, whatever `ADDR` held before (30_encoding.md R99). -/
theorem takes_addressBytes {s : State} (h : s.Receiving) (hp : s.pos = 2)
    (hc : s.cmd = .chipinfo ∨ s.cmd = .flash ∨ s.cmd = .eeprom) (hi lo : Byte) :
    s.Takes [rxInput hi, rxInput lo] { s with addr := hi ++ lo, pos := 4, out := ackOut .ack }
      [ackOut .ack, ackOut .ack] := by
  have hhigh := takes_addressByte h (.inl hp) hc hi
  have hlow := takes_addressByte (s := { s with addr := shiftIn s.addr hi, pos := s.pos + 1, out := ackOut .ack }) h
    (.inr (congrArg Nat.succ hp)) hc lo
  have hboth := hhigh.append hlow
  rwa [shiftIn_twice, hp] at hboth

/-- The header of a program-memory frame: opcode, memory kind and the two address bytes (30_encoding.md R107). -/
def flashHeader (hi lo : Byte) : List Input :=
  [addrWInput, rxInput 0x02, rxInput 0x01, rxInput hi, rxInput lo]

/-- The state after the header of a program-memory frame: the Address is the two bytes, and payload is next
(30_encoding.md R99). -/
def State.afterFlashHeader (s : State) (hi lo : Byte) : State :=
  { s with cmd := .flash, addr := hi ++ lo, pos := 4, ctr := 0, phase := .rx, out := ackOut .ack }

theorem State.Ready.afterFlashHeader_receiving {s : State} (h : s.Ready) (hi lo : Byte) :
    (s.afterFlashHeader hi lo).Receiving :=
  ⟨h, rfl, nofun⟩

/-- The header of a program-memory frame is accepted byte by byte. -/
theorem takes_flashHeader {s : State} (h : s.Ready) (hc : s.cmd ≠ .unreachable) (hi lo : Byte) :
    s.Takes (flashHeader hi lo) (s.afterFlashHeader hi lo) (Outputs.quiet :: List.replicate 4 (ackOut .ack)) := by
  have hopcode := takes_opening h hc (data := 0x02) (c := .memory) fun _ => rfl
  have hkind := hopcode.append (takes_kindFlash ⟨h, rfl, nofun⟩ rfl rfl)
  exact hkind.append (takes_addressBytes (s := { s with
    cmd := .flash, pos := 2, ctr := 0, phase := .rx, out := ackOut .ack }) ⟨h, rfl, nofun⟩ rfl (.inr (.inl rfl)) hi lo)

/-! ### The payload of a page write -/

/-- The Page Buffer after bytes received from index `i` on. -/
def bufferBytes : List Byte → Nat → List Byte → List Byte
  | buf, _, [] => buf
  | buf, i, v :: vs => bufferBytes (buf.set i v) (i + 1) vs

/-- Bytes that reach the buffer's end replace everything from their index on. -/
theorem bufferBytes_to_end {buf : List Byte} {i : Nat} {vs : List Byte} (h : i + vs.length = buf.length) :
    bufferBytes buf i vs = buf.take i ++ vs := by
  induction vs generalizing buf i with
  | nil => rw [bufferBytes, List.append_nil, List.take_of_length_le (show buf.length ≤ i from h.ge)]
  | cons v vs ih =>
    rw [List.length_cons] at h
    have hi : i < buf.length := by omega
    rw [bufferBytes, ih (by rw [List.length_set]; omega), List.take_add_one, List.getElem?_set_self hi,
      List.take_set_of_le (Nat.le_refl i), List.append_assoc]
    rfl

/-- A payload byte under `FLASH` is `WRITE_FLASH_BYTE` (40_command_decoder.md R120). -/
theorem exec_evRx_flashPayload {s : State} (hc : s.cmd = .flash) (h4 : 4 ≤ s.pos) (data : Byte) :
    exec (.evRx data) s = exec (.writeFlashByte data) s := by
  rw [exec_evRx_payload h4, hc]
  rfl

/-- A payload byte before the last byte of a page joins the buffer (40_command_decoder.md R133). -/
theorem takes_bufferedByte {s : State} (h : s.Receiving) (hc : s.cmd = .flash) {i : Nat} (hp : s.pos = i + 4)
    (hi : i + 1 < s.cfg.pageSize) (data : Byte) :
    s.Takes [rxInput data] { s with buf := s.buf.set i data, pos := s.pos + 1, out := ackOut .ack } [ackOut .ack] := by
  have h4 : 4 ≤ s.pos := by omega
  obtain rfl : s.pos - 4 = i := by omega
  exact takes_evRx (t := { s with buf := s.buf.set (s.pos - 4) data, pos := s.pos + 1, out := ackOut .ack })
    fun inputs => (exec_evRx_flashPayload (s := { s with inputs := inputs }) hc h4 data).trans
      ((flashByteBuffered { s with inputs := inputs } data h hc h4).1 (show s.pos < s.cfg.pageSize + 3 by omega))

/-- The last payload byte of a page commits the page and is rejected (40_command_decoder.md R133). -/
theorem takes_lastByte {s : State} (h : s.Receiving) (hc : s.cmd = .flash) {i : Nat} (hp : s.pos = i + 4)
    (hi : i + 1 = s.cfg.pageSize) (data : Byte) :
    s.Takes [rxInput data] (s.afterPage (s.buf.set i data)) [ackOut .nack] := by
  obtain rfl : s.cfg.pageSize - 1 = i := by omega
  exact takes_evRx (t := s.afterPage (s.buf.set (s.cfg.pageSize - 1) data)) fun inputs =>
    (exec_evRx_flashPayload (s := { s with inputs := inputs }) hc (show 4 ≤ s.pos by omega) data).trans
      (exec_writeFlashByte_last (s := { s with inputs := inputs }) h hc (show s.pos = s.cfg.pageSize + 3 by omega) data)

/-- The payload of a page: every byte but the last is accepted, and the last commits the filled buffer. -/
theorem takes_pageBytes {s : State} (h : s.Receiving) (hc : s.cmd = .flash) {i : Nat} (hp : s.pos = i + 4)
    {bytes : List Byte} (last : Byte) (hi : i + bytes.length + 1 = s.cfg.pageSize) :
    s.Takes ((bytes ++ [last]).map rxInput) (s.afterPage (bufferBytes s.buf i (bytes ++ [last])))
      (List.replicate bytes.length (ackOut .ack) ++ [ackOut .nack]) := by
  induction bytes generalizing s i with
  | nil => exact takes_lastByte h hc hp hi last
  | cons v vs ih =>
    rw [List.length_cons] at hi
    have hfirst := takes_bufferedByte h hc hp (by omega) v
    have hrest := ih (s := { s with buf := s.buf.set i v, pos := s.pos + 1, out := ackOut .ack }) h hc (i := i + 1)
      (show s.pos + 1 = i + 1 + 4 by omega) (show i + 1 + vs.length + 1 = s.cfg.pageSize by omega)
    exact hfirst.append hrest

/-! ### The page-write script -/

/-- A page-write script completes: every byte but the last is accepted, and the buffer is committed at the Address. -/
theorem runScript_writePage {s : State} {page : List Byte} (h : s.Ready) (hc : s.cmd ≠ .unreachable)
    (hpage : page.length = s.cfg.pageSize) (hi lo : Byte) :
    ∃ t outs, runScript (writePageScript hi lo page) s = some (t, outs) ∧
      acks outs = List.replicate (s.cfg.pageSize + 3) .ack ++ [.nack] ∧ t.Ready ∧ t.cmd = .flash ∧ t.cfg = s.cfg ∧
      t.flash = flashAfterCommit s.cfg (hi ++ lo) (bufferBytes s.buf 0 page) s.flash := by
  have hsize := pageSize_bounds h.1.1
  obtain rfl | ⟨bytes, last, rfl⟩ := List.eq_nil_or_concat' page
  · rw [List.length_nil] at hpage
    omega
  rw [List.length_append, List.length_singleton] at hpage
  have hbytes := takes_pageBytes (h.afterFlashHeader_receiving hi lo) rfl (i := 0) rfl last
    (by rw [Nat.zero_add]; exact hpage)
  have hstop := takes_stop (s := (s.afterFlashHeader hi lo).afterPage (bufferBytes s.buf 0 (bytes ++ [last]))) h
  have hall := (takes_flashHeader h hc hi lo).append (hbytes.append hstop)
  refine ⟨_, _, State.Takes.runScript (script := writePageScript hi lo (bytes ++ [last])) hall, ?_, h, rfl, rfl, rfl⟩
  rw [acks_append, acks_append, acks_append, acks_replicate_ackOut, ← hpage,
    show bytes.length + 1 + 3 = 4 + bytes.length by omega, List.replicate_add, List.append_assoc]
  rfl

/-- Settles O53: the script's decisions are those of every page write, and its commit is discarded. -/
theorem pageDiscarded : Obligations.PageDiscarded := by
  intro s hi lo page h hc hpage habove
  rw [← address_toNat] at habove
  obtain ⟨t, writes, hrun, hacks, -, -, -, hflash⟩ := runScript_writePage h hc hpage hi lo
  exact ⟨t, writes, hrun, hacks, fun a => by rw [hflash, flashAfterCommit_above h.1 habove]⟩

/-! ### The page read back -/

/-- Under `FLASH` the read path answers the byte at an Address inside program memory (40_command_decoder.md R143). -/
theorem readPath_flash {s : State} (hc : s.cmd = .flash) (ha : s.addr.toNat < s.cfg.flashSize) :
    readPath s = .answer (Memory.read s.flash s.addr.toNat) s.advanceAddr := by
  simp only [readPath, hc, readFlashEffect, flashAddr_inside ha]

/-- A byte requested under `FLASH` inside program memory is the byte at `ADDR` (40_command_decoder.md R143). -/
theorem takes_readFlash {s : State} (h : s.Transmitting) (hc : s.cmd = .flash) (ha : s.addr.toNat < s.cfg.flashSize) :
    s.Takes [txReqInput]
      { s with addr := s.addr + 1, rpos := s.rpos + 1, out := txdOut (Memory.read s.flash s.addr.toNat) }
      [txdOut (Memory.read s.flash s.addr.toNat)] :=
  takes_txReq (u := s.advanceAddr) h fun out inputs =>
    readPath_flash (s := { s with out := out, inputs := inputs }) hc ha

/-- `n` bytes requested under `FLASH` inside program memory, below the end of the address space, are its bytes from `ADDR`
on. -/
theorem takes_readFlashBytes {s : State} (h : s.Transmitting) (hc : s.cmd = .flash) {n : Nat}
    (ha : s.addr.toNat + n ≤ s.cfg.flashSize) (hend : s.addr.toNat + n < 65536) :
    ∃ t, t.Ready ∧ s.Takes (List.replicate n txReqInput) t
      (txdOuts n fun k => Memory.read s.flash (s.addr.toNat + k)) := by
  induction n generalizing s with
  | zero => exact ⟨s, h.1, .nil s⟩
  | succ n ih =>
    have hfirst := takes_readFlash h hc (by omega)
    have hnext : (s.addr + 1).toNat = s.addr.toNat + 1 := BitVec.toNat_add_of_lt (show s.addr.toNat + 1 < 65536 by omega)
    obtain ⟨t, hready, htakes⟩ := ih (s := { s with
        addr := s.addr + 1, rpos := s.rpos + 1, out := txdOut (Memory.read s.flash s.addr.toNat) }) h hc
        (show (s.addr + 1).toNat + n ≤ s.cfg.flashSize by omega) (show (s.addr + 1).toNat + n < 65536 by omega)
    refine ⟨t, hready, ?_⟩
    simp only [hnext, Nat.add_assoc, Nat.add_comm 1] at htakes
    rw [txdOuts_succ]
    exact hfirst.append htakes

/-- A program-memory read script inside program memory completes: the bytes from the Address on are transmitted. -/
theorem runScript_readFlash {s : State} {hi lo : Byte} {n : Nat} (h : s.Ready) (hc : s.cmd ≠ .unreachable)
    (ha : (hi ++ lo : Addr).toNat + n ≤ s.cfg.flashSize) (hend : (hi ++ lo : Addr).toNat + n < 65536) :
    ∃ t outs, runScript (readFlashScript hi lo n) s = some (t, outs) ∧
      txds outs = (List.range n).map (fun k => Memory.read s.flash ((hi ++ lo : Addr).toNat + k)) := by
  obtain ⟨t, ht, hbytes⟩ := takes_readFlashBytes (s := { s.afterFlashHeader hi lo with
    phase := .tx, rpos := 0, out := Outputs.quiet }) ⟨h, rfl, nofun⟩ rfl ha hend
  have hall := (takes_flashHeader h hc hi lo).append (takes_reading h ht hbytes)
  refine ⟨_, _, State.Takes.runScript (script := readFlashScript hi lo n) hall, ?_⟩
  rw [txds_append, txds_readingOuts]
  rfl

/-- From an aligned start, or under `LINEAR`, byte `i` of a page lands at index `i` of the page (R204). -/
theorem slot_eq_self {c : Config} {start : Addr} (h : start.toNat % c.pageSize = 0 ∨ c.fillMap = .linear) {i : Nat}
    (hi : i < c.pageSize) : slot c start i = i := by
  unfold slot
  split
  · rfl
  · next hrotated =>
    have haligned := h.resolve_right (by rw [hrotated]; nofun)
    rw [Nat.add_mod, haligned, Nat.zero_add, Nat.mod_mod, Nat.mod_eq_of_lt hi]

/-- A page committed without rotation reads as the buffer, in order, from the page base on. -/
theorem read_committedPage {c : Config} (h : c.wf) {start : Addr} (hstart : start.toNat < c.bootStart)
    (hslot : start.toNat % c.pageSize = 0 ∨ c.fillMap = .linear) {m : Memory} (hm : Memory.wf m) {page : List Byte}
    (hpage : page.length = c.pageSize) :
    (List.range c.pageSize).map (fun k =>
      Memory.read (flashAfterCommit c start page m) (start.toNat - start.toNat % c.pageSize + k)) = page := by
  refine List.ext_getElem (by simp [hpage]) fun k _ hk => ?_
  have hin : k < c.pageSize := hpage ▸ hk
  have hread := read_flashAfterCommit_slot h hstart page hm hin
  rw [slot_eq_self hslot hin, List.getD_eq_getElem _ _ hk] at hread
  simpa using hread

/-- Settles O52: the write script commits the page at its base, and the read script reads it from there. -/
theorem pageRoundTrip : Obligations.PageRoundTrip := by
  intro s hi lo baseHi baseLo page h hc hwf hlength hpage hbelow hbase hslot
  have hlegal : s.cfg.wf := h.1
  obtain ⟨-, ⟨-, -, -, -, hboot, hspace⟩, -⟩ := id hlegal
  rw [← address_toNat] at hbelow hslot
  rw [← address_toNat, ← address_toNat] at hbase
  have hinside : (baseHi ++ baseLo : Addr).toNat + s.cfg.pageSize ≤ s.cfg.bootStart :=
    hbase ▸ page_below_bootStart hlegal hbelow
  obtain ⟨t, writes, hwrite, hacks, ht, htcmd, htcfg, htflash⟩ := runScript_writePage h hc hpage hi lo
  obtain ⟨u, reads, hread, htxds⟩ := runScript_readFlash (hi := baseHi) (lo := baseLo) (n := s.cfg.pageSize) ht
    (by rw [htcmd]; nofun) (by rw [htcfg]; omega) (by omega)
  refine ⟨t, writes, u, reads, hwrite, hacks, hread, ?_⟩
  rw [htxds, htflash, bufferBytes_to_end (by omega), List.take_zero, List.nil_append, hbase]
  exact read_committedPage hlegal hbelow hslot hwf hpage

end Sys2Proof.Machine

/-! PROOFS. The boot arbiter (43_boot_arbiter.md): the tick, the countdown under ticks alone, and the three producers of
`boot_now`. -/

namespace Sys2Proof.Machine

/-! ### The tick -/

/-- In a ready state a tick is one of its three cases (R231). -/
theorem exec_evTick_ready {s : State} (h : s.Ready) :
    exec .evTick s =
      if 1 < s.ctr then .next { s with ctr := s.ctr - 1, out := Outputs.quiet }
      else if s.ctr = 1 then .next { s with cmd := .bootApplication, out := Outputs.quiet }
      else .next { s with out := Outputs.quiet } := by
  show execEvTick s = _
  rw [execEvTick, agentStep_ready h]

/-- Settles O34: the three cases of a tick in a ready state. -/
theorem tickCountsDown : Obligations.TickCountsDown := by
  intro s h
  rw [exec_evTick_ready h]
  refine ⟨fun habove => if_pos habove, fun hone => ?_, fun hzero => ?_⟩
  · rw [if_neg (by omega), if_pos hone]
  · rw [if_neg (by omega), if_neg (by omega)]

/-! ### The countdown under ticks alone -/

/-- What `n` ticks make of a live countdown, the outputs aside: `CTR` goes down to 1 and stays there, and from the `CTR`-th
tick on the boot is requested (R234). -/
def State.countDown (s : State) (n : Nat) : State :=
  { s with ctr := max 1 (s.ctr - n), cmd := if s.ctr ≤ n then .bootApplication else s.cmd }

theorem State.countDown_zero {s : State} (h : 1 ≤ s.ctr) : s.countDown 0 = s := by
  rw [countDown, Nat.sub_zero, max_eq_right h, if_neg (Nat.not_le.2 h)]

/-- One tick more. -/
theorem State.countDown_succ (s : State) (n : Nat) : (s.countDown n).countDown 1 = s.countDown (n + 1) := by
  have hctr : max 1 (max 1 (s.ctr - n) - 1) = max 1 (s.ctr - (n + 1)) := by omega
  have hone : max 1 (s.ctr - n) ≤ 1 ↔ s.ctr ≤ n + 1 := by omega
  by_cases hn : s.ctr ≤ n + 1
  · simp only [countDown, hctr, hone, if_pos hn]
  · have hn' : ¬ s.ctr ≤ n := by omega
    simp only [countDown, hctr, hone, if_neg hn, if_neg hn']

/-- A tick takes a live countdown one further. -/
theorem takes_tick {s : State} (h : s.Ready) (hlive : 1 ≤ s.ctr) :
    s.Takes [tickInput] { s.countDown 1 with out := Outputs.quiet } [Outputs.quiet] := by
  refine .one fun rest => ?_
  rw [step_tick (s := { s with inputs := tickInput :: rest }) h rfl, State.countDown]
  by_cases habove : 1 < s.ctr
  · rw [if_pos habove, max_eq_right (Nat.le_sub_one_of_lt habove), if_neg (Nat.not_le.2 habove)]
  · have hone : s.ctr = 1 := by omega
    rw [if_neg habove, if_pos hone, hone, if_pos le_rfl]
    rfl

/-- Any number of ticks is taken, one after the other. -/
theorem takes_ticks {s : State} (h : s.Ready) (hlive : 1 ≤ s.ctr) (n : Nat) :
    ∃ out, s.Takes (List.replicate n tickInput) { s.countDown n with out := out } (List.replicate n Outputs.quiet) := by
  induction n with
  | zero =>
    refine ⟨s.out, ?_⟩
    rw [State.countDown_zero hlive]
    exact .nil s
  | succ n ih =>
    obtain ⟨out, hticks⟩ := ih
    have htick := takes_tick (s := { s.countDown n with out := out }) h (Nat.le_max_left _ _)
    refine ⟨Outputs.quiet, ?_⟩
    rw [List.replicate_succ', List.replicate_succ', ← State.countDown_succ]
    exact hticks.append htick

/-- Settles O48: `n` ticks leave the countdown taken `n` further. -/
theorem timeoutForcesBoot : Obligations.TimeoutForcesBoot := by
  intro s n h hlive
  obtain ⟨out, hticks⟩ := takes_ticks h hlive n
  have hrun := hticks []
  rw [List.append_nil, List.length_replicate] at hrun
  refine ⟨_, _, hrun, fun hbefore => ⟨?_, ?_⟩, fun hafter => ⟨?_, ?_⟩⟩
  · exact max_eq_right (Nat.sub_pos_of_lt hbefore)
  · exact if_neg (Nat.not_le.2 hbefore)
  · exact max_eq_left (by omega)
  · simp [State.bootNow, State.countDown, hafter]

/-! ### The producers of `boot_now` -/

/-- The received bytes that request the boot: an unknown opcode, and boot type 0x80 after the opcode 0x01 (R238). -/
abbrev State.BootByte (s : State) (data : Byte) : Prop :=
  s.pos = 0 ∧ 3 ≤ data.toNat ∨ s.pos = 1 ∧ s.cmd = .version ∧ data = 0x80

/-- An answer of the write path raises `boot_now` for exactly these bytes. -/
theorem writePath_answer_boot {data : Byte} {s u : State} {a : Ack} (h : writePath data s = .answer a u)
    (hc : s.cmd ≠ .bootApplication) : u.cmd = .bootApplication ↔ s.BootByte data := by
  have hkept (hpos : s.pos ≠ 0) (harg : s.pos = 1 → s.cmd = .version → data ≠ 0x80) :
      s.cmd = .bootApplication ↔ s.BootByte data :=
    iff_of_false hc fun hb => hb.elim (fun ⟨hp, _⟩ => hpos hp) fun ⟨hp, hv, hd⟩ => harg hp hv hd
  rcases writePath_answer h with
    ⟨hp, hd, -, c, hcmd, rfl⟩ | ⟨hp, hd, -, rfl⟩ | ⟨hp, hv, hd, -, rfl⟩ | ⟨hp, hm, -, c, hcmd, rfl⟩ |
    ⟨hp, harg, -, rfl⟩ | ⟨hp, -, -, rfl⟩ | ⟨hp, -, -, -, -, rfl⟩ | ⟨hp, -, -, -, -, rfl⟩ | ⟨hp, -, -, _, -, rfl⟩ |
    ⟨hp, -, -, -, rfl⟩
  · refine iff_of_false ?_ (by omega)
    rcases hcmd with rfl | rfl | rfl <;> nofun
  · exact iff_of_true rfl (.inl ⟨hp, hd⟩)
  · exact iff_of_true rfl (.inr ⟨hp, hv, hd⟩)
  · refine iff_of_false ?_ (by simp [State.BootByte, hp, hm])
    rcases hcmd with rfl | rfl | ⟨rfl, -⟩ <;> nofun
  · exact hkept hp harg
  iterate 5 exact hkept (by omega) fun h1 => by omega

/-- An input item that raises `boot_now` is a tick with `CTR` = 1 or one of the bytes that request the boot. -/
theorem exec_input_boot {s t : State} {x : Input} (h : exec (decodeInput x) s = .next t)
    (hc : s.cmd ≠ .bootApplication) (ht : t.cmd = .bootApplication) :
    decodeInput x = .evTick ∧ s.ctr = 1 ∨
      ∃ data : Byte, decodeInput x = .evRx data ∧ s.phase = .rx ∧ s.BootByte data := by
  rcases exec_input_next h with ⟨-, rfl⟩ | ⟨-, rfl⟩ | ⟨-, rfl⟩ | ⟨-, rfl⟩ |
    ⟨hx, ⟨-, rfl⟩ | ⟨hone, -⟩ | ⟨-, rfl⟩⟩ | ⟨-, hboot, -⟩ | ⟨_, rfl, -⟩ | ⟨-, -, v, u, hu, rfl⟩ |
    ⟨⟨-, hphase, -⟩, data, hx, a, u, hu, rfl⟩
  iterate 5 exact absurd ht hc
  · exact .inl ⟨hx, hone⟩
  · exact absurd ht hc
  · exact absurd hboot hc
  · exact absurd ht hc
  · rcases readPath_answer hu with rfl | ⟨-, rfl⟩ <;> exact absurd ht hc
  · exact .inr ⟨data, hx, hphase, (writePath_answer_boot hu hc).1 ht⟩

/-- While receiving, a byte that requests the boot does. -/
theorem execEvRx_boot {s t : State} {data : Byte} (h : exec (.evRx data) s = .next t) (hphase : s.phase = .rx)
    (hc : s.cmd ≠ .bootApplication) (hu : s.cmd ≠ .unreachable) (hb : s.BootByte data) :
    t.cmd = .bootApplication := by
  obtain ⟨-, ⟨r, -, ⟨-, hp⟩ | ⟨-, hunreachable⟩ | ⟨-, hraise⟩⟩ | ⟨-, a, u, hw, rfl⟩⟩ := execEvRx_next h
  · exact absurd hphase hp
  · exact absurd hunreachable hu
  · have h4 : 4 ≤ s.pos := by rcases writePath_raise hraise with ⟨-, -, h4, -⟩ | ⟨-, -, h4, -⟩ <;> exact h4
    omega
  · exact (writePath_answer_boot hw hc).2 hb

/-- Settles O47: the tick at 1 and the bytes that request the boot raise `boot_now`, and no other input item does. -/
theorem bootRequestProducers : Obligations.BootRequestProducers := by
  intro s t h hc hu
  rcases step_next h with ⟨hi, rfl⟩ | ⟨x, rest, hi, hx⟩
  · exact iff_of_false hc fun ⟨i, rest, hcons, _⟩ => by rw [hi] at hcons; cases hcons
  · refine ⟨fun ht => ⟨x, rest, hi, exec_input_boot (s := { s with inputs := rest }) hx hc ht⟩, ?_⟩
    rintro ⟨i, rest', hi', hproducer⟩
    obtain ⟨rfl, rfl⟩ : x = i ∧ rest = rest' := List.cons.inj (hi.symm.trans hi')
    rcases hproducer with ⟨htick, hone⟩ | ⟨data, hrx, hphase, hb⟩
    · rw [htick, exec_evTick_ready (exec_ready hx), if_neg (by simp [hone]), if_pos hone] at hx
      cases hx
      rfl
    · rw [hrx] at hx
      exact execEvRx_boot (s := { s with inputs := rest }) hx hphase hc hu hb

end Sys2Proof.Machine

/-! PROOFS. The model faults (60_exceptions.md R255, R257): what a step that records one does besides. -/

namespace Sys2Proof.Machine

/-- An input item that leaves a model fault recorded records one and drives no output: its other answers keep `FAULTS`,
which is empty in a ready state. -/
theorem exec_input_records {s t : State} {x : Input} (h : exec (decodeInput x) s = .next t) (ht : t.faults ≠ []) :
    ∃ r, t = { s with out := Outputs.quiet, faults := [r] } := by
  have hnone : s.faults = [] := (exec_ready h).2.1
  rcases exec_input_next h with ⟨-, rfl⟩ | ⟨-, rfl⟩ | ⟨-, rfl⟩ | ⟨-, rfl⟩ | ⟨-, ⟨-, rfl⟩ | ⟨-, rfl⟩ | ⟨-, rfl⟩⟩ |
    ⟨-, -, rfl⟩ | ⟨r, rfl, -⟩ | ⟨-, -, v, u, hu, rfl⟩ | ⟨-, data, -, a, u, hu, rfl⟩
  iterate 8 exact absurd hnone ht
  · exact ⟨r, rfl⟩
  · have hread := readPath_answer_keeps hu
    exact absurd (hread.1.trans hnone) ht
  · have hwrite := writePath_answer_faults hu
    exact absurd (hwrite.trans hnone) ht

/-- Settles O50: the wait records nothing, and an input item that records a model fault takes itself from the input. -/
theorem faultingStepChangesNothingElse : Obligations.FaultingStepChangesNothingElse := by
  intro s t h ht
  rcases step_next h with ⟨-, rfl⟩ | ⟨x, rest, hi, hx⟩
  · exact absurd (step_ready h).2.1 ht
  · obtain ⟨r, rfl⟩ := exec_input_records hx ht
    exact ⟨r, by rw [hi, List.tail_cons]⟩

end Sys2Proof.Machine

/-! PROOFS. A device reset (70_reset_and_hazards.md R280): `boot_now`, the one value of R47 that is no field of the state, then
all of R47. -/

namespace Sys2Proof.Machine

/-- No boot request survives a reset: `boot_now` is a function of `CMD` (R42), and a reset leaves the Command `WAIT`. -/
@[simp] theorem State.resetWith_bootNow (cfg : Config) (addr : Addr) (buf : List Byte) (flash ee : Memory) :
    (State.resetWith cfg addr buf flash ee).bootNow = false := by
  rw [State.bootNow, State.resetWith_cmd]
  decide

/-- Settles O39: each field by its reset lemma, the outputs by R47's undriven ones, and `boot_now` by the Command. -/
theorem resetValues : Obligations.ResetValues := by
  intro cfg addr buf flash ee s
  have hout : s.out = { ack := none, txd := none, busReset := false } := State.resetWith_out cfg addr buf flash ee
  have hboot : s.bootNow = false := State.resetWith_bootNow cfg addr buf flash ee
  exact ⟨State.resetWith_cmd .., State.resetWith_addr .., State.resetWith_pos .., State.resetWith_rpos ..,
    State.resetWith_buf .., State.resetWith_ctr .., State.resetWith_phase .., hout, hboot, State.resetWith_faults ..,
    State.resetWith_handedOff .., State.resetWith_flash .., State.resetWith_ee ..⟩

end Sys2Proof.Machine
